-- ==== Sys2Proof/Word.lean ====
section
/-! DEFINITION. The word types of the block: bytes and 16-bit words, all unsigned (spec 00_scope.md section 6). -/

namespace Sys2Proof

/-- A byte on the wire, `u8`. -/
abbrev Byte := BitVec 8

/-- An address or a word operand, `u16`. -/
abbrev Half := BitVec 16

/-- The host command word, format HOP (R60): `op[34:32] addr[31:16] wdata[15:0]`. -/
abbrev HostWord := BitVec 35

end Sys2Proof
end

