-- ==== Sys2Proof/Config.lean ====
section
/-! DEFINITION. The constants and parameters of R5, the opcodes of R53, and the free values: what the spec leaves to
the environment or leaves open has no body here, so no proof can see it. -/

namespace Sys2Proof.Config

/-- Wire opcode READ (R53). -/
abbrev opREAD : Byte := 0x03
/-- Wire opcode WRITE (R53). -/
abbrev opWRITE : Byte := 0x02
/-- Wire opcode WRDI (R53). -/
abbrev opWRDI : Byte := 0x04
/-- Wire opcode WREN (R53). -/
abbrev opWREN : Byte := 0x06
/-- Wire opcode RDSR (R53). -/
abbrev opRDSR : Byte := 0x05
/-- Wire opcode WRSR (R53). -/
abbrev opWRSR : Byte := 0x01

/-- The status byte INIT writes (R5, R100). -/
abbrev initStatus : Byte := 0x00

/-- Bytes in the device array (R5, R38). -/
abbrev devSize : Nat := 32768

/-- The parameters of R5 that are OPEN. They are data of the state, never changed by a step, so that a claim about
every state is a claim about every value of them (R5: "proves claims for every value"). -/
structure Params where
  /-- `DUMMY`: the byte shifted out while a data or status byte is shifted in (R55, D5). -/
  dummy : Byte
  /-- `POLL_LIMIT`: bound on the status reads of one poll, `none` for unbounded (R125, D10). -/
  pollLimit : Option Nat
  /-- `WRSR_REQUIRES_WEL`: whether the device ignores a WRSR while WEL is 0 (R46, conflict C2). -/
  wrsrRequiresWel : Bool
  /-- `DEV_ADDR_MASK`: on the reference device the location of wire address `a` is `a &&& devAddrMask` (R46; U11). -/
  devAddrMask : Half
  deriving DecidableEq, Repr

/-- `WRSR_REQUIRES_WEL` has no default (92_eei_decisions.md, "Open parameters"): a free value. DESIGN CHOICE log 4. -/
opaque openWrsrRequiresWel : Bool

/-- The parameters at the defaults the spec gives (R5): DUMMY 0x00, POLL_LIMIT none, DEV_ADDR_MASK 0x7FFF. -/
def Params.spec : Params where
  dummy := 0x00
  pollLimit := none
  wrsrRequiresWel := openWrsrRequiresWel
  devAddrMask := 0x7FFF

/-- Free value: the `n`-th byte the environment returns where the spec says the byte is unspecified or the
environment's free choice (R44 (a), R47, U9). DESIGN CHOICE log 6. -/
opaque freeByte : Nat → Byte

/-- Free value: what the device holds at a location no write of the run has reached (N6, U16; the device's array after
power-up is not in the source). DESIGN CHOICE log 17. -/
opaque freeContent : Nat → Byte

/-- Free value: how many status reads the `n`-th write of the run stays busy for, where the state does not fix it
(`N_WR`, `N_SR` of R46 "may differ per write"). DESIGN CHOICE log 18. -/
opaque freeBusy : Nat → Nat

/-- Free value: whether the contract device accepts the `n`-th write command, where the state does not fix it (R44 (c)
says when a write command can be accepted, not that it is; R39, N4 on protection). DESIGN CHOICE log 27. -/
opaque freeAccept : Nat → Bool

end Sys2Proof.Config
end

