-- ==== Sys2Proof/Syntax.lean ====
section
/-! DEFINITION. The instructions: one constructor for each row of spec/opcode_table.json, six wire frames and eight
host command words (30_encoding.md). -/

namespace Sys2Proof

/-- One row of the opcode table with its operands. A host operation carries both operand fields of its command word,
also those it does not use: `Start` loads both latches whatever the operation (R62). -/
inductive Instr where
  /-- WREN, write enable (R80). -/
  | wren
  /-- WRDI, write disable (R81). -/
  | wrdi
  /-- RDSR, read status register (R82), with the byte in the dummy position. -/
  | rdsr (dummy : Byte)
  /-- WRSR, write status register (R83). -/
  | wrsr (status : Byte)
  /-- READ, read one byte (R84), with the byte in the dummy position. -/
  | read (addr : Half) (dummy : Byte)
  /-- WRITE, write one byte (R85). -/
  | write (addr : Half) (data : Byte)
  /-- INIT, host operation 0 (R100). -/
  | init (addr : Half) (wdata : Half)
  /-- READ_WORD, host operation 1 (R111). -/
  | readWord (addr : Half) (wdata : Half)
  /-- WRITE_WORD, host operation 2 (R120). -/
  | writeWord (addr : Half) (wdata : Half)
  /-- READ_STATUS, host operation 3 (R140). -/
  | readStatus (addr : Half) (wdata : Half)
  /-- WRITE_STATUS, host operation 4 (R142). -/
  | writeStatus (addr : Half) (wdata : Half)
  /-- WRITE_BYTE, host operation 5 (R122). -/
  | writeByte (addr : Half) (wdata : Half)
  /-- READ_BYTE, host operation 6 (R110). -/
  | readByte (addr : Half) (wdata : Half)
  /-- RESERVED_OP7, host operation code 7 (R63). -/
  | reservedOp7 (addr : Half) (wdata : Half)
  deriving DecidableEq, Repr

/-- What an instruction is encoded as: a wire frame, its bytes in the order they are sent (R50, R51), or a host command
word (R60). -/
inductive Code where
  | frame (bytes : List Byte)
  | hop (w : HostWord)
  deriving DecidableEq, Repr

end Sys2Proof
end

