-- ==== Sys2Proof/Machine/State.lean ====
section
/-! DEFINITION. The state of the block and of what it talks to, as plain data, with its value after reset; and the
reasons a step can stop. Every field is in INVENTORY.md under '## State' with the rule that names it. -/

namespace Sys2Proof.Machine

open Sys2Proof

/-- A line level (R3: LOW is asserted). -/
inductive Level where
  | low
  | high
  deriving DecidableEq, Repr

/-- The three lines of R2 and R20. -/
inductive LineId where
  | cs
  | hold
  | wp
  deriving DecidableEq, Repr

/-- One line's latches (R20). -/
structure Line where
  /-- `L.oe`: the line has been configured as an output. -/
  oe : Bool
  /-- `L.lvl`: the level last driven. -/
  lvl : Level
  /-- "`L.lvl` has been written since reset": while false, `lvl` stands for an unspecified level. -/
  driven : Bool
  deriving DecidableEq, Repr

/-- The host operations, values of the latch `op` (R17). -/
inductive HostOp where
  | init
  | readWord
  | writeWord
  | readStatus
  | writeStatus
  | writeByte
  | readByte
  deriving DecidableEq, Repr

/-- The fifteen sequencer states of R17. -/
inductive SeqState where
  | idle
  | initCfgCs
  | initCfgHold
  | initCfgWp
  | initSetCs
  | initSetHold
  | initSetWp
  | initWrsr
  | rdRead
  | wbWren
  | wbWrite
  | wbPoll
  | rsRdsr
  | wsWrsr
  | faulted
  deriving DecidableEq, Repr

/-- The seven transaction phases of R19. -/
inductive Phase where
  | idle
  | selected
  | opcodeSent
  | addrHiSent
  | addrSent
  | dataDone
  | deselected
  deriving DecidableEq, Repr

/-- The kinds of wire transaction (R75). -/
inductive TxnKind where
  | wren
  | wrdi
  | rdsr
  | wrsr
  | read
  | write
  deriving DecidableEq, Repr

/-- One wire transaction: its kind, its address `ta`, and the byte it sends in the data position (`td`, or the dummy
byte of READ and RDSR). Not a latch: a function of the sequencer state (R75, R78). -/
structure Txn where
  kind : TxnKind
  addr : Half
  data : Byte
  deriving DecidableEq, Repr

/-- What `Done` carries (R150). -/
inductive Result where
  | ok
  | okValue (v : Half)
  | errDeviceTimeout
  deriving DecidableEq, Repr

/-- The event alphabet of R7. -/
inductive Event where
  | start (op : HostOp) (a v : Half)
  | cfg (l : LineId)
  | set (l : LineId) (lvl : Level)
  | xfer (tx rx : Byte)
  | done (op : HostOp) (res : Result)
  | busFault
  deriving DecidableEq, Repr

/-- The bytes of the device array whose contents are known: pairs of location and byte, locations strictly rising. An
unlisted location has no known content (log 17). -/
abbrev Memory := List Host.Cell

/-- How the device at the other end of the wire behaves. -/
inductive DeviceMode where
  /-- Anything at all: every byte it returns is the environment's free choice (R44 (a)). -/
  | open
  /-- The contract of R44: writes complete by a step of the device's own. -/
  | contract
  /-- The reference device of R45 to R48: writes complete by being polled. -/
  | reference
  deriving DecidableEq, Repr

/-- The device (ENVIRONMENT, R44 to R48). -/
structure Device where
  mode : DeviceMode
  /-- `mem` (R45). -/
  mem : Memory
  /-- `hi6`: status bits 7:2 (R45). -/
  hi6 : BitVec 6
  /-- `wel`: the write-enable latch (R24 (a), R45). -/
  wel : Bool
  /-- `busy_left`: WIP reads 1 while it is above 0 (R45). -/
  busyLeft : Nat
  /-- The bytes received in the open chip-select window (R47). -/
  frame : List Byte
  deriving DecidableEq, Repr

/-- The environment's coming choices (MODEL's own fields): the model takes them one by one and quantifies over them. -/
structure Env where
  /-- For each coming primitive, whether it raises BusFault (R151); past the end none does (log 5). -/
  faults : List Bool
  /-- The unspecified bytes of the coming transfers; past the end `Config.freeByte` (log 6). -/
  replies : List Byte
  /-- `N_WR` of the coming data writes; past the end `Config.freeBusy` (log 18). -/
  nWr : List Nat
  /-- `N_SR` of the coming status writes; past the end `Config.freeBusy` (log 18). -/
  nSr : List Nat
  /-- Whether the contract device accepts the coming write commands (R44 (c) says "only when", not "whenever"); past the
  end `Config.freeAccept` (log 27). -/
  accepts : List Bool
  /-- How many free values have been taken. -/
  tick : Nat
  deriving DecidableEq, Repr

/-- The coming moves of the world outside the block (MODEL's own; log 2). -/
inductive Move where
  /-- The host starts this command word as soon as the block is idle (R65). -/
  | call (w : HostWord)
  /-- The host presents this command word at this step, whatever the block does (R156). -/
  | force (w : HostWord)
  /-- The reset input is asserted at this step (R170). -/
  | reset
  /-- The host does nothing at this step. -/
  | pass
  /-- The device completes its write cycle by itself at this step (R44 (e)). -/
  | deviceDone
  deriving DecidableEq, Repr

/-- Why a step stops with a fault. -/
inductive Fault where
  /-- Raised by `phaseRow`: the phase and the transaction kind are a pair that R75's table does not hold ("No other
  (phase, kind) pair is reachable"). Safe: the model stops, and no state of a run has such a pair. -/
  | phaseNotInTable
  /-- Raised by `completeRead`: `q` is `Q_RD_READ` and `op` is no read operation, a pair that R110 and R111 do not hold.
  Safe: the model stops, and no state of a run has such a pair. -/
  | sequencerNotInTable
  deriving DecidableEq, Repr

/-- Why a step refuses. -/
inductive Refusal where
  /-- Raised by `exec` for an instruction that has no meaning yet. Safe. -/
  | notModelled (mnemonic : String)
  /-- Raised by every host operation started while `q ≠ Q_IDLE`, and by a frame begun while another is on the wire or
  after a fault (R156, R4: "undefined behavior", "a model refuses a host that does this"). Safe. -/
  | startWhileBusy
  /-- Raised by RESERVED_OP7: "the block gives it no meaning; a model refuses a `Start` with `op = 7`" (R63). Safe. -/
  | reservedHostOp
  /-- Raised by `step` for bench bytes that are no frame of the protocol (R58, R52). Safe. -/
  | notAFrame
  deriving DecidableEq, Repr

/-- The whole state. -/
structure State where
  /-- The open parameters of R5; no step changes them. -/
  par : Config.Params
  /-- Address latch (R11). -/
  A : Half
  /-- Value latch (R12). -/
  V : Half
  /-- Receive latch (R13). -/
  RX : Byte
  /-- High-byte latch of READ_WORD (R14). -/
  HI : Byte
  /-- Result latch (R15). -/
  R : Half
  /-- Poll counter (R16). -/
  np : Nat
  /-- Sequencer state (R17, R18). -/
  q : SeqState
  /-- Operation in progress (R17). -/
  op : HostOp
  /-- Byte index (R17). -/
  bi : BitVec 1
  /-- Transaction phase (R19). -/
  ph : Phase
  /-- Result code (R22, R150): 0 Ok, 1 DeviceTimeout, 2 BusFault. -/
  err : BitVec 2
  /-- Chip-select line (R20). -/
  cs : Line
  /-- Hold line (R20). -/
  hold : Line
  /-- Write-protect line (R20). -/
  wp : Line
  /-- The device (ENVIRONMENT). -/
  dev : Device
  /-- The environment's coming choices. -/
  env : Env
  /-- The coming moves of host, reset input and device. -/
  moves : List Move
  /-- Frames to be sent on their own, outside the sequencer; empty on the hardware (log 2). -/
  bench : List (List Byte)
  /-- The event trace, oldest first (R7). -/
  trace : List Event
  deriving DecidableEq, Repr

/-- A line after reset (R20, R26): not an output; its level unspecified (lvl LOW is a DESIGN CHOICE, log 7). -/
def Line.reset : Line where
  oe := false
  lvl := .low
  driven := false

/-- The device of a machine that nothing has been said about: it may do anything (log 14). -/
def Device.reset : Device where
  mode := .open
  mem := []
  hi6 := 0
  wel := false
  busyLeft := 0
  frame := []

/-- The environment with nothing fixed: no fault is scheduled and every byte and busy count is free. -/
def Env.reset : Env where
  faults := []
  replies := []
  nWr := []
  nSr := []
  accepts := []
  tick := 0

/-- The machine right after reset (R26, R170): `q = Q_IDLE`, `ph = IDLE`, `bi = 0`, no line an output, no event; the
latches the table calls unspecified at the values of log 7. -/
def State.reset : State where
  par := Config.Params.spec
  A := 0
  V := 0
  RX := 0
  HI := 0
  R := 0
  np := 0
  q := .idle
  op := .init
  bi := 0
  ph := .idle
  err := 0
  cs := Line.reset
  hold := Line.reset
  wp := Line.reset
  dev := Device.reset
  env := Env.reset
  moves := []
  bench := []
  trace := []

end Sys2Proof.Machine
end

