-- ==== Sys2Proof/Machine/Flags.lean ====
section
/-! DEFINITION. The flags (R22), the status bits (R57), the result codes (R150), the pin level of a line (R20) and
`LinesReady` (R21). -/

namespace Sys2Proof.Machine

open Sys2Proof

/-- `busy = (q ≠ Q_IDLE)` (R22). -/
def State.busy (s : State) : Bool := s.q != .idle

/-- Bit 0 of a status byte, WIP (R57). -/
def wip (status : Byte) : Bool := status.getLsbD 0

/-- Bit 1 of a status byte, WEL (R57). -/
def wel (status : Byte) : Bool := status.getLsbD 1

/-- The two-bit result code (R150): 0 for Ok, 1 for DeviceTimeout. -/
def Result.code : Result → BitVec 2
  | .ok => 0
  | .okValue _ => 0
  | .errDeviceTimeout => 1

/-- The result code of BusFault (R150, R151). -/
def busFaultCode : BitVec 2 := 2

/-- The level seen on the pin, where the spec gives it (R20, U6): none while the line is no output or was never driven. -/
def Line.pin (l : Line) : Option Level :=
  if l.oe && l.driven then some l.lvl else none

/-- One line's part of R21: an output, driven HIGH. `driven` says that the level is a written one (log 19). -/
def Line.ready (l : Line) : Bool := l.oe && l.driven && decide (l.lvl = .high)

/-- `LinesReady` (R21). -/
def State.linesReady (s : State) : Bool := s.cs.ready && s.hold.ready && s.wp.ready

/-- The phases in which the window is open, chip-select LOW (R77 (a)). -/
def Phase.inWindow : Phase → Bool
  | .selected | .opcodeSent | .addrHiSent | .addrSent | .dataDone => true
  | .idle | .deselected => false

end Sys2Proof.Machine
end

