-- ==== Sys2Proof/Decode.lean ====
section
/-! DEFINITION. The decoder, total on any frame and any host command word, rejecting by name; the encoder, written from
the same tables (R51, R53, R60, R61); the bit-field helpers; and the opcode table's own numbering of a word. -/

namespace Sys2Proof

/-- `v[15:8]`, equal to `value >> 8` (R55). -/
def hiByte (v : Half) : Byte := v.extractLsb' 8 8

/-- `v[7:0]`, equal to `value & 0xFF` (R55). -/
def loByte (v : Half) : Byte := v.extractLsb' 0 8

/-- `h ++ l`, the first byte in the high half (R32, R56). -/
def joinBytes (h l : Byte) : Half := h ++ l

/-- `zext_16(b)` (R56). -/
def zext16 (b : Byte) : Half := b.setWidth 16

/-- Field `op[34:32]` of a host command word (R60). -/
def hopOp (w : HostWord) : BitVec 3 := w.extractLsb' 32 3

/-- Field `addr[31:16]` of a host command word (R60). -/
def hopAddr (w : HostWord) : Half := w.extractLsb' 16 16

/-- Field `wdata[15:0]` of a host command word (R60). -/
def hopData (w : HostWord) : Half := w.extractLsb' 0 16

/-- A host command word from its fields (R60). -/
def hopWord (op : BitVec 3) (a v : Half) : HostWord := op ++ a ++ v

/-- Why the decoder rejects a frame. -/
inductive DecodeError where
  /-- A window without a byte has no opcode (R50). -/
  | emptyFrame
  /-- The first byte is none of the six opcodes (R58). -/
  | unknownOpcode (b : Byte)
  /-- The length is not the one the opcode decides (R52). -/
  | wrongLength (opcode : Byte)
  deriving DecidableEq, Repr

/-- The wire frame with these bytes, matched on its first byte and its length (R52, R53). -/
def decodeFrame : List Byte → Except DecodeError Instr
  | [] => .error .emptyFrame
  | o :: rest =>
    if o = Config.opWREN then
      match rest with
      | [] => .ok .wren
      | _ => .error (.wrongLength o)
    else if o = Config.opWRDI then
      match rest with
      | [] => .ok .wrdi
      | _ => .error (.wrongLength o)
    else if o = Config.opRDSR then
      match rest with
      | [x] => .ok (.rdsr x)
      | _ => .error (.wrongLength o)
    else if o = Config.opWRSR then
      match rest with
      | [s] => .ok (.wrsr s)
      | _ => .error (.wrongLength o)
    else if o = Config.opREAD then
      match rest with
      | [ah, al, x] => .ok (.read (joinBytes ah al) x)
      | _ => .error (.wrongLength o)
    else if o = Config.opWRITE then
      match rest with
      | [ah, al, d] => .ok (.write (joinBytes ah al) d)
      | _ => .error (.wrongLength o)
    else .error (.unknownOpcode o)

/-- The host operation a command word asks for (R60, R61). Every word is one: code 7 is the reserved operation. -/
def decodeHop (w : HostWord) : Instr :=
  match (hopOp w).toNat with
  | 0 => .init (hopAddr w) (hopData w)
  | 1 => .readWord (hopAddr w) (hopData w)
  | 2 => .writeWord (hopAddr w) (hopData w)
  | 3 => .readStatus (hopAddr w) (hopData w)
  | 4 => .writeStatus (hopAddr w) (hopData w)
  | 5 => .writeByte (hopAddr w) (hopData w)
  | 6 => .readByte (hopAddr w) (hopData w)
  | _ => .reservedOp7 (hopAddr w) (hopData w)

/-- The decoder. -/
def decode : Code → Except DecodeError Instr
  | .frame bytes => decodeFrame bytes
  | .hop w => .ok (decodeHop w)

/-- The encoder (R51, R53, R54 for the frames; R60, R61 for the command words). -/
def encode : Instr → Code
  | .wren => .frame [Config.opWREN]
  | .wrdi => .frame [Config.opWRDI]
  | .rdsr x => .frame [Config.opRDSR, x]
  | .wrsr s => .frame [Config.opWRSR, s]
  | .read a x => .frame [Config.opREAD, hiByte a, loByte a, x]
  | .write a d => .frame [Config.opWRITE, hiByte a, loByte a, d]
  | .init a v => .hop (hopWord 0 a v)
  | .readWord a v => .hop (hopWord 1 a v)
  | .writeWord a v => .hop (hopWord 2 a v)
  | .readStatus a v => .hop (hopWord 3 a v)
  | .writeStatus a v => .hop (hopWord 4 a v)
  | .writeByte a v => .hop (hopWord 5 a v)
  | .readByte a v => .hop (hopWord 6 a v)
  | .reservedOp7 a v => .hop (hopWord 7 a v)

/-- The bits of a code: 8 for each byte of a frame, 35 for a host command word (R51, R60). -/
def Code.bits : Code → Nat
  | .frame bytes => 8 * bytes.length
  | .hop _ => 35

/-- The `n` bytes of a frame written as one number, the first transfer in the highest bits (R51). -/
def frameBytes : Nat → Nat → List Byte
  | 0, _ => []
  | n + 1, w => BitVec.ofNat 8 (w >>> (8 * n)) :: frameBytes n w

/-- The code whose bits are `w` as spec/opcode_table.json numbers them: a frame of 8, 16 or 32 bits as one number, its
first transfer in the highest bits; a command word of 35 bits, which the table's whole bytes make 40 (log 3). -/
def tableCode (nbits w : Nat) : Option Code :=
  if nbits = 8 ∨ nbits = 16 ∨ nbits = 32 then
    if w < 2 ^ nbits then some (.frame (frameBytes (nbits / 8) w)) else none
  else if nbits = 35 ∨ nbits = 40 then
    if w < 2 ^ 35 then some (.hop (BitVec.ofNat 35 w)) else none
  else none

/-- The instruction this decoder reads from a word numbered as spec/opcode_table.json numbers it. -/
def decodeTableWord (nbits w : Nat) : Option Instr :=
  match tableCode nbits w with
  | none => none
  | some c =>
    match decode c with
    | .ok i => some i
    | .error _ => none

end Sys2Proof
end

