-- ==== Sys2Proof/Machine/Operands.lean ====
section
/-! DEFINITION. Every operand form: the address and the data byte of a transaction (R54, R55, R78), which transaction a
sequencer state owns (R78), the opcode of a kind (R53), and how results are assembled (R56). -/

namespace Sys2Proof.Machine

open Sys2Proof

/-- `A +16 bi` (R54, R78, R113, R127). -/
def State.byteAddr (s : State) : Half := s.A + s.bi.setWidth 16

/-- The data byte of the WRITE transaction (R78): `V[15:8]` for the first byte of a word, otherwise `V[7:0]`. -/
def State.writeData (s : State) : Byte :=
  if s.op = .writeWord ∧ s.bi = 0 then hiByte s.V else loByte s.V

/-- `opcode(tk)` (R53, R75). -/
def TxnKind.opcode : TxnKind → Byte
  | .wren => Config.opWREN
  | .wrdi => Config.opWRDI
  | .rdsr => Config.opRDSR
  | .wrsr => Config.opWRSR
  | .read => Config.opREAD
  | .write => Config.opWRITE

/-- Steps of one transaction, the silent one included (R86). -/
def TxnKind.steps : TxnKind → Nat
  | .wren | .wrdi => 4
  | .rdsr | .wrsr => 5
  | .read | .write => 7

/-- The WREN transaction (R80). -/
def Txn.wren : Txn := ⟨.wren, 0, 0⟩
/-- The WRDI transaction (R81). -/
def Txn.wrdi : Txn := ⟨.wrdi, 0, 0⟩
/-- An RDSR transaction with this dummy byte (R82). -/
def Txn.rdsr (x : Byte) : Txn := ⟨.rdsr, 0, x⟩
/-- A WRSR transaction (R83). -/
def Txn.wrsr (status : Byte) : Txn := ⟨.wrsr, 0, status⟩
/-- A READ transaction with this dummy byte (R84). -/
def Txn.read (a : Half) (x : Byte) : Txn := ⟨.read, a, x⟩
/-- A WRITE transaction (R85). -/
def Txn.write (a : Half) (d : Byte) : Txn := ⟨.write, a, d⟩

/-- The transaction the sequencer state owns (R78), with `DUMMY` in the data position of RDSR and READ (R55). -/
def State.owned (s : State) : Option Txn :=
  match s.q with
  | .initWrsr => some (.wrsr Config.initStatus)
  | .rdRead => some (.read s.byteAddr s.par.dummy)
  | .wbWren => some .wren
  | .wbWrite => some (.write s.byteAddr s.writeData)
  | .wbPoll => some (.rdsr s.par.dummy)
  | .rsRdsr => some (.rdsr s.par.dummy)
  | .wsWrsr => some (.wrsr (loByte s.V))
  | .idle | .initCfgCs | .initCfgHold | .initCfgWp | .initSetCs | .initSetHold | .initSetWp | .faulted => none

/-- The frame a transaction puts on the wire, in the order sent (R51). -/
def Txn.bytes (t : Txn) : List Byte :=
  match t.kind with
  | .wren | .wrdi => [t.kind.opcode]
  | .rdsr | .wrsr => [t.kind.opcode, t.data]
  | .read | .write => [t.kind.opcode, hiByte t.addr, loByte t.addr, t.data]

/-- The device location of a wire address: masked with `DEV_ADDR_MASK` on the reference device (R46). The mask is that
device's alone; under the contract a location is the address itself, and what an address beyond the array reaches is left
open (`State.inArray`, log 31). -/
def State.location (s : State) (a : Half) : Nat :=
  if s.dev.mode = .contract then a.toNat else (a &&& s.par.devAddrMask).toNat

/-- The address reaches a location that the device is known to have. Under the contract that is one below 32768 (R38):
what is beyond is not in the source (U11, N8; DESIGN CHOICE log 31). The reference device has one for every address. -/
def State.inArray (s : State) (a : Half) : Bool := decide (s.dev.mode = .contract → a.toNat < Config.devSize)

end Sys2Proof.Machine
end

