-- ==== Sys2Proof/Machine/Device.lean ====
section
/-! DEFINITION. The ENVIRONMENT: the free bytes and busy counts, the device's array, and what the device does with a
chip-select window (R44 contract, R45 to R48 reference device). Nothing here is behaviour of the block. -/

namespace Sys2Proof.Machine

open Sys2Proof

/-! ### The array -/

/-- The known content of a location. -/
def Memory.read : Memory → Nat → Option Byte
  | [], _ => none
  | (k, b) :: rest, a => if a = k then some b else Memory.read rest a

/-- The array after one location is written; locations stay strictly rising. -/
def Memory.write : Memory → Nat → Byte → Memory
  | [], a, d => [(a, d)]
  | (k, b) :: rest, a, d =>
    if a < k then (a, d) :: (k, b) :: rest
    else if a = k then (a, d) :: rest
    else (k, b) :: Memory.write rest a d

/-- The canonical form: locations strictly rising, each a location of the 32768-byte array (R38). An unlisted location
reads as "not known", which no entry equals. -/
def Memory.wf (m : Memory) : Bool :=
  decide ((m.map Prod.fst).Pairwise (· < ·)) && m.all (fun c => decide (c.1 < Config.devSize))

/-! ### Free values -/

/-- An unspecified byte: the environment's next choice, or a free value (R44 (a), U9). -/
def State.freeReply (s : State) : Byte × State :=
  match s.env.replies with
  | r :: rs => (r, { s with env := { s.env with replies := rs } })
  | [] => (Config.freeByte s.env.tick, { s with env := { s.env with tick := s.env.tick + 1 } })

/-- `N_WR` of the data write accepted now (R46). -/
def State.takeNWr (s : State) : Nat × State :=
  match s.env.nWr with
  | n :: ns => (n, { s with env := { s.env with nWr := ns } })
  | [] => (Config.freeBusy s.env.tick, { s with env := { s.env with tick := s.env.tick + 1 } })

/-- `N_SR` of the status write accepted now (R46). -/
def State.takeNSr (s : State) : Nat × State :=
  match s.env.nSr with
  | n :: ns => (n, { s with env := { s.env with nSr := ns } })
  | [] => (Config.freeBusy s.env.tick, { s with env := { s.env with tick := s.env.tick + 1 } })

/-- Whether the contract device accepts the write command that arrives now (R44 (c)). -/
def State.takeAccept (s : State) : Bool × State :=
  match s.env.accepts with
  | b :: bs => (b, { s with env := { s.env with accepts := bs } })
  | [] => (Config.freeAccept s.env.tick, { s with env := { s.env with tick := s.env.tick + 1 } })

/-! ### The status byte -/

/-- `SR = (hi6 << 2) | (wel << 1) | (1 if busy_left > 0 else 0)` (R45). -/
def statusByte (hi6 : BitVec 6) (w : Bool) (busyLeft : Nat) : Byte :=
  hi6 ++ BitVec.ofBool w ++ BitVec.ofBool (decide (0 < busyLeft))

/-- `SR` of the reference device (R45). -/
def Device.status (d : Device) : Byte := statusByte d.hi6 d.wel d.busyLeft

/-- The device after nothing more is known of it (U8): anything may follow. -/
def Device.lost (d : Device) : Device := { d with mode := .open, frame := [] }

/-- The device with its write cycle of `n` polls begun; a cycle of no polls is over at once and WEL with it (R47). -/
def Device.beginWrite (d : Device) (n : Nat) : Device :=
  { d with busyLeft := n, wel := if n = 0 then false else d.wel }

/-- The reference device after a status read: one poll less to wait for, and WEL cleared with the last (R47, R48). -/
def Device.polled (d : Device) : Device :=
  if 0 < d.busyLeft then
    { d with busyLeft := d.busyLeft - 1, wel := if d.busyLeft = 1 then false else d.wel }
  else d

/-! ### What the device does with a frame when chip-select rises (R47) -/

/-- Frame `[06]`: the latch is set unless a write is in progress. -/
def deviceWren (s : State) : State :=
  if s.dev.busyLeft = 0 then { s with dev := { s.dev with wel := true } } else s

/-- Frame `[04]`: the latch is cleared. -/
def deviceWrdi (s : State) : State := { s with dev := { s.dev with wel := false } }

/-- A status write can be accepted (R46, conflict C2). -/
def State.wrsrAble (s : State) : Bool :=
  decide (s.dev.busyLeft = 0 ∧ (s.dev.wel = true ∨ s.par.wrsrRequiresWel = false))

/-- A WRSR of `v` leaves WEL as it is, whether or not the device lets it write bit 1. Whether WRSR can change bits 1:0 is
not in the source (R144 (a), N26): a contract device of which this does not hold may do either, so nothing is known of it
afterwards. Bit 0 is WIP whatever was written (R44 (d); DESIGN CHOICE log 32). -/
def State.keepsWel (s : State) (v : Byte) : Bool := wel v == s.dev.wel

/-- A data write can be accepted. -/
def State.writeAble (s : State) : Bool := decide (s.dev.busyLeft = 0 ∧ s.dev.wel = true)

/-- Frame `[01, v]`: bits 7:2 are stored and a status write begins, if the device accepts it. Bits 1:0 of `v` are ignored,
as R47 says of the reference device; `State.keepsWel` says when that is known of the contract device (log 32). -/
def deviceWrsr (v : Byte) (s : State) : State :=
  if s.wrsrAble = true then
    { s.takeNSr.2 with dev := { s.dev with hi6 := v.extractLsb' 2 6 }.beginWrite s.takeNSr.1 }
  else s

/-- Frame `[02, ah, al, d]`: the location is written and a data write begins, if the device accepts it. -/
def deviceWrite (a : Half) (d : Byte) (s : State) : State :=
  if s.writeAble = true then
    { s.takeNWr.2 with dev := { s.dev with mem := s.dev.mem.write (s.location a) d }.beginWrite s.takeNWr.1 }
  else s

/-- Nothing more is known of the device (U8, N13). -/
def loseDevice (s : State) : State := { s with dev := s.dev.lost }

/-- A latch command (WREN, WRDI) at the device. The contract says nothing of one that arrives while a write is in progress
(N13, U10): after it nothing is known of the device. The reference device handles it itself (R47). -/
def latchCommand (act : State → State) (s : State) : State :=
  if s.dev.mode = .contract ∧ 0 < s.dev.busyLeft then loseDevice s else act s

/-- A write command (WRITE, WRSR) at the device, `able` saying that the contract covers it (`State.writeAble` and
`State.inArray`, `State.wrsrAble` and `State.keepsWel`). The contract says nothing of a device that is sent one it does not
accept (N13, U10), and it may refuse also one that it could accept (protection, R39); after either nothing is known of the
device (log 27). -/
def writeCommand (able : Bool) (act : State → State) (s : State) : State :=
  if s.dev.mode = .contract then
    if able = false ∨ s.takeAccept.1 = false then loseDevice s.takeAccept.2 else act s.takeAccept.2
  else act s

/-- The frame of the window that closes, acted on by a device whose behaviour is given; a frame the decoder rejects, and
READ and RDSR, whose reply was given inside the window, change nothing (R47). For the contract device two things here are
choices: no byte received is no command (log 33), and whether a write is in progress is asked now, as chip-select rises,
however the window began (log 27). -/
def deviceAct (s : State) : State :=
  match decodeFrame s.dev.frame with
  | .ok .wren => latchCommand deviceWren s
  | .ok .wrdi => latchCommand deviceWrdi s
  | .ok (.wrsr v) => writeCommand (s.wrsrAble && s.keepsWel v) (deviceWrsr v) s
  | .ok (.write a d) => writeCommand (s.writeAble && s.inArray a) (deviceWrite a d) s
  | _ => s

/-- The device with no byte received. -/
def clearFrame (s : State) : State := { s with dev := { s.dev with frame := [] } }

/-- Whether the device sees what the block drives: chip-select at `lvl`, hold and write-protect inactive, all three
pins at a given level (R20, U6). -/
def State.pinsSeen (s : State) (lvl : Level) : Bool :=
  decide (s.cs.pin = some lvl) && decide (s.hold.pin = some .high) && decide (s.wp.pin = some .high)

/-- Chip-select falls: a window opens, if the pins are what the block drives; otherwise nothing is known of what the
device sees (R172, log 9). -/
def deviceSelect (s : State) : State :=
  if s.dev.mode = .open then s
  else if s.pinsSeen .low then clearFrame s
  else loseDevice s

/-- Chip-select rises: the frame received is acted on and the window is closed (R47). -/
def deviceDeselect (s : State) : State :=
  if s.dev.mode = .open then s else clearFrame (deviceAct s)

/-- What the device sees of a line that is driven. -/
def deviceSees : LineId → Level → State → State
  | .cs, .low, s => deviceSelect s
  | .cs, .high, s => deviceDeselect s
  | .hold, _, s => s
  | .wp, _, s => s

/-- The device has received byte `b`. -/
def pushByte (b : Byte) (s : State) : State := { s with dev := { s.dev with frame := s.dev.frame ++ [b] } }

/-- The status byte the device reports: `SR` of the reference device, bits 7:2 of it free under the contract (U12). -/
def statusReply (s : State) : Byte × State :=
  if s.dev.mode = .contract then
    (statusByte (s.freeReply.1.extractLsb' 2 6) s.dev.wel s.dev.busyLeft, s.freeReply.2)
  else (s.dev.status, { s with dev := s.dev.polled })

/-- The byte the array holds at a wire address; a location no write has reached holds a free byte (log 17). -/
def State.content (s : State) (a : Half) : Byte :=
  match s.dev.mem.read (s.location a) with
  | some b => b
  | none => Config.freeContent (s.location a)

/-- The device's reply while byte `b` is shifted out to it, and the state after (R47): the status byte completes an RDSR
frame, the data byte a READ frame of a device that is not busy, at an address it is known to have (log 31); every other
reply is unspecified (U9). Whether it is busy is asked at this transfer, as R47's listing does; that the contract device
answers so too, also where a write that was in progress when the window began has completed since, is the choice of
log 27. -/
def deviceReply (b : Byte) (s : State) : Byte × State :=
  if s.dev.mode = .open then s.freeReply
  else
    match decodeFrame (s.dev.frame ++ [b]) with
    | .ok (.rdsr _) => statusReply (pushByte b s)
    | .ok (.read a _) =>
      if s.dev.busyLeft = 0 ∧ s.inArray a = true then (s.content a, pushByte b s) else (pushByte b s).freeReply
    | _ => (pushByte b s).freeReply

/-- The device completes its write cycle by itself, under the contract (R44 (c), (d), (e)): WIP and WEL clear. -/
def deviceComplete (s : State) : State :=
  if s.dev.mode = .contract ∧ 0 < s.dev.busyLeft then
    { s with dev := { s.dev with busyLeft := 0, wel := false } }
  else s

end Sys2Proof.Machine
end

