-- ==== Sys2Proof/Machine/Ops.lean ====
section
/-! DEFINITION. The named operations the meanings are written over: latch and line updates, events, the three primitive
actions (R70 to R72), taking BusFault (R151), reset as the only way back from it (R158, R170), `Start` (R62), `Done`
(R150), the rows of the transaction phase table (R75) and a whole window as a run of them. -/

namespace Sys2Proof.Machine

open Sys2Proof

/-! ### Updates -/

/-- Appends an event to the trace (R7). -/
def State.emit (e : Event) (s : State) : State := { s with trace := s.trace ++ [e] }

/-- `q <- q'`. -/
def State.toQ (q' : SeqState) (s : State) : State := { s with q := q' }

/-- `ph <- p`. -/
def State.toPh (p : Phase) (s : State) : State := { s with ph := p }

/-- One line's latches. -/
def State.line (s : State) : LineId → Line
  | .cs => s.cs
  | .hold => s.hold
  | .wp => s.wp

/-- `L.oe <- 1`, the level unchanged (R20). -/
def Line.enable (l : Line) : Line := { l with oe := true }

/-- `L.lvl <- lvl`, the output enable unchanged (R20). -/
def Line.drive (lvl : Level) (l : Line) : Line := { l with lvl := lvl, driven := true }

/-- One line changed, the others kept. -/
def State.mapLine (f : Line → Line) (s : State) : LineId → State
  | .cs => { s with cs := f s.cs }
  | .hold => { s with hold := f s.hold }
  | .wp => { s with wp := f s.wp }

/-! ### The exception: BusFault, and the way back -/

/-- Taking BusFault (R151, R157): `q <- Q_FAULTED`, `err = 2`, the event `Fault(BusFault)`; every other latch and every
line keeps its value, so chip-select stays LOW if the window was open (R184), and then nothing more is known of the
device (U8). -/
def takeBusFault (s : State) : State :=
  { s with
    q := .faulted
    err := busFaultCode
    dev := if s.ph.inWindow then s.dev.lost else s.dev
    trace := s.trace ++ [.busFault] }

/-- The reset input asserted (R170): every latch of the block at its value after reset (R26, log 8), no event, the device
untouched, but unknown from then on if a window was open (R171, U8). The only way out of `Q_FAULTED` (R158). -/
def resetBlock (s : State) : State :=
  { s with
    A := State.reset.A
    V := State.reset.V
    RX := State.reset.RX
    HI := State.reset.HI
    R := State.reset.R
    np := State.reset.np
    q := State.reset.q
    op := State.reset.op
    bi := State.reset.bi
    ph := State.reset.ph
    err := State.reset.err
    cs := State.reset.cs
    hold := State.reset.hold
    wp := State.reset.wp
    dev := if s.ph.inWindow then s.dev.lost else s.dev }

/-! ### The primitive actions -/

/-- The environment raises BusFault on the coming primitive (R151). -/
def State.faultDue (s : State) : Bool :=
  match s.env.faults with
  | b :: _ => b
  | [] => false

/-- The environment's choice for one primitive is used up. -/
def State.popFault (s : State) : State := { s with env := { s.env with faults := s.env.faults.tail } }

/-- A primitive action: its whole effect, or none of it and BusFault (R151). -/
def primitive (act : State → State) (s : State) : State :=
  if s.faultDue then takeBusFault s.popFault else act s.popFault

/-- `cfg_out(L)` and the move `k` made in the same step (R70). The device is as it was: what the pin's unspecified level
between this and the first `set` of INIT does to a contract device (R104, R179) is the choice of log 33. -/
def cfgOut (l : LineId) (k : State → State) : State → State :=
  primitive fun s => k ((s.mapLine Line.enable l).emit (.cfg l))

/-- `set(L, lvl)` and the move `k` made in the same step (R71). -/
def setLevel (l : LineId) (lvl : Level) (k : State → State) : State → State :=
  primitive fun s => k ((deviceSees l lvl (s.mapLine (Line.drive lvl) l)).emit (.set l lvl))

/-- `xfer(b)` and the move `k` made in the same step with the byte received (R72). -/
def xfer (b : Byte) (k : Byte → State → State) : State → State :=
  primitive fun s => k (deviceReply b s).1 ((deviceReply b s).2.emit (.xfer b (deviceReply b s).1))

/-- A byte received outside the data position is written to no latch (R74); the phase moves on. -/
def discard (p : Phase) : Byte → State → State := fun _ s => s.toPh p

/-- The byte received in the data position of RDSR and READ is latched (R13); the phase moves on. -/
def latchRx (p : Phase) : Byte → State → State := fun r s => { s with RX := r, ph := p }

/-! ### Start and Done -/

/-- The first sequencer state of an operation (R62). -/
def HostOp.firstState : HostOp → SeqState
  | .init => .initCfgCs
  | .readWord | .readByte => .rdRead
  | .writeWord | .writeByte => .wbWren
  | .readStatus => .rsRdsr
  | .writeStatus => .wsWrsr

/-- The state after an accepted `Start(op, a, v)` (R62). -/
def State.started (o : HostOp) (a v : Half) (s : State) : State :=
  { s with A := a, V := v, bi := 0, op := o, q := o.firstState, trace := s.trace ++ [.start o a v] }

/-- `Start(op, a, v)`: accepted while `q = Q_IDLE` (R62), refused otherwise (R156). -/
def start (o : HostOp) (a v : Half) (s : State) : Host.Outcome State Fault Refusal :=
  if s.q = .idle then .next (s.started o a v) else .refused .startWhileBusy

/-- `Done(op, res)`: the block is idle, `err` is the result's code (R150). -/
def finish (res : Result) (s : State) : State :=
  { s with q := .idle, err := res.code, trace := s.trace ++ [.done s.op res] }

/-! ### The transaction phase machine -/

/-- One row of R75's table, for transaction `t` in the phase of the state. -/
def phaseRow (t : Txn) (s : State) : Host.Outcome State Fault Refusal :=
  match s.ph with
  | .idle => .next (setLevel .cs .low (·.toPh .selected) s)
  | .selected => .next (xfer t.kind.opcode (discard .opcodeSent) s)
  | .opcodeSent =>
    match t.kind with
    | .wren | .wrdi => .next (setLevel .cs .high (·.toPh .deselected) s)
    | .read | .write => .next (xfer (hiByte t.addr) (discard .addrHiSent) s)
    | .rdsr => .next (xfer t.data (latchRx .dataDone) s)
    | .wrsr => .next (xfer t.data (discard .dataDone) s)
  | .addrHiSent =>
    match t.kind with
    | .read | .write => .next (xfer (loByte t.addr) (discard .addrSent) s)
    | .wren | .wrdi | .rdsr | .wrsr => .fault .phaseNotInTable
  | .addrSent =>
    match t.kind with
    | .read => .next (xfer t.data (latchRx .dataDone) s)
    | .write => .next (xfer t.data (discard .dataDone) s)
    | .wren | .wrdi | .rdsr | .wrsr => .fault .phaseNotInTable
  | .dataDone =>
    match t.kind with
    | .rdsr | .wrsr | .read | .write => .next (setLevel .cs .high (·.toPh .deselected) s)
    | .wren | .wrdi => .fault .phaseNotInTable
  | .deselected => .next (s.toPh .idle)

/-- `n` rows of the table one after another; a BusFault ends them (R151). -/
def runRows (t : Txn) : Nat → State → Host.Outcome State Fault Refusal
  | 0, s => .next s
  | n + 1, s =>
    if s.q = .faulted then .next s
    else
      match phaseRow t s with
      | .next s' => runRows t n s'
      | .fault r => .fault r
      | .refused r => .refused r

/-- `txn(tk, ta, td)`: one whole chip-select window (R73, R75). A transaction begins only when the one before it has
reached `IDLE` (R40) and no fault has been raised (R18). -/
def window (t : Txn) (s : State) : Host.Outcome State Fault Refusal :=
  if s.ph = .idle ∧ s.q ≠ .faulted then runRows t t.kind.steps s else .refused .startWhileBusy

end Sys2Proof.Machine
end

