-- ==== Sys2Proof/Machine/Init.lean ====
section
/-! DEFINITION. INIT (41_init.md): its start, its six line actions in the order of R101, and its completion move. -/

namespace Sys2Proof.Machine

open Sys2Proof

/-- INIT, the step of `Start` (R62, R100). The six line actions are `initLineStep`, the WRSR window is owned by
`Q_INIT_WRSR` (R78), and the end is `completeInit`. -/
def execInit (addr wdata : Half) (s : State) : Host.Outcome State Fault Refusal := start .init addr wdata s

/-- The line action of a `Q_INIT_CFG_*` or `Q_INIT_SET_*` state and its move (R100); no other state has one. -/
def initLineStep (s : State) : State :=
  match s.q with
  | .initCfgCs => cfgOut .cs (·.toQ .initCfgHold) s
  | .initCfgHold => cfgOut .hold (·.toQ .initCfgWp) s
  | .initCfgWp => cfgOut .wp (·.toQ .initSetCs) s
  | .initSetCs => setLevel .cs .high (·.toQ .initSetHold) s
  | .initSetHold => setLevel .hold .high (·.toQ .initSetWp) s
  | .initSetWp => setLevel .wp .high (·.toQ .initWrsr) s
  | .idle | .initWrsr | .rdRead | .wbWren | .wbWrite | .wbPoll | .rsRdsr | .wsWrsr | .faulted => s

/-- Completion move of `Q_INIT_WRSR` (R100): `q <- Q_IDLE; emit Done(INIT, Ok)`; `R` is not written. -/
def completeInit (s : State) : State := finish .ok s

end Sys2Proof.Machine
end

