-- ==== Sys2Proof/Machine/Read.lean ====
section
/-! DEFINITION. READ_BYTE and READ_WORD (42_read.md): their starts and the completion move of `Q_RD_READ`. -/

namespace Sys2Proof.Machine

open Sys2Proof

/-- READ_WORD, the step of `Start` (R62, R111). The two READ windows are owned by `Q_RD_READ` (R78); `completeRead` makes
the moves between and after them. -/
def execReadWord (addr wdata : Half) (s : State) : Host.Outcome State Fault Refusal := start .readWord addr wdata s

/-- READ_BYTE, the step of `Start` (R62, R110). The READ window is owned by `Q_RD_READ` (R78); `completeRead` ends it. -/
def execReadByte (addr wdata : Half) (s : State) : Host.Outcome State Fault Refusal := start .readByte addr wdata s

/-- `R <- v; q <- Q_IDLE; emit Done(op, Ok(R))` (R15, R110, R111, R140). -/
def finishValue (v : Half) (s : State) : State := finish (.okValue v) { s with R := v }

/-- Completion move of `Q_RD_READ` (R110, R111), `ph` being `IDLE` again. -/
def completeRead (s : State) : Host.Outcome State Fault Refusal :=
  match s.op with
  | .readWord =>
    if s.bi = 0 then .next { s with HI := s.RX, bi := 1 }
    else .next (finishValue (joinBytes s.HI s.RX) s)
  | .readByte => .next (finishValue (zext16 s.RX) s)
  | .init | .writeWord | .readStatus | .writeStatus | .writeByte => .fault .sequencerNotInTable

end Sys2Proof.Machine
end

