-- ==== Sys2Proof/Machine/Status.lean ====
section
/-! DEFINITION. READ_STATUS and WRITE_STATUS (44_status.md), and the reserved operation code 7 (R63). -/

namespace Sys2Proof.Machine

open Sys2Proof

/-- READ_STATUS, the step of `Start` (R62, R140). The RDSR window is owned by `Q_RS_RDSR` (R78). -/
def execReadStatus (addr wdata : Half) (s : State) : Host.Outcome State Fault Refusal := start .readStatus addr wdata s

/-- WRITE_STATUS, the step of `Start` (R62, R142). The WRSR window is owned by `Q_WS_WRSR` (R78). -/
def execWriteStatus (addr wdata : Half) (s : State) : Host.Outcome State Fault Refusal := start .writeStatus addr wdata s

/-- Completion move of `Q_RS_RDSR` (R140): `R <- zext_16(RX); q <- Q_IDLE; emit Done(READ_STATUS, Ok(R))`. -/
def completeReadStatus (s : State) : State := finishValue (zext16 s.RX) s

/-- Completion move of `Q_WS_WRSR` (R142): `q <- Q_IDLE; emit Done(WRITE_STATUS, Ok)`; no poll follows (R143). -/
def completeWriteStatus (s : State) : State := finish .ok s

/-- RESERVED_OP7 (R63): "The block gives it no meaning; a model refuses a `Start` with `op = 7` (no step)". -/
def execReservedOp7 (_addr _wdata : Half) (_s : State) : Host.Outcome State Fault Refusal := .refused .reservedHostOp

end Sys2Proof.Machine
end

