-- ==== Sys2Proof/Machine/Wire.lean ====
section
/-! DEFINITION. The six wire frames (40_transactions.md): each is one whole chip-select window. The block runs the same
rows of R75 one step at a time (`blockStep`). -/

namespace Sys2Proof.Machine

open Sys2Proof

/-- WREN (R80): `set(CS, LOW); xfer(0x06); set(CS, HIGH)`. -/
def execWren (s : State) : Host.Outcome State Fault Refusal := window .wren s

/-- WRDI (R81): `set(CS, LOW); xfer(0x04); set(CS, HIGH)`; no sequencer state owns one. -/
def execWrdi (s : State) : Host.Outcome State Fault Refusal := window .wrdi s

/-- RDSR (R82): `set(CS, LOW); xfer(0x05); RX <- xfer(DUMMY); set(CS, HIGH)`, the dummy byte being the frame's. -/
def execRdsr (dummy : Byte) (s : State) : Host.Outcome State Fault Refusal := window (.rdsr dummy) s

/-- WRSR (R83): `set(CS, LOW); xfer(0x01); xfer(td); set(CS, HIGH)`. -/
def execWrsr (status : Byte) (s : State) : Host.Outcome State Fault Refusal := window (.wrsr status) s

/-- READ (R84): `set(CS, LOW); xfer(0x03); xfer(ta[15:8]); xfer(ta[7:0]); RX <- xfer(DUMMY); set(CS, HIGH)`. -/
def execRead (addr : Half) (dummy : Byte) (s : State) : Host.Outcome State Fault Refusal :=
  window (.read addr dummy) s

/-- WRITE (R85): `set(CS, LOW); xfer(0x02); xfer(ta[15:8]); xfer(ta[7:0]); xfer(td); set(CS, HIGH)`. -/
def execWrite (addr : Half) (data : Byte) (s : State) : Host.Outcome State Fault Refusal :=
  window (.write addr data) s

end Sys2Proof.Machine
end

