-- ==== Sys2Proof/Machine/Write.lean ====
section
/-! DEFINITION. WRITE_WORD and WRITE_BYTE (43_write.md): their starts, the write-enable logic (R123) and the
status-polling FSM (R124, R125). -/

namespace Sys2Proof.Machine

open Sys2Proof

/-- WRITE_WORD, the step of `Start` (R62, R120). The WREN, WRITE and RDSR windows are owned by `Q_WB_WREN`, `Q_WB_WRITE`
and `Q_WB_POLL` (R78), run once with `bi = 0` and once with `bi = 1`. -/
def execWriteWord (addr wdata : Half) (s : State) : Host.Outcome State Fault Refusal := start .writeWord addr wdata s

/-- WRITE_BYTE, the step of `Start` (R62, R122). -/
def execWriteByte (addr wdata : Half) (s : State) : Host.Outcome State Fault Refusal := start .writeByte addr wdata s

/-- Completion move of `Q_WB_WREN` (R122, R123): the WRITE window follows with nothing in between. -/
def completeWren (s : State) : State := s.toQ .wbWrite

/-- Completion move of `Q_WB_WRITE` (R122): `np <- 0; q <- Q_WB_POLL`. -/
def completeWrite (s : State) : State := { s with np := 0, q := .wbPoll }

/-- `POLL_LIMIT = some(L)` and `n >= L` (R124). -/
def pollLimitReached (limit : Option Nat) (n : Nat) : Bool :=
  match limit with
  | some l => decide (l ≤ n)
  | none => false

/-- Completion move of `Q_WB_POLL` (R124): the first matching row of its table, `np` being one more. -/
def completePoll (s : State) : State :=
  let s' := { s with np := s.np + 1 }
  if wip s.RX = false then
    if s.op = .writeWord ∧ s.bi = 0 then { s' with bi := 1, q := .wbWren }
    else finish .ok s'
  else if pollLimitReached s.par.pollLimit (s.np + 1) then finish .errDeviceTimeout s'
  else s'

end Sys2Proof.Machine
end

