-- ==== Sys2Proof/Machine/Dispatch.lean ====
section
/-! DEFINITION. One arm for each row of the opcode table. -/

namespace Sys2Proof.Machine

open Sys2Proof

def exec (i : Instr) (s : State) : Host.Outcome State Fault Refusal :=
  match i with
  -- wire frames
  | .wren => Sys2Proof.Machine.execWren s
  | .wrdi => Sys2Proof.Machine.execWrdi s
  | .rdsr dummy => Sys2Proof.Machine.execRdsr dummy s
  | .wrsr status => Sys2Proof.Machine.execWrsr status s
  | .read addr dummy => Sys2Proof.Machine.execRead addr dummy s
  | .write addr data => Sys2Proof.Machine.execWrite addr data s
  -- host operations
  | .init addr wdata => Sys2Proof.Machine.execInit addr wdata s
  | .readWord addr wdata => Sys2Proof.Machine.execReadWord addr wdata s
  | .writeWord addr wdata => Sys2Proof.Machine.execWriteWord addr wdata s
  | .readStatus addr wdata => Sys2Proof.Machine.execReadStatus addr wdata s
  | .writeStatus addr wdata => Sys2Proof.Machine.execWriteStatus addr wdata s
  | .writeByte addr wdata => Sys2Proof.Machine.execWriteByte addr wdata s
  | .readByte addr wdata => Sys2Proof.Machine.execReadByte addr wdata s
  | .reservedOp7 addr wdata => Sys2Proof.Machine.execReservedOp7 addr wdata s

end Sys2Proof.Machine
end

