-- ==== Sys2Proof/Machine/Sequencer.lean ====
section
/-! DEFINITION. How the block advances (10_state.md, "How the sequencer advances"), and what a step takes up: a move of
the outside world, a host command word, a bench frame, or the block's own step. -/

namespace Sys2Proof.Machine

open Sys2Proof

/-- The completion move of the owning sequencer state, `ph` being `IDLE` again (R79). -/
def complete (s : State) : Host.Outcome State Fault Refusal :=
  match s.q with
  | .initWrsr => .next (completeInit s)
  | .rdRead => completeRead s
  | .wbWren => .next (completeWren s)
  | .wbWrite => .next (completeWrite s)
  | .wbPoll => .next (completePoll s)
  | .rsRdsr => .next (completeReadStatus s)
  | .wsWrsr => .next (completeWriteStatus s)
  | .idle | .initCfgCs | .initCfgHold | .initCfgWp | .initSetCs | .initSetHold | .initSetWp | .faulted => .next s

/-- One step of the block. While `q` owns a transaction: one row of R75's table, and in `DESELECTED` the completion move
in the same step (R79). Otherwise the line action of INIT, or nothing: in `Q_IDLE` the block waits for `Start` (R170), in
`Q_FAULTED` it performs no action (R18). -/
def blockStep (s : State) : Host.Outcome State Fault Refusal :=
  match s.owned with
  | some t => if s.ph = .deselected then complete (s.toPh .idle) else phaseRow t s
  | none => .next (initLineStep s)

/-- What a step takes up. -/
inductive Pick where
  /-- This code is decoded and run, in this state. -/
  | run (c : Code) (s : State)
  /-- The reset input is asserted, in this state. -/
  | reset (s : State)
  /-- The device completes its write cycle, in this state. -/
  | device (s : State)
  /-- The block takes its step, in this state. -/
  | block (s : State)
  deriving DecidableEq, Repr

/-- What the head of the moves makes the coming step take up; a `call` that waits lets the block step. -/
def State.pickMove (s : State) : Pick :=
  match s.moves with
  | .reset :: ms => .reset { s with moves := ms }
  | .deviceDone :: ms => .device { s with moves := ms }
  | .pass :: ms => .block { s with moves := ms }
  | .force w :: ms => .run (.hop w) { s with moves := ms }
  | .call w :: ms => if s.q = .idle then .run (.hop w) { s with moves := ms } else .block s
  | [] => .block s

/-- What the coming step takes up, and the state without it. A bench frame comes before the moves and, like a `call`,
waits for the block to be idle (log 2). -/
def State.pick (s : State) : Pick :=
  match s.bench with
  | f :: fs => if s.q = .idle then .run (.frame f) { s with bench := fs } else s.pickMove
  | [] => s.pickMove

/-- The state with this code placed where the next step takes it up, and the block idle so that it does: a frame at the
head of the bench, a command word at the head of the moves. -/
def State.withCode (s : State) : Code → State
  | .frame bytes => { s with q := .idle, ph := .idle, bench := bytes :: s.bench }
  | .hop w => { s with q := .idle, ph := .idle, bench := [], moves := .call w :: s.moves }

end Sys2Proof.Machine
end

