-- ==== Sys2Proof/Machine/Fetch.lean ====
section
/-! DEFINITION. Running a code that a step has taken up. -/

namespace Sys2Proof.Machine

open Sys2Proof

/-- The code is decoded and its instruction run; a frame that is none of the protocol is refused by name (R58). -/
def runCode (c : Code) (s : State) : Host.Outcome State Fault Refusal :=
  match decode c with
  | .ok i => exec i s
  | .error _ => .refused .notAFrame

end Sys2Proof.Machine
end

