-- ==== Sys2Proof/Machine/Step.lean ====
section
/-! DEFINITION. One step of the machine (R6), and how a word of the opcode table is placed for it. -/

namespace Sys2Proof.Machine

open Sys2Proof

/-- One step: what `State.pick` takes up is done. -/
def step (s : State) : Host.Outcome State Fault Refusal :=
  match s.pick with
  | .run c s' => runCode c s'
  | .reset s' => .next (resetBlock s')
  | .device s' => .next (deviceComplete s')
  | .block s' => blockStep s'

/-- The state whose next step runs the instruction whose bits are `w` as spec/opcode_table.json numbers them (log 3);
the state itself where they are no code of the table's widths. -/
def State.withFetchWord (s : State) (nbits w : Nat) : State :=
  match tableCode nbits w with
  | some c => s.withCode c
  | none => s

end Sys2Proof.Machine
end

