-- ==== Sys2Proof/Machine/Ports.lean ====
section
/-! DEFINITION. The informative binding of R25: what the ports carry in one step of the hardware (bench empty), from the
state before and the state after. No rule and no step depends on it. -/

namespace Sys2Proof.Machine

open Sys2Proof

/-- A level as a port carries it: HIGH = 1 (R25). -/
def Level.bit : Level → BitVec 1
  | .low => 0
  | .high => 1

/-- The ports of R25 in one step. Each value says when it means something: `hCmd` with `hStart`, `hRdata` with a `hDone` of
an operation that returns a value, `hErr` with `hDone` or while faulted, `bTx` with `bReq`, `bRx` with `bAck`, a level as
`Line.pin` says. -/
structure Ports where
  /-- `rst`, in. -/
  rst : Bool
  /-- `h_start`, in: a `Start` that is taken up. -/
  hStart : Bool
  /-- `h_cmd`, in. -/
  hCmd : HostWord
  /-- `h_busy`, out, after the step. -/
  hBusy : Bool
  /-- `h_done`, out: one pulse per operation, in the step that emits `Done`. -/
  hDone : Bool
  /-- `h_err`, out. -/
  hErr : BitVec 2
  /-- `h_rdata`, out. -/
  hRdata : Half
  /-- `b_req`, out: the step asks for a transfer. -/
  bReq : Bool
  /-- `b_tx`, out. -/
  bTx : Byte
  /-- `b_ack`, in: the transfer finished. -/
  bAck : Bool
  /-- `b_rx`, in. -/
  bRx : Byte
  /-- `b_err`, in: the transport or the pin layer raised a fault. -/
  bErr : Bool
  csN : BitVec 1
  csOe : Bool
  holdN : BitVec 1
  holdOe : Bool
  wpN : BitVec 1
  wpOe : Bool
  deriving DecidableEq, Repr

/-- The event a step of the hardware emitted, if it emitted one: the trace grew by it. -/
def stepEvent (s t : State) : Option Event := (t.trace.drop s.trace.length).head?

/-- The byte a transaction transfers in a phase, if its row is a transfer (R75). -/
def Txn.transfer (t : Txn) : Phase → Option Byte
  | .selected => some t.kind.opcode
  | .opcodeSent =>
    match t.kind with
    | .read | .write => some (hiByte t.addr)
    | .rdsr | .wrsr => some t.data
    | .wren | .wrdi => none
  | .addrHiSent =>
    match t.kind with
    | .read | .write => some (loByte t.addr)
    | .wren | .wrdi | .rdsr | .wrsr => none
  | .addrSent =>
    match t.kind with
    | .read | .write => some t.data
    | .wren | .wrdi | .rdsr | .wrsr => none
  | .idle | .dataDone | .deselected => none

/-- The transfer that the coming step asks for, if it is the block's step and that is a transfer. -/
def State.request (s : State) : Option Byte :=
  match s.pick with
  | .block u => u.owned.bind (·.transfer u.ph)
  | .run _ _ | .reset _ | .device _ => none

/-- The command word that the coming step takes up, if it takes one up. -/
def State.command (s : State) : Option HostWord :=
  match s.pick with
  | .run (.hop w) _ => some w
  | .run (.frame _) _ | .reset _ | .device _ | .block _ => none

/-- The coming step is a reset. -/
def State.resetDue (s : State) : Bool :=
  match s.pick with
  | .reset _ => true
  | .run _ _ | .device _ | .block _ => false

/-- The byte an event says was received. -/
def Event.received : Event → Option Byte
  | .xfer _ rx => some rx
  | .start _ _ _ | .cfg _ | .set _ _ | .done _ _ | .busFault => none

/-- The event is a `Done`. -/
def Event.isDone : Event → Bool
  | .done _ _ => true
  | .start _ _ _ | .cfg _ | .set _ _ | .xfer _ _ | .busFault => false

/-- The ports of R25 in the step from `s` to `t`. -/
def ports (s t : State) : Ports where
  rst := s.resetDue
  hStart := s.command.isSome
  hCmd := s.command.getD 0
  hBusy := t.busy
  hDone := (stepEvent s t).any Event.isDone
  hErr := t.err
  hRdata := t.R
  bReq := s.request.isSome
  bTx := s.request.getD 0
  bAck := ((stepEvent s t).bind Event.received).isSome
  bRx := ((stepEvent s t).bind Event.received).getD 0
  bErr := stepEvent s t == some .busFault
  csN := t.cs.lvl.bit
  csOe := t.cs.oe
  holdN := t.hold.lvl.bit
  holdOe := t.hold.oe
  wpN := t.wp.lvl.bit
  wpOe := t.wp.oe

end Sys2Proof.Machine
end

