-- ==== Sys2Proof/WellFormed.lean ====
section
/-! DEFINITION. Which instructions and parameters are well formed. Operand widths are in the types; what is left to
check is the reserved operation code (R63) and the ranges of the open parameters (R5, R46). -/

namespace Sys2Proof

/-- An instruction the spec gives a meaning: every row but the reserved operation code 7 (R63). -/
def Instr.wellFormed : Instr → Bool
  | .reservedOp7 _ _ => false
  | _ => true

/-- An instruction of the host set, asked for through the command word (R60). -/
def Instr.isHost : Instr → Bool
  | .wren | .wrdi | .rdsr _ | .wrsr _ | .read _ _ | .write _ _ => false
  | _ => true

/-- A wire frame the block itself can send (R58: WRDI is defined and never issued). -/
def Instr.issuedByBlock : Instr → Bool
  | .wren | .rdsr _ | .wrsr _ | .read _ _ | .write _ _ => true
  | _ => false

/-- A wire frame whose last byte received is kept, in `RX` (R13). -/
def Instr.receives : Instr → Bool
  | .rdsr _ | .read _ _ => true
  | _ => false

/-- The legal parameter values: `POLL_LIMIT` is none or positive (R5), and every masked address is a location of the
32768-byte array (R38, R46). -/
def Config.Params.wellFormed (p : Config.Params) : Bool :=
  p.pollLimit != some 0 && decide (p.devAddrMask.toNat < Config.devSize)

end Sys2Proof
end

