-- ==== Sys2Proof/Safety.lean ====
section
/-! DEFINITION. The terms claims are written in: runs, the premises a host and an environment can meet, the events of a
chip-select window, and the invariants of the sequencer, the lines, the trace, the array and the device. -/

namespace Sys2Proof.Machine

open Sys2Proof

/-! ### Runs and premises -/

/-- `n` steps of the machine. -/
def runFor (n : Nat) (s : State) : Host.Outcome State Fault Refusal := Host.Core.run Sys2Proof.core n s

/-- The environment raises no BusFault on any scheduled primitive ("no fault was raised", U3). -/
def Quiet (s : State) : Prop := ∀ b ∈ s.env.faults, b = false

/-- Nothing but the block moves: no host move, no reset, no step of the device, no bench frame. -/
def Alone (s : State) : Prop := s.moves = [] ∧ s.bench = []

/-- Nothing is asked of the block now but that it goes on: the host holds its next word back until the block is idle (R65),
or has none. -/
def Waits (s : State) : Prop := s.bench = [] ∧ ∀ m ms, s.moves = m :: ms → ∃ w, m = .call w

/-- The coming step of a block that is not idle is its own: no reset, no step of the device, no word presented over it. -/
def BlockTurn (s : State) : Prop := ∀ m ms, s.moves = m :: ms → m = .pass ∨ ∃ w, m = .call w

/-- The coming step is not a reset. -/
def NoResetNow (s : State) : Prop := s.moves.head? ≠ some .reset

/-- The block is between operations, ready for a `Start`. -/
def Idle (s : State) : Prop := s.q = .idle ∧ s.ph = .idle

/-- The only thing the outside world does is to start these command words, one after another (R65). -/
def Calls (s : State) (ws : List HostWord) : Prop := s.moves = ws.map .call ∧ s.bench = []

/-! ### Windows on the trace -/

/-- The transfers of a frame: byte `tx` sent, byte `rx` received, in order (R50). -/
def xferEvents (tx rx : List Byte) : List Event := List.zipWith Event.xfer tx rx

/-- The events of one chip-select window that sends `tx` and receives `rx` (R73). -/
def windowEvents (tx rx : List Byte) : List Event :=
  .set .cs .low :: (xferEvents tx rx ++ [.set .cs .high])

/-- The ten events of INIT between its `Start` and its `Done` (R100), the status write receiving `r1`, `r2`. -/
def initEvents (r1 r2 : Byte) : List Event :=
  [.cfg .cs, .cfg .hold, .cfg .wp, .set .cs .high, .set .hold .high, .set .wp .high] ++
    windowEvents [Config.opWRSR, Config.initStatus] [r1, r2]

/-- The windows of a poll whose status reads return these bytes (junk byte received with the opcode, status byte). -/
def pollEvents (dummy : Byte) : List (Byte × Byte) → List Event
  | [] => []
  | (j, st) :: rest => windowEvents [Config.opRDSR, dummy] [j, st] ++ pollEvents dummy rest

/-- The bytes an open device returns to such a poll, in order. -/
def pollReplies : List (Byte × Byte) → List Byte
  | [] => []
  | (j, st) :: rest => j :: st :: pollReplies rest

/-- The instruction whose frame is this transaction. -/
def Txn.instr (t : Txn) : Instr :=
  match t.kind with
  | .wren => .wren
  | .wrdi => .wrdi
  | .rdsr => .rdsr t.data
  | .wrsr => .wrsr t.data
  | .read => .read t.addr t.data
  | .write => .write t.addr t.data

/-! ### What a window leaves unchanged -/

/-- Every latch of the block but `RX` and the lines' chip-select level, and everything of the outside world but the
environment's choices and the device, is the same. -/
def SameButWindow (s t : State) : Prop :=
  t.par = s.par ∧ t.A = s.A ∧ t.V = s.V ∧ t.HI = s.HI ∧ t.R = s.R ∧ t.np = s.np ∧ t.q = s.q ∧ t.op = s.op ∧
    t.bi = s.bi ∧ t.ph = s.ph ∧ t.err = s.err ∧ t.cs.oe = s.cs.oe ∧ t.hold = s.hold ∧ t.wp = s.wp ∧
    t.moves = s.moves ∧ t.bench = s.bench

/-- Every data latch of the block, the result code and the lines are the same. -/
def SameLatches (s t : State) : Prop :=
  t.A = s.A ∧ t.V = s.V ∧ t.RX = s.RX ∧ t.HI = s.HI ∧ t.R = s.R ∧ t.np = s.np ∧ t.op = s.op ∧ t.bi = s.bi ∧
    t.ph = s.ph ∧ t.cs = s.cs ∧ t.hold = s.hold ∧ t.wp = s.wp

/-- What a whole operation asked for by the word `w` leaves, besides its result: both operand latches loaded from the
word (R62), chip-select HIGH again with its enable as it was, the other lines and the parameters untouched, and the words
`ws` after it still to come. -/
def OpFrame (s : State) (w : HostWord) (ws : List HostWord) (t : State) : Prop :=
  t.par = s.par ∧ t.A = hopAddr w ∧ t.V = hopData w ∧ t.cs.oe = s.cs.oe ∧ t.cs.lvl = .high ∧ t.hold = s.hold ∧
    t.wp = s.wp ∧ Calls t ws

/-- What a frame `tx` run as an instruction from `s` leaves when BusFault is raised on its primitive number `k`, counted
from 0 at chip-select LOW (R151): the events of the `k` primitives before it and the fault, and no latch written but by
those primitives. -/
def CutFrame (s : State) (keeps : Bool) (tx : List Byte) (k : Nat) (u : State) : Prop :=
  u.q = .faulted ∧ u.err = 2 ∧ u.par = s.par ∧ u.A = s.A ∧ u.V = s.V ∧ u.HI = s.HI ∧ u.R = s.R ∧ u.np = s.np ∧
    u.op = s.op ∧ u.bi = s.bi ∧ u.hold = s.hold ∧ u.wp = s.wp ∧ u.moves = s.moves ∧ u.bench = s.bench ∧
    u.cs = (if k = 0 then s.cs else Line.drive .low s.cs) ∧ u.ph.inWindow = decide (0 < k) ∧
    ∃ rx, rx.length = tx.length ∧ u.trace = s.trace ++ (windowEvents tx rx).take k ++ [.busFault] ∧
      if keeps = true ∧ k = tx.length + 1 then rx.getLast? = some u.RX else u.RX = s.RX

/-! ### The sequencer invariant -/

/-- The (phase, kind) pairs of R75's table. -/
def TxnKind.allows : TxnKind → Phase → Bool
  | .wren, .addrHiSent | .wren, .addrSent | .wren, .dataDone => false
  | .wrdi, .addrHiSent | .wrdi, .addrSent | .wrdi, .dataDone => false
  | .rdsr, .addrHiSent | .rdsr, .addrSent => false
  | .wrsr, .addrHiSent | .wrsr, .addrSent => false
  | _, _ => true

/-- The operations a sequencer state belongs to (R17). -/
def SeqState.allows : SeqState → HostOp → Bool
  | .idle, _ | .faulted, _ => true
  | .initCfgCs, o | .initCfgHold, o | .initCfgWp, o | .initSetCs, o | .initSetHold, o | .initSetWp, o | .initWrsr, o =>
    o == .init
  | .rdRead, o => o == .readWord || o == .readByte
  | .wbWren, o | .wbWrite, o | .wbPoll, o => o == .writeWord || o == .writeByte
  | .rsRdsr, o => o == .readStatus
  | .wsWrsr, o => o == .writeStatus

/-- The phase is one the owned transaction can be in; without one it is `IDLE` (R17, R75). -/
def State.phaseOk (s : State) : Bool :=
  match s.owned with
  | some t => t.kind.allows s.ph
  | none => s.ph == .idle

/-- The sequencer invariant: phase and kind match (R75, while no fault has been raised), `q` and `op` match (R17),
`bi = 1` only in a word operation (R17), and result code 3 never occurs (R150). -/
def SequencerInv (s : State) : Prop :=
  (s.q ≠ .faulted → s.phaseOk = true) ∧ s.q.allows s.op = true ∧
    (s.bi = 1 → s.op = .readWord ∨ s.op = .writeWord) ∧ s.err ≠ 3

/-! ### The line invariant -/

/-- R77 (a) and (d): while no fault has been raised all three lines are driven outputs, hold and write-protect HIGH, and
chip-select is LOW exactly inside a window. -/
def LineInv (s : State) : Prop :=
  s.q ≠ .faulted →
    s.cs.oe = true ∧ s.cs.driven = true ∧ s.hold.ready = true ∧ s.wp.ready = true ∧
      (s.cs.lvl = .low ↔ s.ph.inWindow = true)

/-! ### The trace invariant -/

/-- Where a reader of the trace stands: between windows, inside one after `n` transfers, or after a fault. -/
inductive WindowScan where
  | outside
  | inside (n : Nat)
  | stopped
  deriving DecidableEq, Repr

/-- One event read between windows: anything but a transfer (R77 (c)); chip-select LOW opens a window (R73). -/
def scanOutside : Event → Option WindowScan
  | .set .cs .low => some (.inside 0)
  | .xfer _ _ => none
  | .busFault => some .stopped
  | .set .cs .high | .set .hold _ | .set .wp _ | .start _ _ _ | .cfg _ | .done _ _ => some .outside

/-- One event read inside a window after `n` transfers: another transfer, or chip-select HIGH after 1, 2 or 4 of them
(R77 (b), (e)); nothing else but a fault (R73). -/
def scanInside (n : Nat) : Event → Option WindowScan
  | .xfer _ _ => some (.inside (n + 1))
  | .set .cs .high => if n = 1 ∨ n = 2 ∨ n = 4 then some .outside else none
  | .busFault => some .stopped
  | .set .cs .low | .set .hold _ | .set .wp _ | .start _ _ _ | .cfg _ | .done _ _ => none

/-- One event read; nothing follows a fault (R151). -/
def scanEvent : WindowScan → Event → Option WindowScan
  | .outside, e => scanOutside e
  | .inside n, e => scanInside n e
  | .stopped, _ => none

/-- The trace read from its beginning. -/
def scanTrace (w : WindowScan) : List Event → Option WindowScan
  | [] => some w
  | e :: es =>
    match scanEvent w e with
    | some w' => scanTrace w' es
    | none => none

/-- Where the reader stands when the block is in this state. -/
def State.scanPoint (s : State) : WindowScan :=
  if s.q = .faulted then .stopped
  else
    match s.ph with
    | .idle | .deselected => .outside
    | .selected => .inside 0
    | .opcodeSent => .inside 1
    | .addrHiSent => .inside 2
    | .addrSent => .inside 3
    | .dataDone =>
      match s.owned with
      | some t => .inside t.bytes.length
      | none => .inside 0

/-- The trace is a sequence of whole windows and of events outside them, up to where the block is. -/
def TraceInv (s : State) : Prop := scanTrace .outside s.trace = some s.scanPoint

/-! ### The array -/

/-- The device array is in canonical form and the parameters are legal. -/
def MemoryInv (s : State) : Prop := s.dev.mem.wf = true ∧ s.par.wellFormed = true

/-- Between windows the device holds no byte of a frame, and a device of which nothing is known holds none at all: each
window is decoded from its own bytes alone (R47, R50). -/
def DeviceInv (s : State) : Prop := (s.dev.mode = .open ∨ s.ph.inWindow = false) → s.dev.frame = []

end Sys2Proof.Machine
end

