-- ==== Sys2Proof/Certificates/Slice0/Obligations.lean ====
section
/-! DEFINITION. The statements for the provers. Each docstring names the rules of spec/ it formalises, or the log entry
of the choice it rests on. -/

open Sys2Proof Sys2Proof.Machine

/-! ### Reset, decoding, stepping -/

/-- R26, R20, R22: what reset leaves, for the state the spec gives a reset value. -/
def Obligations.ResetGivesSpecValues : Prop :=
  State.reset.q = .idle ∧ State.reset.ph = .idle ∧ State.reset.bi = 0 ∧ State.reset.busy = false ∧
    State.reset.cs.oe = false ∧ State.reset.hold.oe = false ∧ State.reset.wp.oe = false ∧
    State.reset.cs.pin = none ∧ State.reset.hold.pin = none ∧ State.reset.wp.pin = none ∧ State.reset.trace = []

/-- R170: reset applied in any state, `Q_FAULTED`, the endless poll and the middle of a window among them. -/
def Obligations.ResetFromAnyState : Prop :=
  ∀ s ms, (s.bench = [] ∨ s.q ≠ .idle) → s.moves = .reset :: ms →
    ∃ t, step s = .next t ∧ t.q = .idle ∧ t.ph = .idle ∧ t.bi = 0 ∧
      t.cs.oe = false ∧ t.hold.oe = false ∧ t.wp.oe = false ∧ t.trace = s.trace ∧
      t.par = s.par ∧ t.moves = ms ∧ t.bench = s.bench ∧ blockStep t = .next t

/-- A step that takes up a host command word is the decoded instruction's meaning (R60, R62; log 2): a `call` as soon as
the block is idle, a `force` at once. -/
def Obligations.HostWordStepRunsDecoded : Prop :=
  ∀ s w ms i, decode (.hop w) = .ok i →
    ((s.bench = [] ∧ s.q = .idle ∧ s.moves = .call w :: ms) ∨
      ((s.bench = [] ∨ s.q ≠ .idle) ∧ s.moves = .force w :: ms)) →
    step s = exec i { s with moves := ms }

/-- A step that takes up a bench frame is the decoded frame's meaning (log 2), and one that takes up bytes that are no
frame refuses (R58). -/
def Obligations.BenchFrameStepRunsDecoded : Prop :=
  ∀ s f fs, s.bench = f :: fs → s.q = .idle →
    (∀ i, decode (.frame f) = .ok i → step s = exec i { s with bench := fs }) ∧
      (∀ e, decode (.frame f) = .error e → step s = .refused .notAFrame)

/-- The frames of R51 and R53 and the command words of R60 and R61, written out (vectors V-F1 to V-F6, V-H0 to V-H7). -/
def Obligations.SpecWordsDecode : Prop :=
  decodeTableWord 8 0x06 = some .wren ∧ decodeTableWord 8 0x04 = some .wrdi ∧
    decodeTableWord 16 0x0500 = some (.rdsr 0x00) ∧ decodeTableWord 16 0x018C = some (.wrsr 0x8C) ∧
    decodeTableWord 32 0x03123400 = some (.read 0x1234 0x00) ∧
    decodeTableWord 32 0x021234A5 = some (.write 0x1234 0xA5) ∧
    decodeTableWord 40 0x000000000 = some (.init 0 0) ∧
    decodeTableWord 40 0x100100000 = some (.readWord 0x0010 0) ∧
    decodeTableWord 40 0x200100709 = some (.writeWord 0x0010 0x0709) ∧
    decodeTableWord 40 0x300000000 = some (.readStatus 0 0) ∧
    decodeTableWord 40 0x40000008C = some (.writeStatus 0 0x008C) ∧
    decodeTableWord 40 0x5123400A5 = some (.writeByte 0x1234 0x00A5) ∧
    decodeTableWord 40 0x600100000 = some (.readByte 0x0010 0) ∧
    decodeTableWord 40 0x700000000 = some (.reservedOp7 0 0)

/-- Decoding the encoding of any instruction gives it back, with every operand at every value (R51, R54, R60, R61). -/
def Obligations.DecodeEncodeRoundTrip : Prop := ∀ i : Instr, decode (encode i) = .ok i

/-- Every frame and every command word has one meaning: what decodes to an instruction is that instruction's encoding. -/
def Obligations.EncodeDecodeCanonical : Prop := ∀ c i, decode c = .ok i → encode i = c

/-- R52: the opcode byte alone decides the length, no other length is a frame, and the block sends only frames. -/
def Obligations.OpcodeDecidesFrameLength : Prop :=
  (∀ bs : List Byte, (∃ i, decodeFrame bs = .ok i) ↔
    ∃ o rest, bs = o :: rest ∧
      (((o = 0x06 ∨ o = 0x04) ∧ rest.length = 0) ∨ ((o = 0x05 ∨ o = 0x01) ∧ rest.length = 1) ∨
        ((o = 0x03 ∨ o = 0x02) ∧ rest.length = 3))) ∧
    ∀ (s : State) t, s.owned = some t → ∃ i, decodeFrame t.bytes = .ok i ∧ i.issuedByBlock = true

/-! ### Start -/

/-- R62: the one step of `Start`, for each of the seven operations, with everything it leaves unchanged; it is not
accepted while `q ≠ Q_IDLE`; and no other step but reset writes the operand latches. -/
def Obligations.StartDispatchesEveryOperation : Prop :=
  (∀ (s : State) a v, s.q = .idle →
    exec (.init a v) s = .next { s with
      A := a, V := v, bi := 0, op := .init, q := .initCfgCs, trace := s.trace ++ [.start .init a v] } ∧
    exec (.readWord a v) s = .next { s with
      A := a, V := v, bi := 0, op := .readWord, q := .rdRead, trace := s.trace ++ [.start .readWord a v] } ∧
    exec (.writeWord a v) s = .next { s with
      A := a, V := v, bi := 0, op := .writeWord, q := .wbWren, trace := s.trace ++ [.start .writeWord a v] } ∧
    exec (.readStatus a v) s = .next { s with
      A := a, V := v, bi := 0, op := .readStatus, q := .rsRdsr, trace := s.trace ++ [.start .readStatus a v] } ∧
    exec (.writeStatus a v) s = .next { s with
      A := a, V := v, bi := 0, op := .writeStatus, q := .wsWrsr, trace := s.trace ++ [.start .writeStatus a v] } ∧
    exec (.writeByte a v) s = .next { s with
      A := a, V := v, bi := 0, op := .writeByte, q := .wbWren, trace := s.trace ++ [.start .writeByte a v] } ∧
    exec (.readByte a v) s = .next { s with
      A := a, V := v, bi := 0, op := .readByte, q := .rdRead, trace := s.trace ++ [.start .readByte a v] }) ∧
    (∀ (s : State) i, i.isHost = true → i.wellFormed = true → s.q ≠ .idle → exec i s = .refused .startWhileBusy) ∧
    ∀ s t, step s = .next t → NoResetNow s →
      (t.A = s.A ∧ t.V = s.V) ∨ ∃ o, s.q = .idle ∧ t.op = o ∧ t.trace = s.trace ++ [.start o t.A t.V]

/-- R156 (log 10): a word the host presents while the block is busy or faulted is refused, and one it holds back until the
block is idle is not taken up: the step is the block's own. -/
def Obligations.HostWaitsForIdle : Prop :=
  ∀ s w ms, s.q ≠ .idle →
    (s.moves = .force w :: ms → hopOp w ≠ 7 → step s = .refused .startWhileBusy) ∧
      (s.moves = .call w :: ms → step s = blockStep s)

/-- R63 and, for a block that is busy or faulted, the choice of log 11: operation code 7 is refused by its own name in every
state, whatever the other fields hold. -/
def Obligations.ReservedCodeRefused : Prop :=
  (∀ a v s, exec (.reservedOp7 a v) s = .refused .reservedHostOp) ∧
    ∀ s w ms, hopOp w = 7 → s.bench = [] → s.q = .idle → s.moves = .call w :: ms →
      step s = .refused .reservedHostOp

/-! ### Faults -/

/-- R18: `Q_FAULTED` is entered by a BusFault and left only by reset; in it the block performs no action, accepts no
`Start`, and the lines keep the values they had. -/
def Obligations.FaultedUntilReset : Prop :=
  (∀ s t, s.q ≠ .faulted → step s = .next t → t.q = .faulted → t.trace.getLast? = some .busFault) ∧
    (∀ s t, s.q = .faulted → step s = .next t → NoResetNow s →
      t.q = .faulted ∧ t.err = s.err ∧ t.trace = s.trace ∧ SameLatches s t) ∧
    (∀ (s : State) i, s.q = .faulted → i.isHost = true → i.wellFormed = true → exec i s = .refused .startWhileBusy) ∧
    State.reset.q ≠ .faulted

/-- R151: BusFault raised during any primitive of the block, whatever words the host still holds back: no latch and no line
changes, the one event is `Fault(BusFault)`, `err = 2`, the block is in `Q_FAULTED`, its own next step does nothing, and it
accepts no `Start`. And the same of each wire frame run as one instruction (log 1), WRDI among them: the primitives before
the faulting one have happened, it and the later ones have not. -/
def Obligations.BusFaultTakesNothingElse : Prop :=
  (∀ s, SequencerInv s → BlockTurn s → s.faultDue = true → s.q ≠ .idle → s.q ≠ .faulted → s.ph ≠ .deselected →
    ∃ t, step s = .next t ∧ t.q = .faulted ∧ t.err = 2 ∧ t.trace = s.trace ++ [.busFault] ∧ SameLatches s t ∧
      t.par = s.par ∧ blockStep t = .next t ∧
      ∀ i, i.isHost = true → i.wellFormed = true → exec i t = .refused .startWhileBusy) ∧
  ∀ (s : State) i tx k rest, encode i = .frame tx → s.ph = .idle → s.q ≠ .faulted →
    s.env.faults = List.replicate k false ++ true :: rest → k ≤ tx.length + 1 →
    ∃ u, exec i s = .next u ∧ CutFrame s i.receives tx k u ∧ u.env.faults = rest

/-- R171, U8, by the choice of log 15: reset and BusFault, also in a frame run as one instruction (log 1), leave the
device's array alone, and the whole device if no window was open; after one that was cut, nothing more is known of the
device. -/
def Obligations.DeviceAfterCutWindow : Prop :=
  (∀ s t, SequencerInv s → (s.bench = [] ∨ s.q ≠ .idle) → step s = .next t →
    (s.moves.head? = some .reset ∨
      (BlockTurn s ∧ s.faultDue = true ∧ s.q ≠ .idle ∧ s.q ≠ .faulted ∧ s.ph ≠ .deselected)) →
    t.dev.mem = s.dev.mem ∧ (s.ph.inWindow = false → t.dev = s.dev) ∧
      (s.ph.inWindow = true → t.dev.mode = .open)) ∧
  ∀ (s u : State) i tx k rest, encode i = .frame tx → s.ph = .idle → s.q ≠ .faulted →
    s.env.faults = List.replicate k false ++ true :: rest → k ≤ tx.length + 1 → exec i s = .next u →
    u.dev.mem = s.dev.mem ∧ (k = 0 → u.dev = s.dev) ∧ (0 < k → u.dev.mode = .open)

/-- R150, R155: the step that emits `Done` carries the operation in progress and the result's code, is taken with the
window closed, and leaves the block idle, so that a `Start` in the next step is accepted. In the binding of R25 (log 30) it
is the one step with `h_done`: a waiting block has it no more. -/
def Obligations.DoneLeavesTheBlockIdle : Prop :=
  ∀ s t o res, SequencerInv s → step s = .next t → t.trace = s.trace ++ [.done o res] →
    o = s.op ∧ s.ph = .deselected ∧ Idle t ∧ t.busy = false ∧ t.err = res.code ∧
      (∀ v, res = .okValue v → t.R = v) ∧ (∀ a v, ∃ u, exec (.readStatus a v) t = .next u) ∧
      (ports s t).hDone = true ∧ (Alone t → step t = .next t ∧ (ports t t).hDone = false)

/-! ### Wire frames -/

/-- R80, R81, R83: WREN, WRDI and WRSR as whole windows. No latch is written; no location of the device array changes. -/
def Obligations.WrenWrdiWrsrWindows : Prop :=
  ∀ s : State, s.ph = .idle → s.q ≠ .faulted → Quiet s →
    (∃ t r, exec .wren s = .next t ∧ t.trace = s.trace ++ windowEvents [0x06] [r] ∧ t.RX = s.RX ∧
      SameButWindow s t ∧ t.cs.lvl = .high ∧ ∀ a, t.dev.mem.read a = s.dev.mem.read a) ∧
    (∃ t r, exec .wrdi s = .next t ∧ t.trace = s.trace ++ windowEvents [0x04] [r] ∧ t.RX = s.RX ∧
      SameButWindow s t ∧ t.cs.lvl = .high ∧ ∀ a, t.dev.mem.read a = s.dev.mem.read a) ∧
    ∀ v, ∃ t r1 r2, exec (.wrsr v) s = .next t ∧ t.trace = s.trace ++ windowEvents [0x01, v] [r1, r2] ∧ t.RX = s.RX ∧
      SameButWindow s t ∧ t.cs.lvl = .high ∧ ∀ a, t.dev.mem.read a = s.dev.mem.read a

/-- R82, R84: RDSR and READ as whole windows. `RX` takes the byte received in the dummy transfer and no other latch is
written; no location of the device array changes. -/
def Obligations.RdsrReadWindows : Prop :=
  ∀ s : State, s.ph = .idle → s.q ≠ .faulted → Quiet s →
    (∀ x, ∃ t r d, exec (.rdsr x) s = .next t ∧ t.trace = s.trace ++ windowEvents [0x05, x] [r, d] ∧ t.RX = d ∧
      SameButWindow s t ∧ t.cs.lvl = .high ∧ ∀ a, t.dev.mem.read a = s.dev.mem.read a) ∧
    ∀ a x, ∃ t r1 r2 r3 d, exec (.read a x) s = .next t ∧
      t.trace = s.trace ++ windowEvents [0x03, hiByte a, loByte a, x] [r1, r2, r3, d] ∧ t.RX = d ∧
      SameButWindow s t ∧ t.cs.lvl = .high ∧ ∀ k, t.dev.mem.read k = s.dev.mem.read k

/-- R85: WRITE as a whole window. No latch of the block is written, and no location of the device array but the one the
frame addresses changes. -/
def Obligations.WriteWindow : Prop :=
  ∀ (s : State) a d, s.ph = .idle → s.q ≠ .faulted → Quiet s →
    ∃ t r1 r2 r3 r4, exec (.write a d) s = .next t ∧
      t.trace = s.trace ++ windowEvents [0x02, hiByte a, loByte a, d] [r1, r2, r3, r4] ∧ t.RX = s.RX ∧
      SameButWindow s t ∧ t.cs.lvl = .high ∧ ∀ k, k ≠ s.location a → t.dev.mem.read k = s.dev.mem.read k

/-- R40, R4 (log 10): a frame is not begun while another is on the wire, nor after a fault. -/
def Obligations.FrameNeedsFreeWire : Prop :=
  ∀ (s : State) i, i.isHost = false → (s.ph ≠ .idle ∨ s.q = .faulted) → exec i s = .refused .startWhileBusy

/-- R47 (log 14): what the reference device does with each frame of a window the block opens with its lines ready, accepted
or not. The device's `frame` is empty again after each; `n` is the next `N_SR` or `N_WR`, where the state fixes it. -/
def Obligations.ReferenceDeviceFollowsListing : Prop :=
  ∀ s : State, s.ph = .idle → s.q ≠ .faulted → Quiet s → s.dev.mode = .reference → s.linesReady = true →
    (∃ t, exec .wren s = .next t ∧
      t.dev = { s.dev with wel := if s.dev.busyLeft = 0 then true else s.dev.wel, frame := [] }) ∧
    (∃ t, exec .wrdi s = .next t ∧ t.dev = { s.dev with wel := false, frame := [] }) ∧
    (∀ x, ∃ t, exec (.rdsr x) s = .next t ∧
      t.RX = s.dev.hi6 ++ BitVec.ofBool s.dev.wel ++ BitVec.ofBool (decide (0 < s.dev.busyLeft)) ∧
      t.dev = { s.dev with
        busyLeft := s.dev.busyLeft - 1, wel := if s.dev.busyLeft = 1 then false else s.dev.wel, frame := [] }) ∧
    (∀ v, ∃ t n, exec (.wrsr v) s = .next t ∧ (∀ m ns, s.env.nSr = m :: ns → n = m) ∧
      t.dev = (if s.dev.busyLeft = 0 ∧ (s.dev.wel = true ∨ s.par.wrsrRequiresWel = false) then
        { s.dev with
          hi6 := v.extractLsb' 2 6, busyLeft := n, wel := if n = 0 then false else s.dev.wel, frame := [] }
        else { s.dev with frame := [] })) ∧
    (∀ a x, ∃ t, exec (.read a x) s = .next t ∧ t.dev = { s.dev with frame := [] } ∧
      (s.dev.busyLeft = 0 → ∀ b, s.dev.mem.read ((a &&& s.par.devAddrMask).toNat) = some b → t.RX = b) ∧
      (0 < s.dev.busyLeft → ∀ r1 r2 r3 b rs, s.env.replies = [r1, r2, r3, b] ++ rs → t.RX = b)) ∧
    ∀ a d, ∃ t n, exec (.write a d) s = .next t ∧ (∀ m ns, s.env.nWr = m :: ns → n = m) ∧
      t.dev = (if s.dev.busyLeft = 0 ∧ s.dev.wel = true then
        { s.dev with
          mem := s.dev.mem.write ((a &&& s.par.devAddrMask).toNat) d, busyLeft := n,
          wel := if n = 0 then false else s.dev.wel, frame := [] }
        else { s.dev with frame := [] })

/-- R37, R44, R82, conflict C4, with the choices of logs 14, 27, 31 and 32: what a contract device does with each frame of a
window the block opens with its lines ready. A status read is a pure query that reports WEL and WIP; WREN and WRDI set and
clear the latch; WRSR and WRITE that it can accept and accepts begin a write cycle, WRITE changing the one location of its
address; READ changes nothing. After a command that the contract does not cover nothing more is known of the device, but
its array is as it was. -/
def Obligations.ContractDeviceFollowsContract : Prop :=
  ∀ s : State, s.ph = .idle → s.q ≠ .faulted → Quiet s → s.dev.mode = .contract → s.linesReady = true →
    (∃ t, exec .wren s = .next t ∧ t.dev =
      (if s.dev.busyLeft = 0 then { s.dev with wel := true, frame := [] } else { s.dev with mode := .open, frame := [] })) ∧
    (∃ t, exec .wrdi s = .next t ∧ t.dev =
      (if s.dev.busyLeft = 0 then { s.dev with wel := false, frame := [] } else { s.dev with mode := .open, frame := [] })) ∧
    (∀ x, ∃ t, exec (.rdsr x) s = .next t ∧ t.dev = { s.dev with frame := [] } ∧
      wip t.RX = decide (0 < s.dev.busyLeft) ∧ wel t.RX = s.dev.wel) ∧
    (∀ v, ∃ t c n, exec (.wrsr v) s = .next t ∧ (∀ b bs, s.env.accepts = b :: bs → c = b) ∧
      (∀ m ns, s.env.nSr = m :: ns → n = m) ∧
      t.dev = (if c = true ∧ s.dev.busyLeft = 0 ∧ (s.dev.wel = true ∨ s.par.wrsrRequiresWel = false) ∧ wel v = s.dev.wel
        then { s.dev with
          hi6 := v.extractLsb' 2 6, busyLeft := n, wel := if n = 0 then false else s.dev.wel, frame := [] }
        else { s.dev with mode := .open, frame := [] })) ∧
    (∀ a x, ∃ t, exec (.read a x) s = .next t ∧ t.dev = { s.dev with frame := [] } ∧
      (s.dev.busyLeft = 0 → a.toNat < 32768 → ∀ b, s.dev.mem.read a.toNat = some b → t.RX = b) ∧
      (0 < s.dev.busyLeft ∨ 32768 ≤ a.toNat → ∀ r1 r2 r3 b rs, s.env.replies = [r1, r2, r3, b] ++ rs → t.RX = b)) ∧
    ∀ a d, ∃ t c n, exec (.write a d) s = .next t ∧ (∀ b bs, s.env.accepts = b :: bs → c = b) ∧
      (∀ m ns, s.env.nWr = m :: ns → n = m) ∧
      t.dev = (if c = true ∧ s.dev.busyLeft = 0 ∧ s.dev.wel = true ∧ a.toNat < 32768 then
        { s.dev with
          mem := s.dev.mem.write a.toNat d, busyLeft := n, wel := if n = 0 then false else s.dev.wel, frame := [] }
        else { s.dev with mode := .open, frame := [] })

/-- R44 (c), (d), (e): the contract device ends its write cycle by a step of its own, at any point: WIP and WEL are then
clear, and nothing else changes. With no cycle in progress the step changes nothing (log 2, log 27). -/
def Obligations.ContractDeviceCompletesByItself : Prop :=
  ∀ (s : State) ms, (s.bench = [] ∨ s.q ≠ .idle) → s.moves = .deviceDone :: ms → s.dev.mode = .contract →
    (0 < s.dev.busyLeft → ∃ t, step s = .next t ∧
      t = { s with moves := ms, dev := { s.dev with busyLeft := 0, wel := false } } ∧
      wip (statusByte t.dev.hi6 t.dev.wel t.dev.busyLeft) = false) ∧
    (s.dev.busyLeft = 0 → step s = .next { s with moves := ms })

/-! ### The phase machine and the sequencer -/

/-- R78: which transaction a sequencer state owns, its kind, address and data; the other states own none. -/
def Obligations.OwnedTransactionTable : Prop :=
  ∀ s : State,
    (s.q = .initWrsr → ∃ t, s.owned = some t ∧ t.kind = .wrsr ∧ t.data = 0x00) ∧
    (s.q = .rdRead → ∃ t, s.owned = some t ∧ t.kind = .read ∧ t.addr.toNat = (s.A.toNat + s.bi.toNat) % 65536) ∧
    (s.q = .wbWren → ∃ t, s.owned = some t ∧ t.kind = .wren) ∧
    (s.q = .wbWrite → ∃ t, s.owned = some t ∧ t.kind = .write ∧ t.addr.toNat = (s.A.toNat + s.bi.toNat) % 65536 ∧
      (s.op = .writeWord → s.bi = 0 → t.data.toNat = s.V.toNat / 256) ∧
      (¬(s.op = .writeWord ∧ s.bi = 0) → t.data.toNat = s.V.toNat % 256)) ∧
    (s.q = .wbPoll → ∃ t, s.owned = some t ∧ t.kind = .rdsr) ∧
    (s.q = .rsRdsr → ∃ t, s.owned = some t ∧ t.kind = .rdsr) ∧
    (s.q = .wsWrsr → ∃ t, s.owned = some t ∧ t.kind = .wrsr ∧ t.data.toNat = s.V.toNat % 256) ∧
    (s.q ∉ [.initWrsr, .rdRead, .wbWren, .wbWrite, .wbPoll, .rsRdsr, .wsWrsr] → s.owned = none)

/-- R75: each row of the phase table for each kind, as one step of the phase machine when no fault is raised, with `RX`
written in the two data-in rows only, where the block sends `DUMMY`; a BusFault keeps `ph`. The row in `DESELECTED` is here
without the completion move that the block makes in the same step (R79), since a frame run as one instruction has none:
that grain is the model's (log 1). -/
def Obligations.PhaseTableRows : Prop :=
  (∀ (t : Txn) (s : State), s.faultDue = false →
    (s.ph = .idle → ∃ u, phaseRow t s = .next u ∧ u.ph = .selected ∧ u.RX = s.RX ∧ u.q = s.q ∧
      u.cs.lvl = .low ∧ u.trace = s.trace ++ [.set .cs .low]) ∧
    (s.ph = .selected → ∃ u r, phaseRow t s = .next u ∧ u.ph = .opcodeSent ∧ u.RX = s.RX ∧ u.q = s.q ∧
      u.cs = s.cs ∧ u.trace = s.trace ++ [.xfer t.kind.opcode r]) ∧
    (s.ph = .opcodeSent → (t.kind = .wren ∨ t.kind = .wrdi) → ∃ u, phaseRow t s = .next u ∧ u.ph = .deselected ∧
      u.RX = s.RX ∧ u.q = s.q ∧ u.cs.lvl = .high ∧ u.trace = s.trace ++ [.set .cs .high]) ∧
    (s.ph = .opcodeSent → (t.kind = .read ∨ t.kind = .write) → ∃ u r, phaseRow t s = .next u ∧ u.ph = .addrHiSent ∧
      u.RX = s.RX ∧ u.q = s.q ∧ u.cs = s.cs ∧ u.trace = s.trace ++ [.xfer (hiByte t.addr) r]) ∧
    (s.ph = .opcodeSent → t.kind = .rdsr → ∃ u r, phaseRow t s = .next u ∧ u.ph = .dataDone ∧
      u.RX = r ∧ u.q = s.q ∧ u.cs = s.cs ∧ u.trace = s.trace ++ [.xfer t.data r]) ∧
    (s.ph = .opcodeSent → t.kind = .wrsr → ∃ u r, phaseRow t s = .next u ∧ u.ph = .dataDone ∧
      u.RX = s.RX ∧ u.q = s.q ∧ u.cs = s.cs ∧ u.trace = s.trace ++ [.xfer t.data r]) ∧
    (s.ph = .addrHiSent → (t.kind = .read ∨ t.kind = .write) → ∃ u r, phaseRow t s = .next u ∧ u.ph = .addrSent ∧
      u.RX = s.RX ∧ u.q = s.q ∧ u.cs = s.cs ∧ u.trace = s.trace ++ [.xfer (loByte t.addr) r]) ∧
    (s.ph = .addrSent → t.kind = .read → ∃ u r, phaseRow t s = .next u ∧ u.ph = .dataDone ∧
      u.RX = r ∧ u.q = s.q ∧ u.cs = s.cs ∧ u.trace = s.trace ++ [.xfer t.data r]) ∧
    (s.ph = .addrSent → t.kind = .write → ∃ u r, phaseRow t s = .next u ∧ u.ph = .dataDone ∧
      u.RX = s.RX ∧ u.q = s.q ∧ u.cs = s.cs ∧ u.trace = s.trace ++ [.xfer t.data r]) ∧
    (s.ph = .dataDone → t.kind ≠ .wren → t.kind ≠ .wrdi → ∃ u, phaseRow t s = .next u ∧ u.ph = .deselected ∧
      u.RX = s.RX ∧ u.q = s.q ∧ u.cs.lvl = .high ∧ u.trace = s.trace ++ [.set .cs .high]) ∧
    (s.ph = .deselected → phaseRow t s = .next { s with ph := .idle })) ∧
    (∀ (t : Txn) (s u : State), s.faultDue = true → s.ph ≠ .deselected → phaseRow t s = .next u →
      u.ph = s.ph ∧ u.q = .faulted) ∧
    ∀ (s : State) (t : Txn), s.owned = some t → (t.kind = .rdsr ∨ t.kind = .read) → t.data = s.par.dummy

/-- By the choice of log 20: a (phase, kind) pair that R75's table does not hold, and a completed READ transaction of
`Q_RD_READ` in an operation that is no read, stop the model by name. No run reaches one (`SequencerInvKept`). -/
def Obligations.PhaseOutsideTheTableAndForeignReadStop : Prop :=
  (∀ (t : Txn) (s : State), t.kind.allows s.ph = false → phaseRow t s = .fault .phaseNotInTable) ∧
    ∀ s : State, s.q = .rdRead → s.ph = .deselected → s.q.allows s.op = false →
      blockStep s = .fault .sequencerNotInTable

/-- R75, R78, R79, R86: the block, left alone, runs the transaction it owns in exactly the table's number of steps, and
what comes out is the whole window of the frame's own meaning followed by the completion move (or the fault, if one was
raised), whatever words the host holds back. The two grains are the model's, and log 1 is safe because of this. -/
def Obligations.BlockRunRefinesWindow : Prop :=
  ∀ (s : State) (t : Txn), s.owned = some t → s.ph = .idle → Waits s →
    ∃ u, exec t.instr s = .next u ∧
      runFor t.kind.steps s = if u.q = .faulted then .next u else complete u

/-- R54, R113, R127: the address bytes the block sends are `A +16 bi`, high byte first, unscaled and unmasked; the second
byte's address wraps at 2^16. -/
def Obligations.AddressBytesAreAPlusBi : Prop :=
  (∀ (s : State) t, s.owned = some t → (t.kind = .read ∨ t.kind = .write) →
    (s.bi = 0 → t.addr = s.A) ∧ (s.bi = 1 → t.addr.toNat = (s.A.toNat + 1) % 65536)) ∧
    ∀ (s u : State) t, s.owned = some t → (t.kind = .read ∨ t.kind = .write) → s.faultDue = false →
      blockStep s = .next u →
      (s.ph = .opcodeSent → ∃ r, u.trace = s.trace ++ [.xfer (hiByte t.addr) r]) ∧
        (s.ph = .addrHiSent → ∃ r, u.trace = s.trace ++ [.xfer (loByte t.addr) r])

/-- R124: a completed WRITE transaction is followed by a poll, which owns one RDSR transaction each time; the completion
move of the poll, row by row, tests only bit 0 of the status byte. -/
def Obligations.PollCompletionTable : Prop :=
  (∀ s : State, s.q = .wbWrite → s.ph = .deselected →
    ∃ t, blockStep s = .next t ∧ t.q = .wbPoll ∧ t.ph = .idle ∧ t.trace = s.trace) ∧
  (∀ s : State, s.q = .wbPoll → s.owned = some (.rdsr s.par.dummy)) ∧
  ∀ s : State, s.q = .wbPoll → s.ph = .deselected →
    (s.RX.getLsbD 0 = false → s.op = .writeWord → s.bi = 0 →
      blockStep s = .next { s with ph := .idle, np := s.np + 1, bi := 1, q := .wbWren }) ∧
    (s.RX.getLsbD 0 = false → ¬(s.op = .writeWord ∧ s.bi = 0) →
      blockStep s = .next { s with
        ph := .idle, np := s.np + 1, q := .idle, err := 0, trace := s.trace ++ [.done s.op .ok] }) ∧
    (s.RX.getLsbD 0 = true → (∃ l, s.par.pollLimit = some l ∧ l ≤ s.np + 1) →
      blockStep s = .next { s with
        ph := .idle, np := s.np + 1, q := .idle, err := 1, trace := s.trace ++ [.done s.op .errDeviceTimeout] }) ∧
    (s.RX.getLsbD 0 = true → (¬∃ l, s.par.pollLimit = some l ∧ l ≤ s.np + 1) →
      blockStep s = .next { s with ph := .idle, np := s.np + 1 })

/-- R13: `RX` is written by the dummy transfer of an RDSR or READ transaction, with the byte received in it, and by no
other step of the hardware (bench empty) but reset. -/
def Obligations.RxWrittenOnlyByDummyTransfer : Prop :=
  ∀ s t, step s = .next t → s.bench = [] → NoResetNow s → t.RX ≠ s.RX →
    ∃ x, s.owned = some x ∧ ((x.kind = .rdsr ∧ s.ph = .opcodeSent) ∨ (x.kind = .read ∧ s.ph = .addrSent)) ∧
      t.trace = s.trace ++ [.xfer s.par.dummy t.RX] ∧ t.ph = .dataDone

/-- R14, R111: `HI` is written when the first READ of a READ_WORD completes, with `RX`, and by no other step but reset;
the completion of the second forms `HI ++ RX`. -/
def Obligations.HighByteLatchRule : Prop :=
  (∀ s t, step s = .next t → NoResetNow s → t.HI ≠ s.HI →
    s.q = .rdRead ∧ s.op = .readWord ∧ s.bi = 0 ∧ s.ph = .deselected ∧ t.HI = s.RX) ∧
    ∀ s : State, s.q = .rdRead → s.op = .readWord → s.ph = .deselected →
      (s.bi = 0 → blockStep s = .next { s with ph := .idle, HI := s.RX, bi := 1 }) ∧
        (s.bi = 1 → blockStep s = .next { s with
          ph := .idle, R := s.HI ++ s.RX, q := .idle, err := 0,
          trace := s.trace ++ [.done .readWord (.okValue (s.HI ++ s.RX))] })

/-- R15: `R` is written at the end of READ_WORD, READ_BYTE and READ_STATUS, in the step that emits the `Done` carrying it,
and by no other step but reset. -/
def Obligations.ResultLatchRule : Prop :=
  (∀ s : State, s.ph = .deselected →
    (s.q = .rdRead → s.op = .readWord → s.bi = 1 → ∃ t, blockStep s = .next t ∧ t.R = s.HI ++ s.RX ∧
      t.trace = s.trace ++ [.done .readWord (.okValue (s.HI ++ s.RX))]) ∧
    (s.q = .rdRead → s.op = .readByte → ∃ t, blockStep s = .next t ∧ t.R = s.RX.setWidth 16 ∧
      t.trace = s.trace ++ [.done .readByte (.okValue (s.RX.setWidth 16))]) ∧
    (s.q = .rsRdsr → ∃ t, blockStep s = .next t ∧ t.R = s.RX.setWidth 16 ∧
      t.trace = s.trace ++ [.done s.op (.okValue (s.RX.setWidth 16))])) ∧
  ∀ s t, SequencerInv s → step s = .next t → NoResetNow s → t.R ≠ s.R →
    (s.op = .readWord ∨ s.op = .readByte ∨ s.op = .readStatus) ∧
      t.trace = s.trace ++ [.done s.op (.okValue t.R)] ∧
      (s.op = .readWord → t.R = s.HI ++ s.RX) ∧ (s.op ≠ .readWord → t.R = s.RX.setWidth 16)

/-- R16: `np` is cleared when a WRITE transaction completes, counts one up when a poll transaction completes, and no other
step but reset changes it. -/
def Obligations.PollCounterRule : Prop :=
  (∀ s : State, s.q = .wbWrite → s.ph = .deselected → blockStep s = .next { s with ph := .idle, np := 0, q := .wbPoll }) ∧
    (∀ s t, s.q = .wbPoll → s.ph = .deselected → blockStep s = .next t → t.np = s.np + 1) ∧
    ∀ s t, step s = .next t → NoResetNow s → t.np ≠ s.np → s.ph = .deselected ∧ (s.q = .wbWrite ∨ s.q = .wbPoll)

/-- R74 (D6): with any device, a byte received outside the data position reaches no latch: two environments that differ
only in that byte leave states that differ only in the byte recorded on the trace. The byte received in the dummy
transfer of an RDSR or READ frame is kept, in `RX`. -/
def Obligations.DiscardedBytesReachNoLatch : Prop :=
  (∀ (s : State) t r rs, s.owned = some t → s.dev.mode = .open → s.faultDue = false → s.env.replies = r :: rs →
    ((t.kind = .rdsr ∧ s.ph = .opcodeSent) ∨ (t.kind = .read ∧ s.ph = .addrSent)) →
    ∃ u b, blockStep s = .next u ∧ u.trace = s.trace ++ [.xfer b r] ∧ u.RX = r) ∧
  ∀ (s : State) t r r' rs, s.owned = some t → s.dev.mode = .open → s.faultDue = false → s.env.replies = r :: rs →
    (s.ph = .selected ∨ (s.ph = .opcodeSent ∧ (t.kind = .read ∨ t.kind = .write ∨ t.kind = .wrsr)) ∨
      s.ph = .addrHiSent ∧ (t.kind = .read ∨ t.kind = .write) ∨ (s.ph = .addrSent ∧ t.kind = .write)) →
    ∃ u b, blockStep s = .next u ∧ u.trace = s.trace ++ [.xfer b r] ∧
      blockStep { s with env := { s.env with replies := r' :: rs } } = .next { u with trace := s.trace ++ [.xfer b r'] }

/-- R12, R60: the sequencer states of INIT's status write, of the reads, of WREN and of the polls do not depend on the
value latch: with another value in it the step is the same but for the latch itself. -/
def Obligations.ValueLatchUnusedElsewhere : Prop :=
  ∀ (s : State) v, (s.q = .initWrsr ∨ s.q = .rdRead ∨ s.q = .wbWren ∨ s.q = .wbPoll ∨ s.q = .rsRdsr) →
    (∀ t, blockStep s = .next t → blockStep { s with V := v } = .next { t with V := v }) ∧
      ∀ f, blockStep s = .fault f → blockStep { s with V := v } = .fault f

/-- R123: the WRITE window follows its own WREN window with nothing in between, and nothing but a WRITE window follows a
WREN window of the sequencer. -/
def Obligations.WriteFollowsItsWren : Prop :=
  (∀ s t, step s = .next t → s.q ≠ .wbWrite → t.q = .wbWrite →
    s.q = .wbWren ∧ s.ph = .deselected ∧ t.ph = .idle ∧ t.trace = s.trace) ∧
    ∀ s t, step s = .next t → NoResetNow s → s.q = .wbWren → t.q = .wbWren ∨ t.q = .wbWrite ∨ t.q = .faulted

/-- R58, R81: the block sends, as the first byte of a window, one of 0x01, 0x02, 0x03, 0x05, 0x06, and never 0x04. -/
def Obligations.OpcodesTheBlockSends : Prop :=
  ∀ s t b r, SequencerInv s → s.bench = [] → s.ph = .selected → step s = .next t → t.trace = s.trace ++ [.xfer b r] →
    (b = 0x01 ∨ b = 0x02 ∨ b = 0x03 ∨ b = 0x05 ∨ b = 0x06) ∧ b ≠ 0x04

/-- R17, R40: while a transaction is in progress `q` does not change, but by a BusFault or reset. -/
def Obligations.SequencerWaitsForWindow : Prop :=
  ∀ s t, SequencerInv s → step s = .next t → NoResetNow s → s.ph.inWindow = true → s.q ≠ .faulted →
    t.q = s.q ∨ t.q = .faulted

/-- R20, R174: `oe` is set only by `cfg_out` and cleared only by reset, for each line. -/
def Obligations.OutputEnableClearedOnlyByReset : Prop :=
  ∀ s t l, step s = .next t → NoResetNow s →
    ((s.line l).oe = true → (t.line l).oe = true) ∧
      ((s.line l).oe = false → (t.line l).oe = true → t.trace = s.trace ++ [.cfg l])

/-- R102, R103, R71: hold and write-protect are configured and driven by INIT alone, and only HIGH. -/
def Obligations.HoldAndWriteProtectOnlyInInit : Prop :=
  ∀ s t l, l ≠ .cs → step s = .next t → NoResetNow s → t.line l ≠ s.line l →
    ∃ x, (s.q = .initCfgHold ∨ s.q = .initCfgWp ∨ s.q = .initSetHold ∨ s.q = .initSetWp) ∧
      t.trace = s.trace ++ [x] ∧ (x = .cfg l ∨ x = .set l .high)

/-- R70, R71, R179: the line primitives. `cfg_out` leaves the level latch alone, so a line never driven has no level the
spec gives between the two; `set` leaves the enable alone; other lines are untouched; a fault changes nothing. -/
def Obligations.LinePrimitives : Prop :=
  ∀ (s : State) l lvl,
    (s.faultDue = false →
      ((cfgOut l id s).line l = { s.line l with oe := true } ∧ (cfgOut l id s).trace = s.trace ++ [.cfg l] ∧
        ((s.line l).driven = false → ((cfgOut l id s).line l).pin = none) ∧
        ∀ k, k ≠ l → (cfgOut l id s).line k = s.line k) ∧
      ((setLevel l lvl id s).line l = { s.line l with lvl := lvl, driven := true } ∧
        (setLevel l lvl id s).trace = s.trace ++ [.set l lvl] ∧
        ∀ k, k ≠ l → (setLevel l lvl id s).line k = s.line k)) ∧
      (s.faultDue = true → ∀ k, (cfgOut l id s).line k = s.line k ∧ (setLevel l lvl id s).line k = s.line k)

/-- R5: no step changes a parameter. -/
def Obligations.ParametersNeverChange : Prop := ∀ s t, step s = .next t → t.par = s.par

/-! ### Invariants -/

/-- The sequencer invariant (R17, R75, R150) is kept by every step. -/
def Obligations.SequencerInvKept : Prop := ∀ s t, SequencerInv s → step s = .next t → SequencerInv t

/-- R77 (a), (d), R21: the line invariant is kept by every step but a reset. -/
def Obligations.LineInvKept : Prop :=
  ∀ s t, SequencerInv s → LineInv s → NoResetNow s → step s = .next t → LineInv t

/-- R73, R77 (b), (c), (e): the trace stays a sequence of whole windows of 1, 2 or 4 transfers, with every other event
outside them, up to where the block is; by every step but a reset. -/
def Obligations.TraceInvKept : Prop :=
  ∀ s t, SequencerInv s → TraceInv s → NoResetNow s → step s = .next t → TraceInv t

/-- The device array keeps its canonical form, and the parameters stay legal, by every step. -/
def Obligations.MemoryInvKept : Prop := ∀ s t, MemoryInv s → step s = .next t → MemoryInv t

/-- R47, R50: between windows the device holds no byte of a frame, so that each window is decoded from its own bytes; this
is kept by every step. -/
def Obligations.DeviceInvKept : Prop := ∀ s t, SequencerInv s → DeviceInv s → step s = .next t → DeviceInv t

/-- The reset state meets the sequencer, trace, memory and device invariants. -/
def Obligations.ResetMeetsInvariants : Prop :=
  SequencerInv State.reset ∧ TraceInv State.reset ∧ MemoryInv State.reset ∧ DeviceInv State.reset

/-- R21: with the line invariant, `LinesReady` holds whenever no window is open and no fault has been raised. -/
def Obligations.LinesReadyBetweenWindows : Prop :=
  ∀ s, LineInv s → s.q ≠ .faulted → (s.ph = .idle ∨ s.ph = .deselected) → s.linesReady = true

/-- Progress: from every state that meets the sequencer invariant, with a host that starts only operations the spec gives
a meaning and never over another, the machine takes a step (no fault of the model, no refusal is reached). Operations
started before INIT are among them: that they run is the choice of log 9, where R172 and U5 let a model refuse. -/
def Obligations.DisciplinedMachineAlwaysSteps : Prop :=
  ∀ s, SequencerInv s → s.bench = [] → (∀ w ms, s.moves ≠ .force w :: ms) →
    (∀ w ms, s.moves = .call w :: ms → hopOp w ≠ 7) → ∃ t, step s = .next t

/-! ### Whole operations, as runs

The premise `LinesReady` of these operations' rules is dropped, since the block does not check it (R21, R172; log 9). That
the latches which no rule writes keep their values is log 28. The words `ws` that the host holds back stay to come. -/

/-- R100, R21: INIT, twelve steps from its `Start`: the ten events in order, `LinesReady` at `Done`. The order of the
six line actions is the spec's own decision (R101, D7; log 23); that R, HI, RX and np keep their values is log 28;
that the array of a contract device is unmoved by the short selection R104 allows is log 33. R47, R49 (b): on the
reference device (log 14) the status register is then 0 exactly when the status write was accepted with `N_SR = 0`
(V-IN1), or was not accepted and the register was 0 before (V-IN2 leaves one that was not). -/
def Obligations.InitRun : Prop :=
  ∀ s w ws, Idle s → Quiet s → DeviceInv s → Calls s (w :: ws) → hopOp w = 0 →
    ∃ t r1 r2 n, runFor 12 s = .next t ∧ Idle t ∧ t.linesReady = true ∧ t.err = 0 ∧ t.par = s.par ∧
      t.A = hopAddr w ∧ t.V = hopData w ∧ Calls t ws ∧
      t.trace = s.trace ++ [.start .init (hopAddr w) (hopData w)] ++ initEvents r1 r2 ++ [.done .init .ok] ∧
      t.R = s.R ∧ t.HI = s.HI ∧ t.RX = s.RX ∧ t.np = s.np ∧ (∀ a, t.dev.mem.read a = s.dev.mem.read a) ∧
      (∀ m ns, s.env.nSr = m :: ns → n = m) ∧
      (s.dev.mode = .reference → t.dev =
        (if s.dev.busyLeft = 0 ∧ (s.dev.wel = true ∨ s.par.wrsrRequiresWel = false) then
          { s.dev with hi6 := 0, busyLeft := n, wel := if n = 0 then false else s.dev.wel }
        else s.dev)) ∧
      (s.dev.mode = .reference → (t.dev.status = 0x00 ↔
        if s.dev.busyLeft = 0 ∧ (s.dev.wel = true ∨ s.par.wrsrRequiresWel = false) then n = 0
        else s.dev.status = 0x00))

/-- R110: READ_BYTE, eight steps: one READ window at the address, the result the byte zero-extended. Lines not ready:
log 9; HI and np kept: log 28. -/
def Obligations.ReadByteRun : Prop :=
  ∀ s w ws, Idle s → Quiet s → Calls s (w :: ws) → hopOp w = 6 →
    ∃ t r1 r2 r3 d, runFor 8 s = .next t ∧ Idle t ∧ t.err = 0 ∧ t.R = zext16 d ∧ t.RX = d ∧
      t.trace = s.trace ++ [.start .readByte (hopAddr w) (hopData w)] ++
        windowEvents [0x03, hiByte (hopAddr w), loByte (hopAddr w), s.par.dummy] [r1, r2, r3, d] ++
        [.done .readByte (.okValue (zext16 d))] ∧
      t.HI = s.HI ∧ t.np = s.np ∧ OpFrame s w ws t ∧ ∀ a, t.dev.mem.read a = s.dev.mem.read a

/-- R111, R112, R113: READ_WORD, fifteen steps: two separate READ windows at the address and the address plus one modulo
2^16, the result big-endian. Lines not ready: log 9; np kept: log 28. -/
def Obligations.ReadWordRun : Prop :=
  ∀ s w ws, Idle s → Quiet s → Calls s (w :: ws) → hopOp w = 1 →
    ∃ t r1 r2 r3 h r5 r6 r7 l, runFor 15 s = .next t ∧ Idle t ∧ t.err = 0 ∧ t.R = joinBytes h l ∧ t.HI = h ∧ t.RX = l ∧
      t.trace = s.trace ++ [.start .readWord (hopAddr w) (hopData w)] ++
        windowEvents [0x03, hiByte (hopAddr w), loByte (hopAddr w), s.par.dummy] [r1, r2, r3, h] ++
        windowEvents [0x03, hiByte (hopAddr w + 1), loByte (hopAddr w + 1), s.par.dummy] [r5, r6, r7, l] ++
        [.done .readWord (.okValue (joinBytes h l))] ∧
      t.np = s.np ∧ OpFrame s w ws t ∧ ∀ a, t.dev.mem.read a = s.dev.mem.read a

/-- R140: READ_STATUS, six steps: one RDSR window, the result the status byte zero-extended; no effect on an open device,
nor on a contract device with its lines ready (the modes are the model's, log 14); the reference device counts the read
(R48, conflict C4). Lines not ready: log 9; HI and np kept: log 28. -/
def Obligations.ReadStatusRun : Prop :=
  ∀ s w ws, Idle s → Quiet s → Calls s (w :: ws) → hopOp w = 3 →
    ∃ t r d, runFor 6 s = .next t ∧ Idle t ∧ t.err = 0 ∧ t.R = zext16 d ∧ t.RX = d ∧
      t.trace = s.trace ++ [.start .readStatus (hopAddr w) (hopData w)] ++
        windowEvents [0x05, s.par.dummy] [r, d] ++ [.done .readStatus (.okValue (zext16 d))] ∧
      t.HI = s.HI ∧ t.np = s.np ∧ OpFrame s w ws t ∧ (∀ a, t.dev.mem.read a = s.dev.mem.read a) ∧
      (s.dev.mode = .open → t.dev = s.dev) ∧
      (s.dev.mode = .contract → s.linesReady = true → t.dev = { s.dev with frame := [] })

/-- R142, R143: WRITE_STATUS, six steps: one WRSR window with `wdata[7:0]`, no WREN before it, no poll after it.
Lines not ready: log 9; R, RX, HI and np kept: log 28. -/
def Obligations.WriteStatusRun : Prop :=
  ∀ s w ws, Idle s → Quiet s → Calls s (w :: ws) → hopOp w = 4 →
    ∃ t r1 r2, runFor 6 s = .next t ∧ Idle t ∧ t.err = 0 ∧ t.R = s.R ∧ t.RX = s.RX ∧
      t.trace = s.trace ++ [.start .writeStatus (hopAddr w) (hopData w)] ++
        windowEvents [0x01, loByte (hopData w)] [r1, r2] ++ [.done .writeStatus .ok] ∧
      t.HI = s.HI ∧ t.np = s.np ∧ OpFrame s w ws t ∧ ∀ a, t.dev.mem.read a = s.dev.mem.read a

/-- R122, R126: WRITE_BYTE against a device that answers the polls with WIP = 1 exactly `N` times and then WIP = 0, with
`POLL_LIMIT` none or greater than `N`: WREN window, WRITE window, exactly `N + 1` RDSR windows, `Ok`. Lines not ready:
log 9; R and HI kept: log 28. -/
def Obligations.WriteByteRun : Prop :=
  ∀ s w ws r0 r1 r2 r3 r4 busy j st rest, Idle s → Quiet s → Calls s (w :: ws) → hopOp w = 5 → s.dev.mode = .open →
    s.env.replies = [r0, r1, r2, r3, r4] ++ pollReplies (busy ++ [(j, st)]) ++ rest →
    (∀ x ∈ busy, wip x.2 = true) → wip st = false → (∀ l, s.par.pollLimit = some l → busy.length < l) →
    ∃ t, runFor (12 + 5 * (busy.length + 1)) s = .next t ∧ Idle t ∧ t.err = 0 ∧ t.np = busy.length + 1 ∧
      t.trace = s.trace ++ [.start .writeByte (hopAddr w) (hopData w)] ++ windowEvents [0x06] [r0] ++
        windowEvents [0x02, hiByte (hopAddr w), loByte (hopAddr w), loByte (hopData w)] [r1, r2, r3, r4] ++
        pollEvents s.par.dummy (busy ++ [(j, st)]) ++ [.done .writeByte .ok] ∧
      t.R = s.R ∧ t.HI = s.HI ∧ t.RX = st ∧ OpFrame s w ws t ∧ t.env.replies = rest

/-- R120, R127, R128 (f): WRITE_WORD as two whole WRITE_BYTE sequences, high byte at the address, low byte at the address
plus one modulo 2^16, the second WREN only after the first poll has seen WIP = 0. Lines not ready: log 9; R and HI kept:
log 28. -/
def Obligations.WriteWordRun : Prop :=
  ∀ s w ws r0 r1 r2 r3 r4 busy j st q0 q1 q2 q3 q4 busy' j' st' rest,
    Idle s → Quiet s → Calls s (w :: ws) → hopOp w = 2 → s.dev.mode = .open →
    s.env.replies = [r0, r1, r2, r3, r4] ++ pollReplies (busy ++ [(j, st)]) ++
      ([q0, q1, q2, q3, q4] ++ pollReplies (busy' ++ [(j', st')]) ++ rest) →
    (∀ x ∈ busy, wip x.2 = true) → wip st = false → (∀ x ∈ busy', wip x.2 = true) → wip st' = false →
    (∀ l, s.par.pollLimit = some l → busy.length < l ∧ busy'.length < l) →
    ∃ t, runFor (12 + 5 * (busy.length + 1) + (11 + 5 * (busy'.length + 1))) s = .next t ∧ Idle t ∧ t.err = 0 ∧
      t.np = busy'.length + 1 ∧
      t.trace = s.trace ++ [.start .writeWord (hopAddr w) (hopData w)] ++ windowEvents [0x06] [r0] ++
        windowEvents [0x02, hiByte (hopAddr w), loByte (hopAddr w), hiByte (hopData w)] [r1, r2, r3, r4] ++
        pollEvents s.par.dummy (busy ++ [(j, st)]) ++ windowEvents [0x06] [q0] ++
        windowEvents [0x02, hiByte (hopAddr w + 1), loByte (hopAddr w + 1), loByte (hopData w)] [q1, q2, q3, q4] ++
        pollEvents s.par.dummy (busy' ++ [(j', st')]) ++ [.done .writeWord .ok] ∧
      t.R = s.R ∧ t.HI = s.HI ∧ t.RX = st' ∧ OpFrame s w ws t ∧ t.env.replies = rest

/-- R125, R152: with `POLL_LIMIT = some L`, `L` status reads in a row that all return WIP = 1 end the operation with
`DeviceTimeout` after exactly `L` RDSR windows; the low byte of a word is not attempted; the block is idle, accepts
further operations, chip-select HIGH, the device left as it is. With `POLL_LIMIT = none` no step ends with that error. R
and HI kept once the block is idle again: log 28. -/
def Obligations.BoundedPollTimesOut : Prop :=
  (∀ s t o, s.par.pollLimit = none → step s = .next t → t.trace ≠ s.trace ++ [.done o .errDeviceTimeout]) ∧
  ∀ (s : State) polls rest, s.q = .wbPoll → s.ph = .idle → s.np = 0 → Waits s → Quiet s → s.dev.mode = .open →
    s.par.pollLimit = some polls.length → 1 ≤ polls.length → (∀ x ∈ polls, wip x.2 = true) →
    s.env.replies = pollReplies polls ++ rest →
    ∃ t, runFor (5 * polls.length) s = .next t ∧ Idle t ∧ t.err = 1 ∧ t.np = polls.length ∧ t.cs.lvl = .high ∧
      t.trace = s.trace ++ pollEvents s.par.dummy polls ++ [.done s.op .errDeviceTimeout] ∧
      t.op = s.op ∧ t.bi = s.bi ∧ t.A = s.A ∧ t.V = s.V ∧ t.R = s.R ∧ t.HI = s.HI ∧ t.dev = s.dev ∧
      t.env.replies = rest ∧ ∀ a v, ∃ u, exec (.readStatus a v) t = .next u

/-- R154, R177: with `POLL_LIMIT = none`, as long as the environment answers WIP = 1 the block stays in the poll, for any
number of status reads, emitting nothing but RDSR windows; it stays busy and accepts no `Start`. -/
def Obligations.UnboundedPollNeverEnds : Prop :=
  ∀ (s : State) polls rest, s.q = .wbPoll → s.ph = .idle → Waits s → Quiet s → s.dev.mode = .open →
    s.par.pollLimit = none → (∀ x ∈ polls, wip x.2 = true) → s.env.replies = pollReplies polls ++ rest →
    ∃ t, runFor (5 * polls.length) s = .next t ∧ t.q = .wbPoll ∧ t.ph = .idle ∧ t.busy = true ∧
      t.np = s.np + polls.length ∧ t.trace = s.trace ++ pollEvents s.par.dummy polls ∧
      ∀ i, i.isHost = true → i.wellFormed = true → exec i t = .refused .startWhileBusy

/-- R49 (c), R48: on the reference device with `N_WR = N`, WRITE_BYTE issues exactly `N + 1` status reads, and the byte is
then in the array, WEL and WIP clear; `POLL_LIMIT` none or above `N`. -/
def Obligations.ReferenceWritePollCount : Prop :=
  ∀ s w ws n ns, Idle s → Quiet s → Calls s (w :: ws) → hopOp w = 5 → s.linesReady = true → s.dev.mode = .reference →
    s.dev.busyLeft = 0 → s.env.nWr = n :: ns → (∀ l, s.par.pollLimit = some l → n < l) →
    ∃ t, runFor (12 + 5 * (n + 1)) s = .next t ∧ Idle t ∧ t.err = 0 ∧ t.np = n + 1 ∧ t.linesReady = true ∧
      Calls t ws ∧ t.dev.mode = .reference ∧ t.dev.wel = false ∧ t.dev.busyLeft = 0 ∧
      t.dev.mem.read (s.location (hopAddr w)) = some (loByte (hopData w)) ∧
      ∀ k, k ≠ s.location (hopAddr w) → t.dev.mem.read k = s.dev.mem.read k

/-- R49 (a), the document's round trip: for every address and value, WRITE_WORD and then READ_WORD of the same address
return the value, on the reference device idle at the start, lines ready, for any `N_WR` (fixed by the state or free) with
`POLL_LIMIT` none, and for the `N_WR` of the two bytes below `POLL_LIMIT` otherwise. -/
def Obligations.WordRoundTripOnReferenceDevice : Prop :=
  ∀ s a v x, Idle s → Quiet s → Calls s [hopWord 2 a v, hopWord 1 a x] → s.linesReady = true →
    s.dev.mode = .reference → s.dev.busyLeft = 0 → s.par.devAddrMask = 0x7FFF →
    (s.par.pollLimit = none ∨ ∃ n m ns, s.env.nWr = n :: m :: ns ∧ ∀ l, s.par.pollLimit = some l → n < l ∧ m < l) →
    ∃ n t, runFor n s = .next t ∧ Idle t ∧ t.moves = [] ∧ t.R = v ∧
      t.trace.getLast? = some (.done .readWord (.okValue v))
end

