-- ==== Sys2Proof/Laws/Decode.lean ====
section
/-! SUPPORT. The laws of the bit fields: halves of an address, fields of a host command word. -/

namespace Sys2Proof

/-- Bits of `h ++ l` (R32). -/
theorem joinBytes_getLsbD (h l : Byte) (i : Nat) :
    (joinBytes h l).getLsbD i = if i < 8 then l.getLsbD i else h.getLsbD (i - 8) := by
  have := BitVec.getLsbD_append (x := h) (y := l) (i := i)
  unfold joinBytes
  split <;> simp_all

/-- Bits of a host command word (R60). -/
theorem hopWord_getLsbD (o : BitVec 3) (a v : Half) (i : Nat) :
    (hopWord o a v).getLsbD i =
      if i < 16 then v.getLsbD i else if i < 32 then a.getLsbD (i - 16) else o.getLsbD (i - 32) := by
  have h1 := BitVec.getLsbD_append (x := o ++ a) (y := v) (i := i)
  have h2 := BitVec.getLsbD_append (x := o) (y := a) (i := i - 16)
  unfold hopWord
  split
  · simp_all
  · have h3 : i - 16 < 16 ↔ i < 32 := by omega
    have h4 : i - 16 - 16 = i - 32 := by omega
    simp_all

@[simp] theorem hiByte_joinBytes (h l : Byte) : hiByte (joinBytes h l) = h := by
  apply BitVec.eq_of_getLsbD_eq
  intro i hi
  simp [hiByte, hi, joinBytes_getLsbD]

@[simp] theorem loByte_joinBytes (h l : Byte) : loByte (joinBytes h l) = l := by
  apply BitVec.eq_of_getLsbD_eq
  intro i hi
  simp [loByte, hi, joinBytes_getLsbD]

@[simp] theorem joinBytes_hiByte_loByte (a : Half) : joinBytes (hiByte a) (loByte a) = a := by
  apply BitVec.eq_of_getLsbD_eq
  intro i hi
  rw [joinBytes_getLsbD]
  split
  · simp_all [loByte]
  · have h1 : i - 8 < 8 := by omega
    have h2 : 8 + (i - 8) = i := by omega
    simp [hiByte, h1, h2]

@[simp] theorem hopOp_hopWord (o : BitVec 3) (a v : Half) : hopOp (hopWord o a v) = o := by
  apply BitVec.eq_of_getLsbD_eq
  intro i hi
  have h1 : ¬32 + i < 16 := by omega
  simp [hopOp, hi, hopWord_getLsbD, h1]

@[simp] theorem hopAddr_hopWord (o : BitVec 3) (a v : Half) : hopAddr (hopWord o a v) = a := by
  apply BitVec.eq_of_getLsbD_eq
  intro i hi
  have h1 : 16 + i < 32 := by omega
  simp [hopAddr, hi, hopWord_getLsbD, h1]

@[simp] theorem hopData_hopWord (o : BitVec 3) (a v : Half) : hopData (hopWord o a v) = v := by
  apply BitVec.eq_of_getLsbD_eq
  intro i hi
  simp [hopData, hi, hopWord_getLsbD]

/-- A host command word is its fields. -/
theorem hopWord_fields (w : HostWord) : hopWord (hopOp w) (hopAddr w) (hopData w) = w := by
  apply BitVec.eq_of_getLsbD_eq
  intro i hi
  rw [hopWord_getLsbD]
  split
  · simp_all [hopData]
  · split
    · have h1 : i - 16 < 16 := by omega
      have h2 : 16 + (i - 16) = i := by omega
      simp [hopAddr, h1, h2]
    · have h1 : i - 32 < 3 := by omega
      have h2 : 32 + (i - 32) = i := by omega
      simp [hopOp, h1, h2]

/-- `zext_16` keeps the byte and clears the high half (R56). -/
@[simp] theorem hiByte_zext16 (b : Byte) : hiByte (zext16 b) = 0 := by
  apply BitVec.eq_of_getLsbD_eq
  intro i hi
  simp [hiByte, zext16]

@[simp] theorem loByte_zext16 (b : Byte) : loByte (zext16 b) = b := by
  apply BitVec.eq_of_getLsbD_eq
  intro i hi
  have : i < 16 := by omega
  simp [loByte, zext16, hi, this]

end Sys2Proof
end

