-- ==== Sys2Proof/Laws/State.lean ====
section
/-! SUPPORT. What each update of the state does to each field, so that no proof unfolds a record update. -/

namespace Sys2Proof.Machine

open Sys2Proof

/-! `State.emit` -/

@[simp] theorem State.emit_par (s : State) (e : Event) : (s.emit e).par = s.par := rfl
@[simp] theorem State.emit_A (s : State) (e : Event) : (s.emit e).A = s.A := rfl
@[simp] theorem State.emit_V (s : State) (e : Event) : (s.emit e).V = s.V := rfl
@[simp] theorem State.emit_RX (s : State) (e : Event) : (s.emit e).RX = s.RX := rfl
@[simp] theorem State.emit_HI (s : State) (e : Event) : (s.emit e).HI = s.HI := rfl
@[simp] theorem State.emit_R (s : State) (e : Event) : (s.emit e).R = s.R := rfl
@[simp] theorem State.emit_np (s : State) (e : Event) : (s.emit e).np = s.np := rfl
@[simp] theorem State.emit_q (s : State) (e : Event) : (s.emit e).q = s.q := rfl
@[simp] theorem State.emit_op (s : State) (e : Event) : (s.emit e).op = s.op := rfl
@[simp] theorem State.emit_bi (s : State) (e : Event) : (s.emit e).bi = s.bi := rfl
@[simp] theorem State.emit_ph (s : State) (e : Event) : (s.emit e).ph = s.ph := rfl
@[simp] theorem State.emit_err (s : State) (e : Event) : (s.emit e).err = s.err := rfl
@[simp] theorem State.emit_cs (s : State) (e : Event) : (s.emit e).cs = s.cs := rfl
@[simp] theorem State.emit_hold (s : State) (e : Event) : (s.emit e).hold = s.hold := rfl
@[simp] theorem State.emit_wp (s : State) (e : Event) : (s.emit e).wp = s.wp := rfl
@[simp] theorem State.emit_dev (s : State) (e : Event) : (s.emit e).dev = s.dev := rfl
@[simp] theorem State.emit_env (s : State) (e : Event) : (s.emit e).env = s.env := rfl
@[simp] theorem State.emit_moves (s : State) (e : Event) : (s.emit e).moves = s.moves := rfl
@[simp] theorem State.emit_bench (s : State) (e : Event) : (s.emit e).bench = s.bench := rfl
@[simp] theorem State.emit_trace (s : State) (e : Event) : (s.emit e).trace = s.trace ++ [e] := rfl

/-! `State.toQ` -/

@[simp] theorem State.toQ_par (s : State) (x : SeqState) : (s.toQ x).par = s.par := rfl
@[simp] theorem State.toQ_A (s : State) (x : SeqState) : (s.toQ x).A = s.A := rfl
@[simp] theorem State.toQ_V (s : State) (x : SeqState) : (s.toQ x).V = s.V := rfl
@[simp] theorem State.toQ_RX (s : State) (x : SeqState) : (s.toQ x).RX = s.RX := rfl
@[simp] theorem State.toQ_HI (s : State) (x : SeqState) : (s.toQ x).HI = s.HI := rfl
@[simp] theorem State.toQ_R (s : State) (x : SeqState) : (s.toQ x).R = s.R := rfl
@[simp] theorem State.toQ_np (s : State) (x : SeqState) : (s.toQ x).np = s.np := rfl
@[simp] theorem State.toQ_q (s : State) (x : SeqState) : (s.toQ x).q = x := rfl
@[simp] theorem State.toQ_op (s : State) (x : SeqState) : (s.toQ x).op = s.op := rfl
@[simp] theorem State.toQ_bi (s : State) (x : SeqState) : (s.toQ x).bi = s.bi := rfl
@[simp] theorem State.toQ_ph (s : State) (x : SeqState) : (s.toQ x).ph = s.ph := rfl
@[simp] theorem State.toQ_err (s : State) (x : SeqState) : (s.toQ x).err = s.err := rfl
@[simp] theorem State.toQ_cs (s : State) (x : SeqState) : (s.toQ x).cs = s.cs := rfl
@[simp] theorem State.toQ_hold (s : State) (x : SeqState) : (s.toQ x).hold = s.hold := rfl
@[simp] theorem State.toQ_wp (s : State) (x : SeqState) : (s.toQ x).wp = s.wp := rfl
@[simp] theorem State.toQ_dev (s : State) (x : SeqState) : (s.toQ x).dev = s.dev := rfl
@[simp] theorem State.toQ_env (s : State) (x : SeqState) : (s.toQ x).env = s.env := rfl
@[simp] theorem State.toQ_moves (s : State) (x : SeqState) : (s.toQ x).moves = s.moves := rfl
@[simp] theorem State.toQ_bench (s : State) (x : SeqState) : (s.toQ x).bench = s.bench := rfl
@[simp] theorem State.toQ_trace (s : State) (x : SeqState) : (s.toQ x).trace = s.trace := rfl

/-! `State.toPh` -/

@[simp] theorem State.toPh_par (s : State) (p : Phase) : (s.toPh p).par = s.par := rfl
@[simp] theorem State.toPh_A (s : State) (p : Phase) : (s.toPh p).A = s.A := rfl
@[simp] theorem State.toPh_V (s : State) (p : Phase) : (s.toPh p).V = s.V := rfl
@[simp] theorem State.toPh_RX (s : State) (p : Phase) : (s.toPh p).RX = s.RX := rfl
@[simp] theorem State.toPh_HI (s : State) (p : Phase) : (s.toPh p).HI = s.HI := rfl
@[simp] theorem State.toPh_R (s : State) (p : Phase) : (s.toPh p).R = s.R := rfl
@[simp] theorem State.toPh_np (s : State) (p : Phase) : (s.toPh p).np = s.np := rfl
@[simp] theorem State.toPh_q (s : State) (p : Phase) : (s.toPh p).q = s.q := rfl
@[simp] theorem State.toPh_op (s : State) (p : Phase) : (s.toPh p).op = s.op := rfl
@[simp] theorem State.toPh_bi (s : State) (p : Phase) : (s.toPh p).bi = s.bi := rfl
@[simp] theorem State.toPh_ph (s : State) (p : Phase) : (s.toPh p).ph = p := rfl
@[simp] theorem State.toPh_err (s : State) (p : Phase) : (s.toPh p).err = s.err := rfl
@[simp] theorem State.toPh_cs (s : State) (p : Phase) : (s.toPh p).cs = s.cs := rfl
@[simp] theorem State.toPh_hold (s : State) (p : Phase) : (s.toPh p).hold = s.hold := rfl
@[simp] theorem State.toPh_wp (s : State) (p : Phase) : (s.toPh p).wp = s.wp := rfl
@[simp] theorem State.toPh_dev (s : State) (p : Phase) : (s.toPh p).dev = s.dev := rfl
@[simp] theorem State.toPh_env (s : State) (p : Phase) : (s.toPh p).env = s.env := rfl
@[simp] theorem State.toPh_moves (s : State) (p : Phase) : (s.toPh p).moves = s.moves := rfl
@[simp] theorem State.toPh_bench (s : State) (p : Phase) : (s.toPh p).bench = s.bench := rfl
@[simp] theorem State.toPh_trace (s : State) (p : Phase) : (s.toPh p).trace = s.trace := rfl

/-! `State.popFault` -/

@[simp] theorem State.popFault_par (s : State) : (s.popFault).par = s.par := rfl
@[simp] theorem State.popFault_A (s : State) : (s.popFault).A = s.A := rfl
@[simp] theorem State.popFault_V (s : State) : (s.popFault).V = s.V := rfl
@[simp] theorem State.popFault_RX (s : State) : (s.popFault).RX = s.RX := rfl
@[simp] theorem State.popFault_HI (s : State) : (s.popFault).HI = s.HI := rfl
@[simp] theorem State.popFault_R (s : State) : (s.popFault).R = s.R := rfl
@[simp] theorem State.popFault_np (s : State) : (s.popFault).np = s.np := rfl
@[simp] theorem State.popFault_q (s : State) : (s.popFault).q = s.q := rfl
@[simp] theorem State.popFault_op (s : State) : (s.popFault).op = s.op := rfl
@[simp] theorem State.popFault_bi (s : State) : (s.popFault).bi = s.bi := rfl
@[simp] theorem State.popFault_ph (s : State) : (s.popFault).ph = s.ph := rfl
@[simp] theorem State.popFault_err (s : State) : (s.popFault).err = s.err := rfl
@[simp] theorem State.popFault_cs (s : State) : (s.popFault).cs = s.cs := rfl
@[simp] theorem State.popFault_hold (s : State) : (s.popFault).hold = s.hold := rfl
@[simp] theorem State.popFault_wp (s : State) : (s.popFault).wp = s.wp := rfl
@[simp] theorem State.popFault_dev (s : State) : (s.popFault).dev = s.dev := rfl
@[simp] theorem State.popFault_moves (s : State) : (s.popFault).moves = s.moves := rfl
@[simp] theorem State.popFault_bench (s : State) : (s.popFault).bench = s.bench := rfl
@[simp] theorem State.popFault_trace (s : State) : (s.popFault).trace = s.trace := rfl

/-! `State.started` -/

@[simp] theorem State.started_par (s : State) (o : HostOp) (a v : Half) : (s.started o a v).par = s.par := rfl
@[simp] theorem State.started_A (s : State) (o : HostOp) (a v : Half) : (s.started o a v).A = a := rfl
@[simp] theorem State.started_V (s : State) (o : HostOp) (a v : Half) : (s.started o a v).V = v := rfl
@[simp] theorem State.started_RX (s : State) (o : HostOp) (a v : Half) : (s.started o a v).RX = s.RX := rfl
@[simp] theorem State.started_HI (s : State) (o : HostOp) (a v : Half) : (s.started o a v).HI = s.HI := rfl
@[simp] theorem State.started_R (s : State) (o : HostOp) (a v : Half) : (s.started o a v).R = s.R := rfl
@[simp] theorem State.started_np (s : State) (o : HostOp) (a v : Half) : (s.started o a v).np = s.np := rfl
@[simp] theorem State.started_q (s : State) (o : HostOp) (a v : Half) : (s.started o a v).q = o.firstState := rfl
@[simp] theorem State.started_op (s : State) (o : HostOp) (a v : Half) : (s.started o a v).op = o := rfl
@[simp] theorem State.started_bi (s : State) (o : HostOp) (a v : Half) : (s.started o a v).bi = 0 := rfl
@[simp] theorem State.started_ph (s : State) (o : HostOp) (a v : Half) : (s.started o a v).ph = s.ph := rfl
@[simp] theorem State.started_err (s : State) (o : HostOp) (a v : Half) : (s.started o a v).err = s.err := rfl
@[simp] theorem State.started_cs (s : State) (o : HostOp) (a v : Half) : (s.started o a v).cs = s.cs := rfl
@[simp] theorem State.started_hold (s : State) (o : HostOp) (a v : Half) : (s.started o a v).hold = s.hold := rfl
@[simp] theorem State.started_wp (s : State) (o : HostOp) (a v : Half) : (s.started o a v).wp = s.wp := rfl
@[simp] theorem State.started_dev (s : State) (o : HostOp) (a v : Half) : (s.started o a v).dev = s.dev := rfl
@[simp] theorem State.started_env (s : State) (o : HostOp) (a v : Half) : (s.started o a v).env = s.env := rfl
@[simp] theorem State.started_moves (s : State) (o : HostOp) (a v : Half) : (s.started o a v).moves = s.moves := rfl
@[simp] theorem State.started_bench (s : State) (o : HostOp) (a v : Half) : (s.started o a v).bench = s.bench := rfl
@[simp] theorem State.started_trace (s : State) (o : HostOp) (a v : Half) :
    (s.started o a v).trace = s.trace ++ [.start o a v] := rfl

/-! `finish` -/

@[simp] theorem finish_par (s : State) (r : Result) : (finish r s).par = s.par := rfl
@[simp] theorem finish_A (s : State) (r : Result) : (finish r s).A = s.A := rfl
@[simp] theorem finish_V (s : State) (r : Result) : (finish r s).V = s.V := rfl
@[simp] theorem finish_RX (s : State) (r : Result) : (finish r s).RX = s.RX := rfl
@[simp] theorem finish_HI (s : State) (r : Result) : (finish r s).HI = s.HI := rfl
@[simp] theorem finish_R (s : State) (r : Result) : (finish r s).R = s.R := rfl
@[simp] theorem finish_np (s : State) (r : Result) : (finish r s).np = s.np := rfl
@[simp] theorem finish_q (s : State) (r : Result) : (finish r s).q = .idle := rfl
@[simp] theorem finish_op (s : State) (r : Result) : (finish r s).op = s.op := rfl
@[simp] theorem finish_bi (s : State) (r : Result) : (finish r s).bi = s.bi := rfl
@[simp] theorem finish_ph (s : State) (r : Result) : (finish r s).ph = s.ph := rfl
@[simp] theorem finish_err (s : State) (r : Result) : (finish r s).err = r.code := rfl
@[simp] theorem finish_cs (s : State) (r : Result) : (finish r s).cs = s.cs := rfl
@[simp] theorem finish_hold (s : State) (r : Result) : (finish r s).hold = s.hold := rfl
@[simp] theorem finish_wp (s : State) (r : Result) : (finish r s).wp = s.wp := rfl
@[simp] theorem finish_dev (s : State) (r : Result) : (finish r s).dev = s.dev := rfl
@[simp] theorem finish_env (s : State) (r : Result) : (finish r s).env = s.env := rfl
@[simp] theorem finish_moves (s : State) (r : Result) : (finish r s).moves = s.moves := rfl
@[simp] theorem finish_bench (s : State) (r : Result) : (finish r s).bench = s.bench := rfl
@[simp] theorem finish_trace (s : State) (r : Result) : (finish r s).trace = s.trace ++ [.done s.op r] := rfl

/-! `takeBusFault` -/

@[simp] theorem takeBusFault_par (s : State) : (takeBusFault s).par = s.par := rfl
@[simp] theorem takeBusFault_A (s : State) : (takeBusFault s).A = s.A := rfl
@[simp] theorem takeBusFault_V (s : State) : (takeBusFault s).V = s.V := rfl
@[simp] theorem takeBusFault_RX (s : State) : (takeBusFault s).RX = s.RX := rfl
@[simp] theorem takeBusFault_HI (s : State) : (takeBusFault s).HI = s.HI := rfl
@[simp] theorem takeBusFault_R (s : State) : (takeBusFault s).R = s.R := rfl
@[simp] theorem takeBusFault_np (s : State) : (takeBusFault s).np = s.np := rfl
@[simp] theorem takeBusFault_q (s : State) : (takeBusFault s).q = .faulted := rfl
@[simp] theorem takeBusFault_op (s : State) : (takeBusFault s).op = s.op := rfl
@[simp] theorem takeBusFault_bi (s : State) : (takeBusFault s).bi = s.bi := rfl
@[simp] theorem takeBusFault_ph (s : State) : (takeBusFault s).ph = s.ph := rfl
@[simp] theorem takeBusFault_err (s : State) : (takeBusFault s).err = busFaultCode := rfl
@[simp] theorem takeBusFault_cs (s : State) : (takeBusFault s).cs = s.cs := rfl
@[simp] theorem takeBusFault_hold (s : State) : (takeBusFault s).hold = s.hold := rfl
@[simp] theorem takeBusFault_wp (s : State) : (takeBusFault s).wp = s.wp := rfl
@[simp] theorem takeBusFault_dev (s : State) : (takeBusFault s).dev = if s.ph.inWindow then s.dev.lost else s.dev := rfl
@[simp] theorem takeBusFault_env (s : State) : (takeBusFault s).env = s.env := rfl
@[simp] theorem takeBusFault_moves (s : State) : (takeBusFault s).moves = s.moves := rfl
@[simp] theorem takeBusFault_bench (s : State) : (takeBusFault s).bench = s.bench := rfl
@[simp] theorem takeBusFault_trace (s : State) : (takeBusFault s).trace = s.trace ++ [.busFault] := rfl

/-! `resetBlock` -/

@[simp] theorem resetBlock_par (s : State) : (resetBlock s).par = s.par := rfl
@[simp] theorem resetBlock_A (s : State) : (resetBlock s).A = 0 := rfl
@[simp] theorem resetBlock_V (s : State) : (resetBlock s).V = 0 := rfl
@[simp] theorem resetBlock_RX (s : State) : (resetBlock s).RX = 0 := rfl
@[simp] theorem resetBlock_HI (s : State) : (resetBlock s).HI = 0 := rfl
@[simp] theorem resetBlock_R (s : State) : (resetBlock s).R = 0 := rfl
@[simp] theorem resetBlock_np (s : State) : (resetBlock s).np = 0 := rfl
@[simp] theorem resetBlock_q (s : State) : (resetBlock s).q = .idle := rfl
@[simp] theorem resetBlock_op (s : State) : (resetBlock s).op = .init := rfl
@[simp] theorem resetBlock_bi (s : State) : (resetBlock s).bi = 0 := rfl
@[simp] theorem resetBlock_ph (s : State) : (resetBlock s).ph = .idle := rfl
@[simp] theorem resetBlock_err (s : State) : (resetBlock s).err = 0 := rfl
@[simp] theorem resetBlock_cs (s : State) : (resetBlock s).cs = Line.reset := rfl
@[simp] theorem resetBlock_hold (s : State) : (resetBlock s).hold = Line.reset := rfl
@[simp] theorem resetBlock_wp (s : State) : (resetBlock s).wp = Line.reset := rfl
@[simp] theorem resetBlock_dev (s : State) : (resetBlock s).dev = if s.ph.inWindow then s.dev.lost else s.dev := rfl
@[simp] theorem resetBlock_env (s : State) : (resetBlock s).env = s.env := rfl
@[simp] theorem resetBlock_moves (s : State) : (resetBlock s).moves = s.moves := rfl
@[simp] theorem resetBlock_bench (s : State) : (resetBlock s).bench = s.bench := rfl
@[simp] theorem resetBlock_trace (s : State) : (resetBlock s).trace = s.trace := rfl

@[simp] theorem State.popFault_faults (s : State) : s.popFault.env.faults = s.env.faults.tail := rfl
@[simp] theorem State.popFault_replies (s : State) : s.popFault.env.replies = s.env.replies := rfl
@[simp] theorem State.popFault_nWr (s : State) : s.popFault.env.nWr = s.env.nWr := rfl
@[simp] theorem State.popFault_nSr (s : State) : s.popFault.env.nSr = s.env.nSr := rfl
@[simp] theorem State.popFault_accepts (s : State) : s.popFault.env.accepts = s.env.accepts := rfl
@[simp] theorem State.popFault_tick (s : State) : s.popFault.env.tick = s.env.tick := rfl

/-! The world outside the block -/

/-- The state with another device and other choices of the environment: all that a device's part of a step changes. -/
def State.withWorld (d : Device) (e : Env) (s : State) : State := { s with dev := d, env := e }

@[simp] theorem State.withWorld_par (s : State) (d : Device) (e : Env) : (s.withWorld d e).par = s.par := rfl
@[simp] theorem State.withWorld_A (s : State) (d : Device) (e : Env) : (s.withWorld d e).A = s.A := rfl
@[simp] theorem State.withWorld_V (s : State) (d : Device) (e : Env) : (s.withWorld d e).V = s.V := rfl
@[simp] theorem State.withWorld_RX (s : State) (d : Device) (e : Env) : (s.withWorld d e).RX = s.RX := rfl
@[simp] theorem State.withWorld_HI (s : State) (d : Device) (e : Env) : (s.withWorld d e).HI = s.HI := rfl
@[simp] theorem State.withWorld_R (s : State) (d : Device) (e : Env) : (s.withWorld d e).R = s.R := rfl
@[simp] theorem State.withWorld_np (s : State) (d : Device) (e : Env) : (s.withWorld d e).np = s.np := rfl
@[simp] theorem State.withWorld_q (s : State) (d : Device) (e : Env) : (s.withWorld d e).q = s.q := rfl
@[simp] theorem State.withWorld_op (s : State) (d : Device) (e : Env) : (s.withWorld d e).op = s.op := rfl
@[simp] theorem State.withWorld_bi (s : State) (d : Device) (e : Env) : (s.withWorld d e).bi = s.bi := rfl
@[simp] theorem State.withWorld_ph (s : State) (d : Device) (e : Env) : (s.withWorld d e).ph = s.ph := rfl
@[simp] theorem State.withWorld_err (s : State) (d : Device) (e : Env) : (s.withWorld d e).err = s.err := rfl
@[simp] theorem State.withWorld_cs (s : State) (d : Device) (e : Env) : (s.withWorld d e).cs = s.cs := rfl
@[simp] theorem State.withWorld_hold (s : State) (d : Device) (e : Env) : (s.withWorld d e).hold = s.hold := rfl
@[simp] theorem State.withWorld_wp (s : State) (d : Device) (e : Env) : (s.withWorld d e).wp = s.wp := rfl
@[simp] theorem State.withWorld_dev (s : State) (d : Device) (e : Env) : (s.withWorld d e).dev = d := rfl
@[simp] theorem State.withWorld_env (s : State) (d : Device) (e : Env) : (s.withWorld d e).env = e := rfl
@[simp] theorem State.withWorld_moves (s : State) (d : Device) (e : Env) : (s.withWorld d e).moves = s.moves := rfl
@[simp] theorem State.withWorld_bench (s : State) (d : Device) (e : Env) : (s.withWorld d e).bench = s.bench := rfl
@[simp] theorem State.withWorld_trace (s : State) (d : Device) (e : Env) : (s.withWorld d e).trace = s.trace := rfl
@[simp] theorem State.withWorld_self (s : State) : s.withWorld s.dev s.env = s := rfl

/-! `latchRx` -/

@[simp] theorem latchRx_par (p : Phase) (r : Byte) (s : State) : (latchRx p r s).par = s.par := rfl
@[simp] theorem latchRx_A (p : Phase) (r : Byte) (s : State) : (latchRx p r s).A = s.A := rfl
@[simp] theorem latchRx_V (p : Phase) (r : Byte) (s : State) : (latchRx p r s).V = s.V := rfl
@[simp] theorem latchRx_RX (p : Phase) (r : Byte) (s : State) : (latchRx p r s).RX = r := rfl
@[simp] theorem latchRx_HI (p : Phase) (r : Byte) (s : State) : (latchRx p r s).HI = s.HI := rfl
@[simp] theorem latchRx_R (p : Phase) (r : Byte) (s : State) : (latchRx p r s).R = s.R := rfl
@[simp] theorem latchRx_np (p : Phase) (r : Byte) (s : State) : (latchRx p r s).np = s.np := rfl
@[simp] theorem latchRx_q (p : Phase) (r : Byte) (s : State) : (latchRx p r s).q = s.q := rfl
@[simp] theorem latchRx_op (p : Phase) (r : Byte) (s : State) : (latchRx p r s).op = s.op := rfl
@[simp] theorem latchRx_bi (p : Phase) (r : Byte) (s : State) : (latchRx p r s).bi = s.bi := rfl
@[simp] theorem latchRx_ph (p : Phase) (r : Byte) (s : State) : (latchRx p r s).ph = p := rfl
@[simp] theorem latchRx_err (p : Phase) (r : Byte) (s : State) : (latchRx p r s).err = s.err := rfl
@[simp] theorem latchRx_cs (p : Phase) (r : Byte) (s : State) : (latchRx p r s).cs = s.cs := rfl
@[simp] theorem latchRx_hold (p : Phase) (r : Byte) (s : State) : (latchRx p r s).hold = s.hold := rfl
@[simp] theorem latchRx_wp (p : Phase) (r : Byte) (s : State) : (latchRx p r s).wp = s.wp := rfl
@[simp] theorem latchRx_dev (p : Phase) (r : Byte) (s : State) : (latchRx p r s).dev = s.dev := rfl
@[simp] theorem latchRx_env (p : Phase) (r : Byte) (s : State) : (latchRx p r s).env = s.env := rfl
@[simp] theorem latchRx_moves (p : Phase) (r : Byte) (s : State) : (latchRx p r s).moves = s.moves := rfl
@[simp] theorem latchRx_bench (p : Phase) (r : Byte) (s : State) : (latchRx p r s).bench = s.bench := rfl
@[simp] theorem latchRx_trace (p : Phase) (r : Byte) (s : State) : (latchRx p r s).trace = s.trace := rfl
@[simp] theorem latchRx_line (p : Phase) (r : Byte) (s : State) (l : LineId) : (latchRx p r s).line l = s.line l := by
  cases l <;> rfl

/-! The moves taken up -/

/-- The state with other coming moves and bench frames: all that taking something up changes. -/
def State.withInputs (ms : List Move) (b : List (List Byte)) (s : State) : State := { s with moves := ms, bench := b }

@[simp] theorem State.withInputs_par (s : State) (ms : List Move) (b : List (List Byte)) :
    (s.withInputs ms b).par = s.par := rfl
@[simp] theorem State.withInputs_A (s : State) (ms : List Move) (b : List (List Byte)) :
    (s.withInputs ms b).A = s.A := rfl
@[simp] theorem State.withInputs_V (s : State) (ms : List Move) (b : List (List Byte)) :
    (s.withInputs ms b).V = s.V := rfl
@[simp] theorem State.withInputs_RX (s : State) (ms : List Move) (b : List (List Byte)) :
    (s.withInputs ms b).RX = s.RX := rfl
@[simp] theorem State.withInputs_HI (s : State) (ms : List Move) (b : List (List Byte)) :
    (s.withInputs ms b).HI = s.HI := rfl
@[simp] theorem State.withInputs_R (s : State) (ms : List Move) (b : List (List Byte)) :
    (s.withInputs ms b).R = s.R := rfl
@[simp] theorem State.withInputs_np (s : State) (ms : List Move) (b : List (List Byte)) :
    (s.withInputs ms b).np = s.np := rfl
@[simp] theorem State.withInputs_q (s : State) (ms : List Move) (b : List (List Byte)) :
    (s.withInputs ms b).q = s.q := rfl
@[simp] theorem State.withInputs_op (s : State) (ms : List Move) (b : List (List Byte)) :
    (s.withInputs ms b).op = s.op := rfl
@[simp] theorem State.withInputs_bi (s : State) (ms : List Move) (b : List (List Byte)) :
    (s.withInputs ms b).bi = s.bi := rfl
@[simp] theorem State.withInputs_ph (s : State) (ms : List Move) (b : List (List Byte)) :
    (s.withInputs ms b).ph = s.ph := rfl
@[simp] theorem State.withInputs_err (s : State) (ms : List Move) (b : List (List Byte)) :
    (s.withInputs ms b).err = s.err := rfl
@[simp] theorem State.withInputs_cs (s : State) (ms : List Move) (b : List (List Byte)) :
    (s.withInputs ms b).cs = s.cs := rfl
@[simp] theorem State.withInputs_hold (s : State) (ms : List Move) (b : List (List Byte)) :
    (s.withInputs ms b).hold = s.hold := rfl
@[simp] theorem State.withInputs_wp (s : State) (ms : List Move) (b : List (List Byte)) :
    (s.withInputs ms b).wp = s.wp := rfl
@[simp] theorem State.withInputs_dev (s : State) (ms : List Move) (b : List (List Byte)) :
    (s.withInputs ms b).dev = s.dev := rfl
@[simp] theorem State.withInputs_env (s : State) (ms : List Move) (b : List (List Byte)) :
    (s.withInputs ms b).env = s.env := rfl
@[simp] theorem State.withInputs_moves (s : State) (ms : List Move) (b : List (List Byte)) :
    (s.withInputs ms b).moves = ms := rfl
@[simp] theorem State.withInputs_bench (s : State) (ms : List Move) (b : List (List Byte)) :
    (s.withInputs ms b).bench = b := rfl
@[simp] theorem State.withInputs_trace (s : State) (ms : List Move) (b : List (List Byte)) :
    (s.withInputs ms b).trace = s.trace := rfl
@[simp] theorem State.withInputs_owned (s : State) (ms : List Move) (b : List (List Byte)) :
    (s.withInputs ms b).owned = s.owned := rfl

/-! The lines -/

@[simp] theorem State.mapLine_par (s : State) (f : Line → Line) (l : LineId) : (s.mapLine f l).par = s.par := by
  cases l <;> rfl
@[simp] theorem State.mapLine_A (s : State) (f : Line → Line) (l : LineId) : (s.mapLine f l).A = s.A := by
  cases l <;> rfl
@[simp] theorem State.mapLine_V (s : State) (f : Line → Line) (l : LineId) : (s.mapLine f l).V = s.V := by
  cases l <;> rfl
@[simp] theorem State.mapLine_RX (s : State) (f : Line → Line) (l : LineId) : (s.mapLine f l).RX = s.RX := by
  cases l <;> rfl
@[simp] theorem State.mapLine_HI (s : State) (f : Line → Line) (l : LineId) : (s.mapLine f l).HI = s.HI := by
  cases l <;> rfl
@[simp] theorem State.mapLine_R (s : State) (f : Line → Line) (l : LineId) : (s.mapLine f l).R = s.R := by
  cases l <;> rfl
@[simp] theorem State.mapLine_np (s : State) (f : Line → Line) (l : LineId) : (s.mapLine f l).np = s.np := by
  cases l <;> rfl
@[simp] theorem State.mapLine_q (s : State) (f : Line → Line) (l : LineId) : (s.mapLine f l).q = s.q := by
  cases l <;> rfl
@[simp] theorem State.mapLine_op (s : State) (f : Line → Line) (l : LineId) : (s.mapLine f l).op = s.op := by
  cases l <;> rfl
@[simp] theorem State.mapLine_bi (s : State) (f : Line → Line) (l : LineId) : (s.mapLine f l).bi = s.bi := by
  cases l <;> rfl
@[simp] theorem State.mapLine_ph (s : State) (f : Line → Line) (l : LineId) : (s.mapLine f l).ph = s.ph := by
  cases l <;> rfl
@[simp] theorem State.mapLine_err (s : State) (f : Line → Line) (l : LineId) : (s.mapLine f l).err = s.err := by
  cases l <;> rfl
@[simp] theorem State.mapLine_cs_cs (s : State) (f : Line → Line) : (s.mapLine f .cs).cs = f s.cs := rfl
@[simp] theorem State.mapLine_hold_cs (s : State) (f : Line → Line) : (s.mapLine f .hold).cs = s.cs := rfl
@[simp] theorem State.mapLine_wp_cs (s : State) (f : Line → Line) : (s.mapLine f .wp).cs = s.cs := rfl
@[simp] theorem State.mapLine_cs_hold (s : State) (f : Line → Line) : (s.mapLine f .cs).hold = s.hold := rfl
@[simp] theorem State.mapLine_hold_hold (s : State) (f : Line → Line) : (s.mapLine f .hold).hold = f s.hold := rfl
@[simp] theorem State.mapLine_wp_hold (s : State) (f : Line → Line) : (s.mapLine f .wp).hold = s.hold := rfl
@[simp] theorem State.mapLine_cs_wp (s : State) (f : Line → Line) : (s.mapLine f .cs).wp = s.wp := rfl
@[simp] theorem State.mapLine_hold_wp (s : State) (f : Line → Line) : (s.mapLine f .hold).wp = s.wp := rfl
@[simp] theorem State.mapLine_wp_wp (s : State) (f : Line → Line) : (s.mapLine f .wp).wp = f s.wp := rfl
@[simp] theorem State.mapLine_dev (s : State) (f : Line → Line) (l : LineId) : (s.mapLine f l).dev = s.dev := by
  cases l <;> rfl
@[simp] theorem State.mapLine_env (s : State) (f : Line → Line) (l : LineId) : (s.mapLine f l).env = s.env := by
  cases l <;> rfl
@[simp] theorem State.mapLine_moves (s : State) (f : Line → Line) (l : LineId) : (s.mapLine f l).moves = s.moves := by
  cases l <;> rfl
@[simp] theorem State.mapLine_bench (s : State) (f : Line → Line) (l : LineId) : (s.mapLine f l).bench = s.bench := by
  cases l <;> rfl
@[simp] theorem State.mapLine_trace (s : State) (f : Line → Line) (l : LineId) : (s.mapLine f l).trace = s.trace := by
  cases l <;> rfl

/-- A line changed is that line changed; every other line is kept. -/
theorem State.mapLine_line (s : State) (f : Line → Line) (l k : LineId) :
    (s.mapLine f l).line k = if k = l then f (s.line l) else s.line k := by
  cases l <;> cases k <;> rfl

/-! A line, after each update that is no line action -/

@[simp] theorem State.emit_line (s : State) (e : Event) (l : LineId) : (s.emit e).line l = s.line l := by
  cases l <;> rfl
@[simp] theorem State.toQ_line (s : State) (x : SeqState) (l : LineId) : (s.toQ x).line l = s.line l := by
  cases l <;> rfl
@[simp] theorem State.toPh_line (s : State) (p : Phase) (l : LineId) : (s.toPh p).line l = s.line l := by
  cases l <;> rfl
@[simp] theorem State.withWorld_line (s : State) (d : Device) (e : Env) (l : LineId) :
    (s.withWorld d e).line l = s.line l := by
  cases l <;> rfl
@[simp] theorem State.popFault_line (s : State) (l : LineId) : (s.popFault).line l = s.line l := by
  cases l <;> rfl
@[simp] theorem State.withInputs_line (s : State) (ms : List Move) (b : List (List Byte)) (l : LineId) :
    (s.withInputs ms b).line l = s.line l := by
  cases l <;> rfl
@[simp] theorem State.started_line (s : State) (o : HostOp) (a v : Half) (l : LineId) :
    (s.started o a v).line l = s.line l := by
  cases l <;> rfl
@[simp] theorem takeBusFault_line (s : State) (l : LineId) : (takeBusFault s).line l = s.line l := by
  cases l <;> rfl
@[simp] theorem finish_line (s : State) (r : Result) (l : LineId) : (finish r s).line l = s.line l := by
  cases l <;> rfl

@[simp] theorem Line.enable_oe (l : Line) : l.enable.oe = true := rfl
@[simp] theorem Line.enable_lvl (l : Line) : l.enable.lvl = l.lvl := rfl
@[simp] theorem Line.enable_driven (l : Line) : l.enable.driven = l.driven := rfl
@[simp] theorem Line.drive_oe (l : Line) (x : Level) : (l.drive x).oe = l.oe := rfl
@[simp] theorem Line.drive_lvl (l : Line) (x : Level) : (l.drive x).lvl = x := rfl
@[simp] theorem Line.drive_driven (l : Line) (x : Level) : (l.drive x).driven = true := rfl
@[simp] theorem Device.lost_mem (d : Device) : d.lost.mem = d.mem := rfl
@[simp] theorem Device.lost_mode (d : Device) : d.lost.mode = .open := rfl

/-- The transaction a state owns depends on `q`, `op`, `bi`, `A`, `V` and the parameters alone (R75, R78). -/
theorem State.owned_congr {s t : State} (hq : t.q = s.q) (ho : t.op = s.op) (hb : t.bi = s.bi) (ha : t.A = s.A)
    (hv : t.V = s.V) (hp : t.par = s.par) : t.owned = s.owned := by
  simp [State.owned, State.byteAddr, State.writeData, hq, ho, hb, ha, hv, hp]

end Sys2Proof.Machine
end

