-- ==== Sys2Proof/Laws/Ops.lean ====
section
/-! SUPPORT. One lemma for each shared operation that says once everything it can do: the device's part of a step, the
primitives, the rows of the phase table. Proofs cite these and do not unfold the operations. -/

namespace Sys2Proof.Machine

open Sys2Proof

/-! ### The device's part of a step -/

/-- A free byte is taken from the environment and nothing else changes. -/
theorem freeReply_changes (s : State) : ∃ e, s.freeReply.2 = s.withWorld s.dev e ∧ e.faults = s.env.faults := by
  unfold State.freeReply; split <;> exact ⟨_, rfl, rfl⟩

theorem takeNWr_changes (s : State) : ∃ e, s.takeNWr.2 = s.withWorld s.dev e ∧ e.faults = s.env.faults := by
  unfold State.takeNWr; split <;> exact ⟨_, rfl, rfl⟩

theorem takeNSr_changes (s : State) : ∃ e, s.takeNSr.2 = s.withWorld s.dev e ∧ e.faults = s.env.faults := by
  unfold State.takeNSr; split <;> exact ⟨_, rfl, rfl⟩

theorem takeAccept_changes (s : State) : ∃ e, s.takeAccept.2 = s.withWorld s.dev e ∧ e.faults = s.env.faults := by
  unfold State.takeAccept; split <;> exact ⟨_, rfl, rfl⟩

/-- `t` is `s` but for the device and the environment's choices; the fault schedule is the same, and the array is the
same or has the location of one WRITE frame of `bs` written, an address the device is known to have. -/
def OnlyWorld (bs : List Byte) (s t : State) : Prop :=
  ∃ d e, t = s.withWorld d e ∧ e.faults = s.env.faults ∧
    (d.mem = s.dev.mem ∨ ∃ a b, decodeFrame bs = .ok (.write a b) ∧ s.inArray a = true ∧
      d.mem = s.dev.mem.write (s.location a) b) ∧
    (d.mode = s.dev.mode ∨ d.mode = .open)

theorem OnlyWorld.rfl' {bs : List Byte} {s : State} : OnlyWorld bs s s :=
  ⟨s.dev, s.env, rfl, rfl, .inl rfl, .inl rfl⟩

/-- A change of the device alone that keeps the array. -/
theorem OnlyWorld.of_dev {bs : List Byte} {s : State} {d : Device} (h : d.mem = s.dev.mem)
    (hm : d.mode = s.dev.mode ∨ d.mode = .open) : OnlyWorld bs s (s.withWorld d s.env) :=
  ⟨d, s.env, rfl, rfl, .inl h, hm⟩

theorem deviceWrsr_changes (v : Byte) {bs : List Byte} (s : State) : OnlyWorld bs s (deviceWrsr v s) := by
  obtain ⟨e, h, hf⟩ := takeNSr_changes s
  unfold deviceWrsr
  split_ifs
  · exact ⟨{ s.dev with hi6 := v.extractLsb' 2 6 }.beginWrite s.takeNSr.1, e, by rw [h]; rfl, hf,
      .inl rfl, .inl rfl⟩
  · exact .rfl'

theorem deviceWrite_changes {a : Half} {b : Byte} {bs : List Byte} (hd : decodeFrame bs = .ok (.write a b)) {s : State}
    (ha : s.inArray a = true) : OnlyWorld bs s (deviceWrite a b s) := by
  obtain ⟨e, h, hf⟩ := takeNWr_changes s
  unfold deviceWrite
  split_ifs
  · exact ⟨{ s.dev with mem := s.dev.mem.write (s.location a) b }.beginWrite s.takeNWr.1, e, by rw [h]; rfl, hf,
      .inr ⟨a, b, hd, ha, rfl⟩, .inl rfl⟩
  · exact .rfl'

/-- Two changes of the world, the first of which keeps the device. -/
theorem OnlyWorld.after_env {bs : List Byte} {s u : State} {e : Env} (he : e.faults = s.env.faults)
    (h : OnlyWorld bs (s.withWorld s.dev e) u) : OnlyWorld bs s u := by
  obtain ⟨d, e', h1, h2, h3⟩ := h
  exact ⟨d, e', h1, h2.trans he, h3⟩

theorem writeCommand_changes {act : State → State} {bs : List Byte} {able : Bool} {s : State}
    (hact : (s.dev.mode = .contract → able = true) → ∀ e, OnlyWorld bs (s.withWorld s.dev e) (act (s.withWorld s.dev e))) :
    OnlyWorld bs s (writeCommand able act s) := by
  obtain ⟨e, h, hf⟩ := takeAccept_changes s
  unfold writeCommand
  rw [h]
  split_ifs with hm ha
  · exact .after_env hf (.of_dev rfl (.inr rfl))
  · exact .after_env hf (hact (fun _ => by simpa using fun h => ha (.inl h)) e)
  · exact hact (fun h => absurd h hm) s.env

/-- What the device does with a frame changes the device and the environment's choices alone. -/
theorem deviceAct_changes (s : State) : OnlyWorld s.dev.frame s (deviceAct s) := by
  unfold deviceAct
  split
  · unfold latchCommand deviceWren
    split_ifs
    exacts [.of_dev rfl (.inr rfl), .of_dev rfl (.inl rfl), .rfl']
  · unfold latchCommand
    split_ifs
    exacts [.of_dev rfl (.inr rfl), .of_dev rfl (.inl rfl)]
  · exact writeCommand_changes fun _ _ => deviceWrsr_changes _ _
  · next a d hd =>
    refine writeCommand_changes fun h e => deviceWrite_changes hd ?_
    show s.inArray a = true
    by_cases hm : s.dev.mode = .contract
    · exact (Bool.and_eq_true _ _ ▸ h hm).2
    · simp [State.inArray, hm]
  · exact .rfl'

/-- Driving a line changes, outside the block, the device and the environment's choices alone. -/
theorem deviceSees_changes (l : LineId) (lvl : Level) (s : State) : OnlyWorld s.dev.frame s (deviceSees l lvl s) := by
  cases l <;> cases lvl <;> simp only [deviceSees]
  · unfold deviceSelect
    split_ifs
    exacts [.rfl', .of_dev rfl (.inl rfl), .of_dev rfl (.inr rfl)]
  · unfold deviceDeselect
    split_ifs
    · exact .rfl'
    · obtain ⟨d, e, h, hf, hm, ho⟩ := deviceAct_changes s
      exact ⟨{ d with frame := [] }, e, by rw [h]; rfl, hf, hm, ho⟩
  all_goals exact .rfl'

/-- Driving a line leaves the device without a byte of a frame, or as it was; as it was, when chip-select is driven, only
if nothing is known of it. -/
theorem deviceSees_frame (l : LineId) (lvl : Level) (s : State) :
    (deviceSees l lvl s).dev.frame = [] ∨
      ((deviceSees l lvl s).dev = s.dev ∧ (l = .cs → s.dev.mode = .open)) := by
  cases l <;> cases lvl <;> simp only [deviceSees]
  · unfold deviceSelect
    split_ifs with h
    exacts [.inr ⟨rfl, fun _ => h⟩, .inl rfl, .inl rfl]
  · unfold deviceDeselect
    split_ifs with h
    exacts [.inr ⟨rfl, fun _ => h⟩, .inl rfl]
  all_goals exact .inr (by simp)

/-- A line that does not rise to close a window leaves the array alone. -/
theorem deviceSees_mem {l : LineId} {lvl : Level} (h : ¬(l = .cs ∧ lvl = .high)) (s : State) :
    (deviceSees l lvl s).dev.mem = s.dev.mem := by
  cases l <;> cases lvl <;> simp only [deviceSees]
  · unfold deviceSelect; split_ifs <;> rfl
  · exact absurd ⟨rfl, rfl⟩ h

/-- A reply of the device changes the device and the environment's choices alone, and never the array (R37, R48). -/
theorem deviceReply_changes (b : Byte) (s : State) :
    ∃ d e, (deviceReply b s).2 = s.withWorld d e ∧ e.faults = s.env.faults ∧ d.mem = s.dev.mem := by
  obtain ⟨e1, h1, f1⟩ := freeReply_changes s
  obtain ⟨e2, h2, f2⟩ := freeReply_changes (pushByte b s)
  have hp : ∃ d e, (pushByte b s).freeReply.2 = s.withWorld d e ∧ e.faults = s.env.faults ∧ d.mem = s.dev.mem :=
    ⟨_, e2, h2, f2, rfl⟩
  unfold deviceReply
  split
  · exact ⟨s.dev, e1, h1, f1, rfl⟩
  · split
    · unfold statusReply
      split
      · exact hp
      · refine ⟨(pushByte b s).dev.polled, s.env, rfl, rfl, ?_⟩
        unfold Device.polled
        split <;> rfl
    · split
      · exact ⟨(pushByte b s).dev, s.env, rfl, rfl, rfl⟩
      · exact hp
    · exact hp

/-- A device whose behaviour is given keeps the bytes it receives, in order; the mode is the same (R47, R50). -/
theorem deviceReply_frame (b : Byte) (s : State) :
    (deviceReply b s).2.dev.mode = s.dev.mode ∧
      (deviceReply b s).2.dev.frame = if s.dev.mode = .open then s.dev.frame else s.dev.frame ++ [b] := by
  have hf : ∀ s : State, s.freeReply.2.dev = s.dev := fun s => by
    obtain ⟨e, h, -⟩ := freeReply_changes s
    rw [h]; rfl
  have hr : (pushByte b s).freeReply.2.dev.mode = s.dev.mode ∧
      (pushByte b s).freeReply.2.dev.frame = s.dev.frame ++ [b] := by rw [hf]; exact ⟨rfl, rfl⟩
  have hp : (pushByte b s).dev.polled.mode = s.dev.mode ∧ (pushByte b s).dev.polled.frame = s.dev.frame ++ [b] := by
    unfold Device.polled; split <;> exact ⟨rfl, rfl⟩
  unfold deviceReply
  by_cases h : s.dev.mode = .open
  · simp only [h, if_true, hf, and_self]
  · simp only [h, if_false]
    split
    · unfold statusReply
      split
      · exact hr
      · exact hp
    · split
      · exact ⟨rfl, rfl⟩
      · exact hr
    · exact hr

/-- Bit 0 of the status byte is WIP (R45, R57). -/
@[simp] theorem wip_statusByte (hi6 : BitVec 6) (w : Bool) (n : Nat) : wip (statusByte hi6 w n) = decide (0 < n) := by
  unfold wip statusByte
  rw [BitVec.getLsbD_append, if_pos (by decide), BitVec.getLsbD_ofBool]
  simp

/-- Bit 1 of the status byte is WEL (R45, R57). -/
@[simp] theorem wel_statusByte (hi6 : BitVec 6) (w : Bool) (n : Nat) : wel (statusByte hi6 w n) = w := by
  unfold wel statusByte
  rw [BitVec.getLsbD_append, if_neg (by decide), BitVec.getLsbD_append, if_pos (by decide), BitVec.getLsbD_ofBool]
  simp

/-- The device's own completion changes the device alone, and never the array or the frame. -/
theorem deviceComplete_changes (s : State) :
    ∃ d, deviceComplete s = s.withWorld d s.env ∧ d.mem = s.dev.mem ∧ d.mode = s.dev.mode ∧ d.frame = s.dev.frame := by
  unfold deviceComplete; split
  exacts [⟨_, rfl, rfl, rfl, rfl⟩, ⟨s.dev, rfl, rfl, rfl, rfl⟩]

/-! ### The primitives (R70 to R72, R151) -/

theorem primitive_fault {act : State → State} {s : State} (h : s.faultDue = true) :
    primitive act s = takeBusFault s.popFault := by simp [primitive, h]

theorem primitive_ok {act : State → State} {s : State} (h : s.faultDue = false) :
    primitive act s = act s.popFault := by simp [primitive, h]

/-- `cfg_out(L)` without a fault (R70). -/
theorem cfgOut_ok {s : State} (h : s.faultDue = false) (l : LineId) (k : State → State) :
    cfgOut l k s = k ((s.popFault.mapLine Line.enable l).emit (.cfg l)) := primitive_ok h

/-- `set(L, lvl)` without a fault (R71). -/
theorem setLevel_ok {s : State} (h : s.faultDue = false) (l : LineId) (lvl : Level) (k : State → State) :
    ∃ d e, setLevel l lvl k s = k (((s.mapLine (Line.drive lvl) l).withWorld d e).emit (.set l lvl)) ∧
      e.faults = s.env.faults.tail ∧
      (d.mem = s.dev.mem ∨
        (l = .cs ∧ lvl = .high ∧ s.dev.mode ≠ .open ∧ ∃ a b, decodeFrame s.dev.frame = .ok (.write a b) ∧
          s.inArray a = true ∧ d.mem = s.dev.mem.write (s.location a) b)) ∧
      (d.frame = [] ∨ (d = s.dev ∧ (l = .cs → s.dev.mode = .open))) ∧
      (d.mode = s.dev.mode ∨ d.mode = .open) := by
  obtain ⟨d, e, h1, h2, h3, h6⟩ := deviceSees_changes l lvl (s.popFault.mapLine (Line.drive lvl) l)
  have h4 := deviceSees_frame l lvl (s.popFault.mapLine (Line.drive lvl) l)
  rw [h1] at h4
  simp only [State.withWorld_dev, State.mapLine_dev, State.popFault_dev] at h3 h4 h6
  have hin : ∀ a, (s.popFault.mapLine (Line.drive lvl) l).inArray a = s.inArray a := fun a => by simp [State.inArray]
  simp only [hin] at h3
  refine ⟨d, e, ?_, ?_, ?_, h4, h6⟩
  · rw [setLevel, primitive_ok h, h1]; cases l <;> rfl
  · rw [h2]; simp
  · by_cases hl : l = .cs ∧ lvl = .high
    · obtain ⟨rfl, rfl⟩ := hl
      rcases h3 with h3 | ⟨a, b, h3, h5⟩
      · exact .inl h3
      · by_cases hm : s.dev.mode = .open
        · refine .inl ?_
          have := h1
          simp only [deviceSees, deviceDeselect, State.mapLine_dev, State.popFault_dev, hm, if_true] at this
          simpa using (congrArg (fun x : State => x.dev.mem) this).symm
        · exact .inr ⟨rfl, rfl, hm, a, b, h3, h5⟩
    · have := deviceSees_mem hl (s.popFault.mapLine (Line.drive lvl) l)
      rw [h1] at this
      exact .inl (by simpa using this)

/-- `xfer(b)` without a fault (R72): one byte is received, and the event carries it. -/
theorem xfer_ok {s : State} (h : s.faultDue = false) (b : Byte) (k : Byte → State → State) :
    ∃ r d e, xfer b k s = k r ((s.withWorld d e).emit (.xfer b r)) ∧
      e.faults = s.env.faults.tail ∧ d.mem = s.dev.mem ∧ d.mode = s.dev.mode ∧
      d.frame = if s.dev.mode = .open then s.dev.frame else s.dev.frame ++ [b] := by
  obtain ⟨d, e, h1, h2, h3⟩ := deviceReply_changes b s.popFault
  have h4 := deviceReply_frame b s.popFault
  rw [h1] at h4
  exact ⟨(deviceReply b s.popFault).1, d, e, by rw [xfer, primitive_ok h, h1]; rfl, h2, h3, h4⟩

/-- `xfer(b)` with a device of which nothing is known: the byte received is the environment's next choice (R44 (a)). -/
theorem xfer_open {s : State} {r : Byte} {rs : List Byte} (h : s.faultDue = false) (hm : s.dev.mode = .open)
    (hr : s.env.replies = r :: rs) (b : Byte) (k : Byte → State → State) :
    xfer b k s =
      k r ((s.withWorld s.dev { s.env with faults := s.env.faults.tail, replies := rs }).emit (.xfer b r)) := by
  simp only [xfer, primitive_ok h, deviceReply, State.popFault_dev, hm, if_true, State.freeReply,
    State.popFault_replies, hr]
  rfl

/-- `set(L, lvl)` with a device of which nothing is known leaves it as it is. -/
theorem setLevel_open {s : State} (h : s.faultDue = false) (hm : s.dev.mode = .open) (l : LineId) (lvl : Level)
    (k : State → State) :
    setLevel l lvl k s =
      k (((s.mapLine (Line.drive lvl) l).withWorld s.dev { s.env with faults := s.env.faults.tail }).emit
        (.set l lvl)) := by
  rw [setLevel, primitive_ok h]
  cases l <;> cases lvl <;>
    simp only [deviceSees, deviceSelect, deviceDeselect, State.mapLine_dev, State.popFault_dev, hm, if_true] <;> rfl

/-- A state no fault is scheduled for: the coming primitive goes well and so does every later one. -/
theorem faultDue_of_quiet {s : State} (h : ∀ b ∈ s.env.faults, b = false) : s.faultDue = false := by
  unfold State.faultDue
  split
  · next hb => exact h _ (by simp [hb])
  · rfl

end Sys2Proof.Machine
end

