-- ==== Sys2Proof/Laws/Memory.lean ====
section
/-! SUPPORT. The laws of the device array: a read after a write, and the canonical form, which every operation keeps. -/

namespace Sys2Proof.Machine

open Sys2Proof

/-- A location just written holds the byte written. -/
@[simp] theorem Memory.read_write_same (m : Memory) (a : Nat) (d : Byte) : (m.write a d).read a = some d := by
  induction m with
  | nil => simp [Memory.write, Memory.read]
  | cons c m ih =>
    obtain ⟨k, b⟩ := c
    unfold Memory.write
    split_ifs with h1 h2
    · simp [Memory.read]
    · simp [Memory.read]
    · simpa [Memory.read, h2] using ih

/-- Every other location holds what it held. -/
theorem Memory.read_write_other (m : Memory) {a k : Nat} (d : Byte) (h : k ≠ a) : (m.write a d).read k = m.read k := by
  induction m with
  | nil => simp [Memory.write, Memory.read, h]
  | cons c m ih =>
    obtain ⟨j, b⟩ := c
    unfold Memory.write
    split_ifs with h1 h2
    · simp [Memory.read, h]
    · subst h2; simp [Memory.read, h]
    · simp only [Memory.read, ih]

/-- The locations listed after a write: those listed before, and the one written. -/
theorem Memory.mem_write {m : Memory} {a : Nat} {d : Byte} {c : Host.Cell} (h : c ∈ m.write a d) :
    c.1 = a ∨ c ∈ m := by
  induction m with
  | nil => simp [Memory.write] at h; exact .inl (by rw [h])
  | cons x m ih =>
    obtain ⟨k, b⟩ := x
    unfold Memory.write at h
    split_ifs at h with h1 h2
    · rcases List.mem_cons.1 h with rfl | h
      exacts [.inl rfl, .inr h]
    · rcases List.mem_cons.1 h with rfl | h
      exacts [.inl rfl, .inr (List.mem_cons_of_mem _ h)]
    · rcases List.mem_cons.1 h with rfl | h
      · exact .inr (List.mem_cons_self ..)
      · rcases ih h with h | h
        exacts [.inl h, .inr (List.mem_cons_of_mem _ h)]

/-- The canonical form, read: locations strictly rising, each one of the array's. -/
theorem Memory.wf_iff (m : Memory) :
    m.wf = true ↔ m.Pairwise (fun x y => x.1 < y.1) ∧ ∀ c ∈ m, c.1 < Config.devSize := by
  simp [Memory.wf, List.pairwise_map]

theorem Memory.pairwise_write {m : Memory} {a : Nat} {d : Byte} (h : m.Pairwise (fun x y => x.1 < y.1)) :
    (m.write a d).Pairwise (fun x y => x.1 < y.1) := by
  induction m with
  | nil => simp [Memory.write]
  | cons x m ih =>
    obtain ⟨k, b⟩ := x
    rw [List.pairwise_cons] at h
    unfold Memory.write
    split_ifs with h1 h2
    · refine List.pairwise_cons.2 ⟨fun c hc => ?_, List.pairwise_cons.2 h⟩
      rcases List.mem_cons.1 hc with rfl | hc
      exacts [h1, h1.trans (h.1 c hc)]
    · subst h2; exact List.pairwise_cons.2 h
    · refine List.pairwise_cons.2 ⟨fun c hc => ?_, ih h.2⟩
      rcases Memory.mem_write hc with hc | hc
      exacts [by simp only [hc]; omega, h.1 c hc]

/-- A write of a location of the array keeps the canonical form. -/
theorem Memory.wf_write {m : Memory} {a : Nat} {d : Byte} (ha : a < Config.devSize) (h : m.wf = true) :
    (m.write a d).wf = true := by
  rw [Memory.wf_iff] at h ⊢
  refine ⟨Memory.pairwise_write h.1, fun c hc => ?_⟩
  rcases Memory.mem_write hc with hc | hc
  exacts [hc ▸ ha, h.2 c hc]

/-- With legal parameters every address that the device is known to have is a location of the array (R38, R46). -/
theorem State.location_lt {s : State} (h : s.par.wellFormed = true) {a : Half} (ha : s.inArray a = true) :
    s.location a < Config.devSize := by
  simp only [Config.Params.wellFormed, Bool.and_eq_true, decide_eq_true_eq] at h
  unfold State.location
  split_ifs with hm
  · simpa [State.inArray, hm] using ha
  · exact lt_of_le_of_lt (by simpa using Nat.and_le_right) h.2

/-- The location of an address depends on the parameters and the device's mode alone. -/
theorem State.location_congr {s u : State} (hp : u.par = s.par) (hm : u.dev.mode = s.dev.mode) (a : Half) :
    u.location a = s.location a := by simp only [State.location, hp, hm]

/-- Except on the contract device a location is the masked address (R46). -/
theorem State.location_masked {s : State} (hm : s.dev.mode ≠ .contract) (a : Half) :
    s.location a = (a &&& s.par.devAddrMask).toNat := if_neg hm

/-- On the contract device a location is the address (log 31). -/
theorem State.location_contract {s : State} (hm : s.dev.mode = .contract) (a : Half) : s.location a = a.toNat := if_pos hm

/-- Except on the contract device every address reaches a location (R46). -/
theorem State.inArray_of_mode {s : State} (hm : s.dev.mode ≠ .contract) (a : Half) : s.inArray a = true := by
  simp [State.inArray, hm]

end Sys2Proof.Machine
end

