-- ==== Sys2Proof/Laws/PerInstr.lean ====
section
/-! SUPPORT. Statements about every instruction as syntax, one lemma for each constructor. -/

namespace Sys2Proof.Laws.EncodedWidth

open Sys2Proof

/-- The width of the row in spec/opcode_table.json ("width_bits"). -/
def tableWidth : Instr → Nat
  | .wren | .wrdi => 8
  | .rdsr _ | .wrsr _ => 16
  | .read _ _ | .write _ _ => 32
  | .init _ _ | .readWord _ _ | .writeWord _ _ | .readStatus _ _ | .writeStatus _ _ | .writeByte _ _ | .readByte _ _
  | .reservedOp7 _ _ => 35

/-- The instruction is encoded in its row's width (R51, R52, R60), as a command word exactly when it is a host operation. -/
def Statement (i : Instr) : Prop :=
  (encode i).bits = tableWidth i ∧ ((∃ w, encode i = .hop w) ↔ i.isHost = true)

theorem wren : Statement .wren := ⟨rfl, nofun, nofun⟩
theorem wrdi : Statement .wrdi := ⟨rfl, nofun, nofun⟩
theorem rdsr (dummy : Byte) : Statement (.rdsr dummy) := ⟨rfl, nofun, nofun⟩
theorem wrsr (status : Byte) : Statement (.wrsr status) := ⟨rfl, nofun, nofun⟩
theorem read (addr : Half) (dummy : Byte) : Statement (.read addr dummy) := ⟨rfl, nofun, nofun⟩
theorem write (addr : Half) (data : Byte) : Statement (.write addr data) := ⟨rfl, nofun, nofun⟩
theorem init (addr wdata : Half) : Statement (.init addr wdata) := ⟨rfl, fun _ => rfl, fun _ => ⟨_, rfl⟩⟩
theorem readWord (addr wdata : Half) : Statement (.readWord addr wdata) := ⟨rfl, fun _ => rfl, fun _ => ⟨_, rfl⟩⟩
theorem writeWord (addr wdata : Half) : Statement (.writeWord addr wdata) := ⟨rfl, fun _ => rfl, fun _ => ⟨_, rfl⟩⟩
theorem readStatus (addr wdata : Half) : Statement (.readStatus addr wdata) := ⟨rfl, fun _ => rfl, fun _ => ⟨_, rfl⟩⟩
theorem writeStatus (addr wdata : Half) : Statement (.writeStatus addr wdata) := ⟨rfl, fun _ => rfl, fun _ => ⟨_, rfl⟩⟩
theorem writeByte (addr wdata : Half) : Statement (.writeByte addr wdata) := ⟨rfl, fun _ => rfl, fun _ => ⟨_, rfl⟩⟩
theorem readByte (addr wdata : Half) : Statement (.readByte addr wdata) := ⟨rfl, fun _ => rfl, fun _ => ⟨_, rfl⟩⟩
theorem reservedOp7 (addr wdata : Half) : Statement (.reservedOp7 addr wdata) := ⟨rfl, fun _ => rfl, fun _ => ⟨_, rfl⟩⟩

end Sys2Proof.Laws.EncodedWidth
end

