-- ==== Sys2Proof/Laws/Step.lean ====
section
/-! SUPPORT. What one row of the phase table, one step of the block and one step of the machine can do: an inversion lemma
for each, which every proof about steps cites. -/

namespace Sys2Proof.Machine

open Sys2Proof

/-! ### One row of the phase table -/

/-- The byte a transaction sends in a phase without keeping the reply, and the phase after (R74, R75). -/
def Txn.sends (t : Txn) : Phase → Option (Byte × Phase)
  | .selected => some (t.kind.opcode, .opcodeSent)
  | .opcodeSent =>
    match t.kind with
    | .read | .write => some (hiByte t.addr, .addrHiSent)
    | .wrsr => some (t.data, .dataDone)
    | .wren | .wrdi | .rdsr => none
  | .addrHiSent =>
    match t.kind with
    | .read | .write => some (loByte t.addr, .addrSent)
    | .wren | .wrdi | .rdsr | .wrsr => none
  | .addrSent =>
    match t.kind with
    | .write => some (t.data, .dataDone)
    | .wren | .wrdi | .rdsr | .wrsr | .read => none
  | .idle | .dataDone | .deselected => none

/-- The phase in which a transaction receives the byte it keeps (R13, R75). -/
def Txn.receives (t : Txn) (p : Phase) : Prop :=
  (t.kind = .rdsr ∧ p = .opcodeSent) ∨ (t.kind = .read ∧ p = .addrSent)

/-- The phase in which a transaction closes its window (R75). -/
def Txn.closes (t : Txn) (p : Phase) : Prop :=
  ((t.kind = .wren ∨ t.kind = .wrdi) ∧ p = .opcodeSent) ∨ (t.kind ≠ .wren ∧ t.kind ≠ .wrdi ∧ p = .dataDone)

/-! The rows of the table, as equations (R75) -/

theorem phaseRow_idle {t : Txn} {s : State} (hp : s.ph = .idle) :
    phaseRow t s = .next (setLevel .cs .low (·.toPh .selected) s) := by simp only [phaseRow, hp]

theorem phaseRow_deselected {t : Txn} {s : State} (hp : s.ph = .deselected) : phaseRow t s = .next (s.toPh .idle) := by
  simp only [phaseRow, hp]

theorem phaseRow_closes {t : Txn} {s : State} (h : t.closes s.ph) :
    phaseRow t s = .next (setLevel .cs .high (·.toPh .deselected) s) := by
  obtain ⟨k, a, x⟩ := t
  unfold phaseRow
  cases hp : s.ph <;> cases k <;> simp [hp, Txn.closes] at h ⊢

theorem phaseRow_receives {t : Txn} {s : State} (h : t.receives s.ph) :
    phaseRow t s = .next (xfer t.data (latchRx .dataDone) s) := by
  obtain ⟨k, a, x⟩ := t
  unfold phaseRow
  cases hp : s.ph <;> cases k <;> simp [hp, Txn.receives] at h ⊢

theorem phaseRow_sends {t : Txn} {s : State} {b : Byte} {p : Phase} (h : t.sends s.ph = some (b, p)) :
    phaseRow t s = .next (xfer b (discard p) s) := by
  obtain ⟨k, a, x⟩ := t
  unfold phaseRow
  cases hp : s.ph <;> cases k <;> simp only [hp, Txn.sends, Option.some.injEq, Prod.mk.injEq, reduceCtorEq] at h ⊢ <;>
    obtain ⟨rfl, rfl⟩ := h <;> rfl

/-- What a row of R75's table makes of a state. -/
inductive RowMove (t : Txn) (s : State) : State → Prop where
  | fault (h : s.faultDue = true) (hp : s.ph ≠ .deselected) : RowMove t s (takeBusFault s.popFault)
  | select (d : Device) (e : Env) (hp : s.ph = .idle) (he : e.faults = s.env.faults.tail) (hm : d.mem = s.dev.mem)
      (hfr : d.frame = [] ∨ (d = s.dev ∧ s.dev.mode = .open)) (hmo : d.mode = s.dev.mode ∨ d.mode = .open) :
      RowMove t s ((((s.mapLine (Line.drive .low) .cs).withWorld d e).emit (.set .cs .low)).toPh .selected)
  | send (b r : Byte) (p : Phase) (d : Device) (e : Env) (hp : t.sends s.ph = some (b, p))
      (he : e.faults = s.env.faults.tail) (hm : d.mem = s.dev.mem)
      (hfr : d.mode = s.dev.mode ∧ d.frame = if s.dev.mode = .open then s.dev.frame else s.dev.frame ++ [b]) :
      RowMove t s (((s.withWorld d e).emit (.xfer b r)).toPh p)
  | receive (r : Byte) (d : Device) (e : Env) (hp : t.receives s.ph) (he : e.faults = s.env.faults.tail)
      (hm : d.mem = s.dev.mem)
      (hfr : d.mode = s.dev.mode ∧ d.frame = if s.dev.mode = .open then s.dev.frame else s.dev.frame ++ [t.data]) :
      RowMove t s (latchRx .dataDone r ((s.withWorld d e).emit (.xfer t.data r)))
  | deselect (d : Device) (e : Env) (hp : t.closes s.ph) (he : e.faults = s.env.faults.tail)
      (hm : d.mem = s.dev.mem ∨ (s.dev.mode ≠ .open ∧
        ∃ a b, decodeFrame s.dev.frame = .ok (.write a b) ∧ s.inArray a = true ∧
          d.mem = s.dev.mem.write (s.location a) b))
      (hfr : d.frame = [] ∨ (d = s.dev ∧ s.dev.mode = .open)) (hmo : d.mode = s.dev.mode ∨ d.mode = .open) :
      RowMove t s ((((s.mapLine (Line.drive .high) .cs).withWorld d e).emit (.set .cs .high)).toPh .deselected)
  | close (hp : s.ph = .deselected) : RowMove t s (s.toPh .idle)

theorem setLow_row (t : Txn) {s : State} (hp : s.ph = .idle) :
    RowMove t s (setLevel .cs .low (·.toPh .selected) s) := by
  cases hf : s.faultDue with
  | true => rw [setLevel, primitive_fault hf]; exact .fault hf (by simp [hp])
  | false =>
    obtain ⟨d, e, h, he, hm, hfr, hmo⟩ := setLevel_ok hf .cs .low (·.toPh .selected)
    rw [h]
    rcases hm with hm | ⟨_, hm, _⟩
    exacts [.select d e hp he hm (hfr.imp_right fun h => ⟨h.1, h.2 rfl⟩) hmo, absurd hm (by decide)]

theorem setHigh_row (t : Txn) {s : State} (hp : t.closes s.ph) :
    RowMove t s (setLevel .cs .high (·.toPh .deselected) s) := by
  cases hf : s.faultDue with
  | true =>
    rw [setLevel, primitive_fault hf]
    exact .fault hf (by rintro h; rcases hp with ⟨-, hp⟩ | ⟨-, -, hp⟩ <;> simp [h] at hp)
  | false =>
    obtain ⟨d, e, h, he, hm, hfr, hmo⟩ := setLevel_ok hf .cs .high (·.toPh .deselected)
    rw [h]
    exact .deselect d e hp he (hm.imp_right fun h => h.2.2) (hfr.imp_right fun h => ⟨h.1, h.2 rfl⟩) hmo

theorem send_row (t : Txn) {s : State} {b : Byte} {p : Phase} (hp : t.sends s.ph = some (b, p)) :
    RowMove t s (xfer b (discard p) s) := by
  cases hf : s.faultDue with
  | true => rw [xfer, primitive_fault hf]; exact .fault hf (by rintro h; simp [h, Txn.sends] at hp)
  | false =>
    obtain ⟨r, d, e, h, he, hm, hfr⟩ := xfer_ok hf b (discard p)
    rw [h]
    exact .send b r p d e hp he hm hfr

theorem receive_row (t : Txn) {s : State} (hp : t.receives s.ph) :
    RowMove t s (xfer t.data (latchRx .dataDone) s) := by
  cases hf : s.faultDue with
  | true =>
    rw [xfer, primitive_fault hf]
    exact .fault hf (by rintro h; rcases hp with ⟨-, hp⟩ | ⟨-, hp⟩ <;> simp [h] at hp)
  | false =>
    obtain ⟨r, d, e, h, he, hm, hfr⟩ := xfer_ok hf t.data (latchRx .dataDone)
    rw [h]
    exact .receive r d e hp he hm hfr

/-- A row of the table answers a next state exactly for the (phase, kind) pairs of the table, and only such a move. -/
theorem phaseRow_allowed {t : Txn} {s : State} (h : t.kind.allows s.ph = true) :
    ∃ s', phaseRow t s = .next s' ∧ RowMove t s s' := by
  obtain ⟨k, a, x⟩ := t
  unfold phaseRow
  cases hp : s.ph <;> cases k <;> simp only [hp, TxnKind.allows] at h ⊢ <;> first
    | exact absurd h (by decide)
    | exact ⟨_, rfl, setLow_row _ hp⟩
    | exact ⟨_, rfl, setHigh_row _ (by simp [Txn.closes, hp])⟩
    | exact ⟨_, rfl, send_row _ (by simp [Txn.sends, hp])⟩
    | exact ⟨_, rfl, receive_row _ (by simp [Txn.receives, hp])⟩
    | exact ⟨_, rfl, .close hp⟩

theorem phaseRow_not_allowed {t : Txn} {s : State} (h : t.kind.allows s.ph = false) :
    phaseRow t s = .fault .phaseNotInTable := by
  obtain ⟨k, a, x⟩ := t
  unfold phaseRow
  cases hp : s.ph <;> cases k <;> simp only [hp, TxnKind.allows] at h ⊢ <;> exact absurd h (by decide)

/-- What a row of the table can do. -/
theorem phaseRow_cases {t : Txn} {s s' : State} (h : phaseRow t s = .next s') :
    t.kind.allows s.ph = true ∧ RowMove t s s' := by
  cases ha : t.kind.allows s.ph with
  | false => rw [phaseRow_not_allowed ha] at h; cases h
  | true =>
    obtain ⟨u, hu, hm⟩ := phaseRow_allowed ha
    rw [h] at hu
    cases hu
    exact ⟨rfl, hm⟩

/-- What every row of the table keeps: all latches but `RX` and `ph`, every enable, the other lines and the inputs; and
`q` and `err` too, unless a BusFault was taken, which is then the last event. -/
structure WireKeeps (s u : State) : Prop where
  par : u.par = s.par
  A : u.A = s.A
  V : u.V = s.V
  HI : u.HI = s.HI
  R : u.R = s.R
  np : u.np = s.np
  op : u.op = s.op
  bi : u.bi = s.bi
  oe : u.cs.oe = s.cs.oe
  hold : u.hold = s.hold
  wp : u.wp = s.wp
  moves : u.moves = s.moves
  bench : u.bench = s.bench
  outcome : (u.q = s.q ∧ u.err = s.err) ∨ (u.q = .faulted ∧ u.err = 2 ∧ u.trace.getLast? = some .busFault)

theorem WireKeeps.refl (s : State) : WireKeeps s s := by constructor <;> simp

theorem WireKeeps.trans {s u w : State} (h1 : WireKeeps s u) (h2 : WireKeeps u w) (hq : u.q ≠ .faulted) :
    WireKeeps s w := by
  refine ⟨h2.par.trans h1.par, h2.A.trans h1.A, h2.V.trans h1.V, h2.HI.trans h1.HI, h2.R.trans h1.R,
    h2.np.trans h1.np, h2.op.trans h1.op, h2.bi.trans h1.bi, h2.oe.trans h1.oe, h2.hold.trans h1.hold,
    h2.wp.trans h1.wp, h2.moves.trans h1.moves, h2.bench.trans h1.bench, ?_⟩
  rcases h1.outcome with ⟨c1, c2⟩ | ⟨c1, -⟩
  · rw [← c1, ← c2]; exact h2.outcome
  · exact absurd c1 hq

theorem RowMove.keeps {t : Txn} {s u : State} (h : RowMove t s u) : WireKeeps s u := by
  cases h <;> constructor <;> simp [latchRx, busFaultCode]

/-- The events a row of the table can emit. -/
def Event.onWire : Event → Bool
  | .set .cs _ | .xfer _ _ | .busFault => true
  | .set .hold _ | .set .wp _ | .start _ _ _ | .cfg _ | .done _ _ => false

/-- Every row but the silent one emits one event. -/
theorem RowMove.trace {t : Txn} {s u : State} (h : RowMove t s u) :
    (u.trace = s.trace ∧ s.ph = .deselected) ∨ ∃ e, u.trace = s.trace ++ [e] ∧ e.onWire = true := by
  cases h with
  | close hp => exact .inl ⟨rfl, hp⟩
  | _ => exact .inr ⟨_, rfl, rfl⟩

/-- The phase after a row of the table (R75). -/
def TxnKind.after (k : TxnKind) : Phase → Phase
  | .idle => .selected
  | .selected => .opcodeSent
  | .opcodeSent =>
    match k with
    | .wren | .wrdi => .deselected
    | .read | .write => .addrHiSent
    | .rdsr | .wrsr => .dataDone
  | .addrHiSent => .addrSent
  | .addrSent => .dataDone
  | .dataDone => .deselected
  | .deselected => .idle

/-- A row moves the phase along the table, and keeps `q`; or it raised BusFault and keeps the phase. -/
theorem RowMove.phase {t : Txn} {s u : State} (h : RowMove t s u) :
    (u.ph = t.kind.after s.ph ∧ u.q = s.q) ∨ (u.ph = s.ph ∧ u.q = .faulted) := by
  obtain ⟨k, a, x⟩ := t
  cases h with
  | fault => exact .inr ⟨rfl, rfl⟩
  | select d e hp => exact .inl ⟨by simp [hp, TxnKind.after], by simp⟩
  | send b r p d e hp =>
    refine .inl ⟨?_, rfl⟩
    cases hph : s.ph <;> cases k <;> simp [hph, Txn.sends] at hp <;> simp [← hp.2, TxnKind.after]
  | receive r d e hp => rcases hp with ⟨hk, hp⟩ | ⟨hk, hp⟩ <;> exact .inl ⟨by simp_all [latchRx, TxnKind.after], rfl⟩
  | deselect d e hp =>
    refine .inl ⟨?_, by simp⟩
    cases hph : s.ph <;> cases k <;> simp [hph, Txn.closes] at hp <;> simp [TxnKind.after]
  | close hp => exact .inl ⟨by simp [hp, TxnKind.after], rfl⟩

/-- The phases of the table are closed under its rows. -/
theorem TxnKind.allows_after {k : TxnKind} {p : Phase} (h : k.allows p = true) : k.allows (k.after p) = true := by
  revert h; cases k <;> cases p <;> decide

theorem TxnKind.allows_idle (k : TxnKind) : k.allows .idle = true := by cases k <;> rfl

/-- The rows of a kind lead from `IDLE` to `IDLE` (R75, R86). -/
theorem TxnKind.after_steps (k : TxnKind) : k.after^[k.steps] .idle = .idle := by cases k <;> rfl

/-- A run of rows moves the phase along the table, unless it ends in a BusFault. -/
theorem runRows_phase {t : Txn} : ∀ {n : Nat} {s u : State}, runRows t n s = .next u → u.q ≠ .faulted →
    u.ph = t.kind.after^[n] s.ph
  | 0, s, u, h, _ => by cases h; rfl
  | n + 1, s, u, h, hu => by
    unfold runRows at h
    split at h
    · next hq => cases h; exact absurd hq hu
    · split at h
      · next w hw =>
        rcases (phaseRow_cases hw).2.phase with ⟨h1, -⟩ | ⟨-, h1⟩
        · rw [runRows_phase h hu, h1, Function.iterate_succ_apply]
        · cases n with
          | zero => cases h; exact absurd h1 hu
          | succ n => rw [runRows, if_pos h1] at h; cases h; exact absurd h1 hu
      · cases h
      · cases h

/-- A whole window answers only from a free wire, and then it is a run of rows (R40, R75). -/
theorem window_cases {t : Txn} {s s' : State} (h : window t s = .next s') :
    s.ph = .idle ∧ s.q ≠ .faulted ∧ runRows t t.kind.steps s = .next s' := by
  unfold window at h
  split at h
  · next hc => exact ⟨hc.1, hc.2, h⟩
  · cases h

/-- A whole window ends in `IDLE`, unless it ends in a BusFault (R40, R75). -/
theorem window_phase {t : Txn} {s u : State} (h : window t s = .next u) (hu : u.q ≠ .faulted) : u.ph = .idle := by
  obtain ⟨hp, -, h⟩ := window_cases h
  rw [runRows_phase h hu, hp, TxnKind.after_steps]

/-- The owned transaction stays the owned one as long as no BusFault is raised (R78). -/
theorem RowMove.owned {t : Txn} {s u : State} (h : RowMove t s u) (hq : u.q = s.q) : u.owned = s.owned :=
  have k := h.keeps
  State.owned_congr hq k.op k.bi k.A k.V k.par

/-- A property every row keeps is kept by a run of rows. -/
theorem runRows_induct {t : Txn} {P : State → Prop}
    (hP : ∀ s s', P s → s.q ≠ .faulted → t.kind.allows s.ph = true → RowMove t s s' → P s') :
    ∀ n s s', P s → runRows t n s = .next s' → P s'
  | 0, s, s', hs, h => by cases h; exact hs
  | n + 1, s, s', hs, h => by
    unfold runRows at h
    split at h
    · cases h; exact hs
    · next hq =>
      split at h
      · next u hu =>
        have hr := phaseRow_cases hu
        exact runRows_induct hP n u s' (hP s u hs hq hr.1 hr.2) h
      · cases h
      · cases h

/-- What a whole window keeps, and the events it adds to the trace. -/
theorem window_keeps {t : Txn} {s u : State} (h : window t s = .next u) :
    WireKeeps s u ∧ ∃ l, u.trace = s.trace ++ l ∧ ∀ e ∈ l, e.onWire = true := by
  obtain ⟨-, -, h⟩ := window_cases h
  refine runRows_induct (P := fun u => WireKeeps s u ∧ ∃ l, u.trace = s.trace ++ l ∧ ∀ e ∈ l, e.onWire = true)
    ?_ _ s u ⟨.refl s, [], by simp⟩ h
  rintro x y ⟨hk, l, hl, hw⟩ hx - hr
  refine ⟨hk.trans hr.keeps hx, ?_⟩
  rcases hr.trace with ⟨h, -⟩ | ⟨e, h, he⟩
  · exact ⟨l, by rw [h, hl], hw⟩
  · refine ⟨l ++ [e], by rw [h, hl, List.append_assoc], ?_⟩
    simp only [List.mem_append, List.mem_singleton]
    rintro a (ha | rfl)
    exacts [hw a ha, he]

/-! ### Dispatch -/

/-- What `Start` can do (R62, R156). -/
theorem start_cases {o : HostOp} {a v : Half} {s s' : State} (h : start o a v s = .next s') :
    s.q = .idle ∧ s' = s.started o a v := by
  unfold start at h
  split at h
  · next hq => cases h; exact ⟨hq, rfl⟩
  · cases h

/-- An instruction that answers a next state is a frame that was sent as a window, or a host operation that was started. -/
theorem exec_cases {i : Instr} {s s' : State} (h : exec i s = .next s') :
    (∃ t : Txn, i = t.instr ∧ window t s = .next s') ∨
      ∃ o a v, i.isHost = true ∧ s.q = .idle ∧ s' = s.started o a v := by
  cases i with
  | wren => exact .inl ⟨.wren, rfl, h⟩
  | wrdi => exact .inl ⟨.wrdi, rfl, h⟩
  | rdsr x => exact .inl ⟨.rdsr x, rfl, h⟩
  | wrsr x => exact .inl ⟨.wrsr x, rfl, h⟩
  | read a x => exact .inl ⟨.read a x, rfl, h⟩
  | write a x => exact .inl ⟨.write a x, rfl, h⟩
  | init a v => have := start_cases h; exact .inr ⟨_, _, _, rfl, this⟩
  | readWord a v => have := start_cases h; exact .inr ⟨_, _, _, rfl, this⟩
  | writeWord a v => have := start_cases h; exact .inr ⟨_, _, _, rfl, this⟩
  | readStatus a v => have := start_cases h; exact .inr ⟨_, _, _, rfl, this⟩
  | writeStatus a v => have := start_cases h; exact .inr ⟨_, _, _, rfl, this⟩
  | writeByte a v => have := start_cases h; exact .inr ⟨_, _, _, rfl, this⟩
  | readByte a v => have := start_cases h; exact .inr ⟨_, _, _, rfl, this⟩
  | reservedOp7 a v => cases h

/-! ### One step of the block -/

/-- The byte index has two values. -/
theorem bit_eq_one {b : BitVec 1} (h : b ≠ 0) : b = 1 := by
  revert h; revert b; decide

/-- The line action and the next state of a state of INIT that owns no transaction (R100): whether it configures or
drives, which line, and where `q` goes. -/
def SeqState.lineAction : SeqState → Option (Bool × LineId × SeqState)
  | .initCfgCs => some (false, .cs, .initCfgHold)
  | .initCfgHold => some (false, .hold, .initCfgWp)
  | .initCfgWp => some (false, .wp, .initSetCs)
  | .initSetCs => some (true, .cs, .initSetHold)
  | .initSetHold => some (true, .hold, .initSetWp)
  | .initSetWp => some (true, .wp, .initWrsr)
  | _ => none

/-- What a completion move makes of a state in which `ph` is `IDLE` again (R100, R110, R111, R122, R124, R140, R142). -/
inductive CompleteMove (s : State) : State → Prop where
  | highByte (hq : s.q = .rdRead) (ho : s.op = .readWord) (hb : s.bi = 0) :
      CompleteMove s { s with HI := s.RX, bi := 1 }
  | word (hq : s.q = .rdRead) (ho : s.op = .readWord) (hb : s.bi = 1) :
      CompleteMove s (finishValue (joinBytes s.HI s.RX) s)
  | byte (hq : (s.q = .rdRead ∧ s.op = .readByte) ∨ s.q = .rsRdsr) : CompleteMove s (finishValue (zext16 s.RX) s)
  | status (hq : s.q = .initWrsr ∨ s.q = .wsWrsr) : CompleteMove s (finish .ok s)
  | wren (hq : s.q = .wbWren) : CompleteMove s (s.toQ .wbWrite)
  | write (hq : s.q = .wbWrite) : CompleteMove s { s with np := 0, q := .wbPoll }
  | pollLowByte (hq : s.q = .wbPoll) (hw : wip s.RX = false) (ho : s.op = .writeWord) (hb : s.bi = 0) :
      CompleteMove s { s with np := s.np + 1, bi := 1, q := .wbWren }
  | pollOk (hq : s.q = .wbPoll) (hw : wip s.RX = false) (ho : ¬(s.op = .writeWord ∧ s.bi = 0)) :
      CompleteMove s (finish .ok { s with np := s.np + 1 })
  | pollTimeout (hq : s.q = .wbPoll) (hw : wip s.RX = true)
      (hl : pollLimitReached s.par.pollLimit (s.np + 1) = true) :
      CompleteMove s (finish .errDeviceTimeout { s with np := s.np + 1 })
  | pollAgain (hq : s.q = .wbPoll) (hw : wip s.RX = true)
      (hl : pollLimitReached s.par.pollLimit (s.np + 1) = false) : CompleteMove s { s with np := s.np + 1 }

/-- What a completion move can do. -/
theorem complete_cases {s s' : State} {t : Txn} (ho : s.owned = some t) (h : complete s = .next s') :
    CompleteMove s s' := by
  unfold State.owned at ho
  unfold complete at h
  cases hq : s.q <;> simp only [hq, reduceCtorEq] at ho h
  · cases h; exact .status (.inl hq)
  · unfold completeRead at h
    split at h
    · next hop =>
      split at h
      · next hb => cases h; exact .highByte hq hop hb
      · next hb => cases h; exact .word hq hop (bit_eq_one hb)
    · next hop => cases h; exact .byte (.inl ⟨hq, hop⟩)
    all_goals cases h
  · cases h; exact .wren hq
  · cases h; exact .write hq
  · cases h
    unfold completePoll
    split
    · next hw =>
      split
      · next hb => exact .pollLowByte hq hw hb.1 hb.2
      · next hb => exact .pollOk hq hw hb
    · next hw =>
      have hw := Bool.eq_true_of_not_eq_false hw
      split
      · next hl => exact .pollTimeout hq hw hl
      · next hl => exact .pollAgain hq hw (Bool.eq_false_of_not_eq_true hl)
  · cases h; exact .byte (.inr hq)
  · cases h; exact .status (.inr hq)

/-- What every completion move keeps, and the one event it may emit. -/
theorem CompleteMove.keeps {s u : State} (h : CompleteMove s u) :
    u.par = s.par ∧ u.A = s.A ∧ u.V = s.V ∧ u.RX = s.RX ∧ u.op = s.op ∧ u.ph = s.ph ∧ u.cs = s.cs ∧ u.hold = s.hold ∧
      u.wp = s.wp ∧ u.dev = s.dev ∧ u.env = s.env ∧ u.moves = s.moves ∧ u.bench = s.bench ∧
      (u.trace = s.trace ∨ ∃ r, u.trace = s.trace ++ [.done s.op r]) := by
  cases h <;> simp [finishValue]

/-- What a step of the block makes of a state. -/
inductive BlockMove (s : State) : State → Prop where
  | row (t : Txn) (s' : State) (ho : s.owned = some t) (hp : s.ph ≠ .deselected) (h : RowMove t s s') : BlockMove s s'
  | complete (t : Txn) (s' : State) (ho : s.owned = some t) (hp : s.ph = .deselected)
      (h : CompleteMove (s.toPh .idle) s') : BlockMove s s'
  | lineFault (x : Bool × LineId × SeqState) (ha : s.q.lineAction = some x) (h : s.faultDue = true) :
      BlockMove s (takeBusFault s.popFault)
  | cfg (l : LineId) (q' : SeqState) (ha : s.q.lineAction = some (false, l, q')) :
      BlockMove s (((s.popFault.mapLine Line.enable l).emit (.cfg l)).toQ q')
  | drive (l : LineId) (q' : SeqState) (d : Device) (e : Env) (ha : s.q.lineAction = some (true, l, q'))
      (he : e.faults = s.env.faults.tail)
      (hm : d.mem = s.dev.mem ∨ (s.dev.mode ≠ .open ∧
        ∃ a b, decodeFrame s.dev.frame = .ok (.write a b) ∧ s.inArray a = true ∧
          d.mem = s.dev.mem.write (s.location a) b))
      (hfr : d.frame = [] ∨ d = s.dev) (hmo : d.mode = s.dev.mode ∨ d.mode = .open) :
      BlockMove s ((((s.mapLine (Line.drive .high) l).withWorld d e).emit (.set l .high)).toQ q')
  | rest (hq : s.q = .idle ∨ s.q = .faulted) : BlockMove s s

theorem cfg_block {s : State} {l : LineId} {q' : SeqState} (ha : s.q.lineAction = some (false, l, q')) :
    BlockMove s (cfgOut l (·.toQ q') s) := by
  cases hf : s.faultDue with
  | true => rw [cfgOut, primitive_fault hf]; exact .lineFault _ ha hf
  | false => rw [cfgOut_ok hf]; exact .cfg l q' ha

theorem drive_block {s : State} {l : LineId} {q' : SeqState} (ha : s.q.lineAction = some (true, l, q')) :
    BlockMove s (setLevel l .high (·.toQ q') s) := by
  cases hf : s.faultDue with
  | true => rw [setLevel, primitive_fault hf]; exact .lineFault _ ha hf
  | false =>
    obtain ⟨d, e, h, he, hm, hfr, hmo⟩ := setLevel_ok hf l .high (·.toQ q')
    rw [h]
    exact .drive l q' d e ha he (hm.imp_right fun h => h.2.2) (hfr.imp_right fun h => h.1) hmo

/-- The states that own no transaction (R78). -/
theorem owned_none {s : State} (h : s.owned = none) :
    s.q = .idle ∨ s.q = .faulted ∨ ∃ x, s.q.lineAction = some x := by
  unfold State.owned at h
  cases hq : s.q <;> simp [hq, SeqState.lineAction] at h ⊢

theorem initLineStep_block {s : State} (h : s.owned = none) : BlockMove s (initLineStep s) := by
  unfold State.owned at h
  unfold initLineStep
  cases hq : s.q <;> simp [hq] at h ⊢ <;> first
    | exact .rest (by simp [hq])
    | exact cfg_block (by simp [hq, SeqState.lineAction])
    | exact drive_block (by simp [hq, SeqState.lineAction])

/-- What a step of the block can do. -/
theorem blockStep_cases {s s' : State} (h : blockStep s = .next s') : BlockMove s s' := by
  unfold blockStep at h
  split at h
  · next t ho =>
    split at h
    · next hp => exact .complete t s' ho hp (complete_cases (t := t) ho h)
    · next hp => exact .row t s' ho hp (phaseRow_cases h).2
  · next ho => cases h; exact initLineStep_block ho

/-! ### One step of the machine -/

/-- What a step takes up, and from where (log 2). -/
theorem pick_cases (s : State) :
    (∃ f fs, s.bench = f :: fs ∧ s.q = .idle ∧ s.pick = .run (.frame f) (s.withInputs s.moves fs)) ∨
      ((s.bench = [] ∨ s.q ≠ .idle) ∧
        ((∃ ms, s.moves = .reset :: ms ∧ s.pick = .reset (s.withInputs ms s.bench)) ∨
          (∃ ms, s.moves = .deviceDone :: ms ∧ s.pick = .device (s.withInputs ms s.bench)) ∨
          (∃ ms, s.moves = .pass :: ms ∧ s.pick = .block (s.withInputs ms s.bench)) ∨
          (∃ w ms, s.moves = .force w :: ms ∧ s.pick = .run (.hop w) (s.withInputs ms s.bench)) ∨
          (∃ w ms, s.moves = .call w :: ms ∧ s.q = .idle ∧ s.pick = .run (.hop w) (s.withInputs ms s.bench)) ∨
          (∃ w ms, s.moves = .call w :: ms ∧ s.q ≠ .idle ∧ s.pick = .block s) ∨
          (s.moves = [] ∧ s.pick = .block s))) := by
  unfold State.pick
  cases hb : s.bench with
  | cons f fs =>
    by_cases hq : s.q = .idle
    · exact .inl ⟨f, fs, rfl, hq, if_pos hq⟩
    · refine .inr ⟨.inr hq, ?_⟩
      simp only [hq, if_false, State.pickMove]
      cases hmv : s.moves with
      | nil => simp
      | cons m ms => cases m <;> simp [State.withInputs, hq, hb]
  | nil =>
    refine .inr ⟨.inl rfl, ?_⟩
    simp only [State.pickMove]
    cases hmv : s.moves with
    | nil => simp
    | cons m ms =>
      cases m <;> simp [State.withInputs, hb]
      by_cases hq : s.q = .idle <;> simp [hq]

/-- What a step can do: start or send what it takes up, reset, let the device complete, or let the block step. -/
inductive StepMove (s : State) : State → Prop where
  | started (o : HostOp) (a v : Half) (w : HostWord) (ms : List Move) (hq : s.q = .idle)
      (hm : s.moves = .call w :: ms ∨ s.moves = .force w :: ms) :
      StepMove s ((s.withInputs ms s.bench).started o a v)
  | window (t : Txn) (f : List Byte) (fs : List (List Byte)) (s' : State) (hq : s.q = .idle) (hb : s.bench = f :: fs)
      (h : window t (s.withInputs s.moves fs) = .next s') : StepMove s s'
  | reset (ms : List Move) (hm : s.moves = .reset :: ms) : StepMove s (resetBlock (s.withInputs ms s.bench))
  | device (ms : List Move) (hm : s.moves = .deviceDone :: ms) : StepMove s (deviceComplete (s.withInputs ms s.bench))
  | block (ms : List Move) (s' : State) (hm : ms = s.moves ∨ s.moves = .pass :: ms)
      (h : BlockMove (s.withInputs ms s.bench) s') : StepMove s s'

/-- A command word is a host operation. -/
theorem decodeHop_isHost (w : HostWord) : (decodeHop w).isHost = true := by
  unfold decodeHop
  split <;> rfl

/-- A frame the decoder accepts is no host operation. -/
theorem decodeFrame_isHost {bs : List Byte} {i : Instr} (h : decodeFrame bs = .ok i) : i.isHost = false := by
  cases bs with
  | nil => cases h
  | cons o rest =>
    simp only [decodeFrame] at h
    split_ifs at h <;> (try split at h) <;> cases h <;> rfl

theorem Txn.instr_isHost (t : Txn) : t.instr.isHost = false := by
  obtain ⟨k, _, _⟩ := t
  cases k <;> rfl

/-- A step that takes up a code is the decoded instruction's meaning, and refuses a frame that is none. -/
theorem step_of_pick {s u : State} {c : Code} (h : s.pick = .run c u) :
    step s = runCode c u := by
  unfold step
  rw [h]

/-- A command word that is taken up and answers a next state is started from `Q_IDLE`. -/
theorem step_host {s u s' : State} {w : HostWord} (hp : s.pick = .run (.hop w) u) (h : step s = .next s') :
    ∃ o a v, u.q = .idle ∧ s' = u.started o a v := by
  rw [step_of_pick hp] at h
  rcases exec_cases (i := decodeHop w) h with ⟨t, ht, -⟩ | ⟨o, a, v, -, hq, hs⟩
  · have := decodeHop_isHost w
    rw [ht, Txn.instr_isHost] at this
    cases this
  · exact ⟨o, a, v, hq, hs⟩

/-- A bench frame that is taken up and answers a next state is sent as one window. -/
theorem step_frame {s u s' : State} {bs : List Byte} (hp : s.pick = .run (.frame bs) u) (h : step s = .next s') :
    ∃ t : Txn, window t u = .next s' := by
  rw [step_of_pick hp, runCode] at h
  split at h
  · next i hi =>
    rcases exec_cases h with ⟨t, -, hw⟩ | ⟨_, _, _, hh, -⟩
    · exact ⟨t, hw⟩
    · rw [decodeFrame_isHost hi] at hh; cases hh
  · cases h

/-- What a step of the machine can do. -/
theorem step_cases {s s' : State} (h : step s = .next s') : StepMove s s' := by
  have hself : s = s.withInputs s.moves s.bench := rfl
  rcases pick_cases s with ⟨f, fs, hb, hq, hp⟩ | ⟨-, ⟨ms, hm, hp⟩ | ⟨ms, hm, hp⟩ | ⟨ms, hm, hp⟩ | ⟨w, ms, hm, hp⟩ |
    ⟨w, ms, hm, hq, hp⟩ | ⟨w, ms, hm, hq, hp⟩ | ⟨hm, hp⟩⟩
  · obtain ⟨t, hw⟩ := step_frame hp h
    exact .window t f fs s' hq hb hw
  · unfold step at h; rw [hp] at h; cases h; exact .reset ms hm
  · unfold step at h; rw [hp] at h; cases h; exact .device ms hm
  · unfold step at h; rw [hp] at h; exact .block ms s' (.inr hm) (blockStep_cases h)
  · obtain ⟨o, a, v, hq, rfl⟩ := step_host hp h
    exact .started o a v w ms hq (.inr hm)
  · obtain ⟨o, a, v, -, rfl⟩ := step_host hp h
    exact .started o a v w ms hq (.inl hm)
  · unfold step at h; rw [hp, hself] at h; exact .block s.moves s' (.inl rfl) (blockStep_cases h)
  · unfold step at h; rw [hp, hself] at h; exact .block s.moves s' (.inl rfl) (blockStep_cases h)

/-! ### Runs -/

@[simp] theorem runFor_zero (s : State) : runFor 0 s = .next s := rfl

/-- A run is its first step and then the rest of it. -/
theorem runFor_succ {s u : State} (h : step s = .next u) (n : Nat) : runFor (n + 1) s = runFor n u := by
  have h' : Sys2Proof.core.step s = .next u := h
  simp only [runFor, Host.Core.run, h']
  rfl

/-- A run of one step is that step. -/
theorem runFor_one (s : State) : runFor 1 s = step s := by
  have h' : Sys2Proof.core.step s = step s := rfl
  simp only [runFor, Host.Core.run, h']
  cases step s <;> rfl

/-- A run in two parts. -/
theorem runFor_add {s u : State} {m : Nat} (h : runFor m s = .next u) (n : Nat) : runFor (m + n) s = runFor n u := by
  induction m generalizing s with
  | zero => rw [Nat.zero_add]; cases h; rfl
  | succ m ih =>
    rw [Nat.succ_add]
    simp only [runFor, Host.Core.run] at h ⊢
    split at h
    · exact ih h
    · cases h
    · cases h

/-- With nothing to take up the block steps. -/
theorem step_alone {s : State} (h : Alone s) : step s = blockStep s := by
  simp only [step, State.pick, State.pickMove, h.1, h.2]

/-! ### The ports of a step (R25) -/

/-- The event of a step is the one its trace ends with. -/
theorem stepEvent_of_emits {s t : State} {e : Event} (h : t.trace = s.trace ++ [e]) : stepEvent s t = some e := by
  simp [stepEvent, h]

/-- A silent step has none. -/
theorem stepEvent_of_silent {s t : State} (h : t.trace = s.trace) : stepEvent s t = none := by simp [stepEvent, h]

/-- `h_done` in the step that emits `Done`, whatever the result (R25, R150). -/
theorem hDone_of_done {s t : State} {o : HostOp} {res : Result} (h : t.trace = s.trace ++ [.done o res]) :
    (ports s t).hDone = true := by simp [ports, stepEvent_of_emits h, Event.isDone]

/-- No `h_done` in a silent step: one pulse per operation (R25). -/
theorem hDone_of_silent {s t : State} (h : t.trace = s.trace) : (ports s t).hDone = false := by
  simp [ports, stepEvent_of_silent h]

end Sys2Proof.Machine
end

