-- ==== Sys2Proof/Laws/Window.lean ====
section
/-! SUPPORT. The spec lemma of `window`, for each kind of transaction: what a whole chip-select window in which no fault
is raised leaves, with any device (R73 to R75, R80 to R85). -/

namespace Sys2Proof.Machine

open Sys2Proof

/-- A part of a schedule without faults has none. -/
theorem quiet_drop {s u : State} {n : Nat} (h : Quiet s) (he : u.env.faults = s.env.faults.drop n) : Quiet u := by
  intro b hb
  rw [he] at hb
  exact h b (List.mem_of_mem_drop hb)

/-- A row taken without a fault is followed by the rest. -/
theorem runRows_next {t : Txn} {s u : State} {n : Nat} (hq : s.q ≠ .faulted) (h : phaseRow t s = .next u) :
    runRows t (n + 1) s = runRows t n u := by
  rw [runRows, if_neg hq, h]

theorem xferEvents_snoc {bs rx : List Byte} (b r : Byte) (h : bs.length = rx.length) :
    xferEvents (bs ++ [b]) (rx ++ [r]) = xferEvents bs rx ++ [.xfer b r] := by
  simp [xferEvents, List.zipWith_append h]

/-- `u` is `s` with a window open and no fault raised in it: bytes `bs` sent, `rx` received, `RX = d`, in phase `p`. A
device whose behaviour is given has received exactly `bs`. -/
structure InWindow (s : State) (bs rx : List Byte) (d : Byte) (p : Phase) (u : State) : Prop where
  keeps : WireKeeps s u
  q : u.q = s.q
  faults : u.env.faults = s.env.faults.drop (bs.length + 1)
  sent : u.dev.mode = .open ∨ u.dev.frame = bs
  mode : u.dev.mode = s.dev.mode ∨ u.dev.mode = .open
  mem : u.dev.mem = s.dev.mem
  RX : u.RX = d
  cs : u.cs = Line.drive .low s.cs
  ph : u.ph = p
  trace : u.trace = s.trace ++ .set .cs .low :: xferEvents bs rx
  len : bs.length = rx.length

/-- `u` is `s` after a whole window without a fault: `bs` sent, `rx` received, `RX = d`. -/
structure AfterWindow (s : State) (bs rx : List Byte) (d : Byte) (u : State) : Prop where
  driven : u.cs.driven = true
  same : SameButWindow s u
  faults : u.env.faults = s.env.faults.drop (bs.length + 2)
  RX : u.RX = d
  lvl : u.cs.lvl = .high
  trace : u.trace = s.trace ++ windowEvents bs rx
  mem : ∀ k, (∀ a d, decodeFrame bs = .ok (.write a d) → k ≠ s.location a) → u.dev.mem.read k = s.dev.mem.read k

theorem InWindow.noFault {s u : State} {bs rx : List Byte} {d : Byte} {p : Phase} (h : InWindow s bs rx d p u)
    (hq : Quiet s) : u.faultDue = false := faultDue_of_quiet (quiet_drop hq h.faults)

theorem AfterWindow.quiet {s u : State} {bs rx : List Byte} {d : Byte} (h : AfterWindow s bs rx d u) (hq : Quiet s) :
    Quiet u := quiet_drop hq h.faults

/-! ### A window cut by a fault (R151) -/

/-- The row at which a fault is due takes it, and the later rows are not run. -/
theorem runRows_fault {t : Txn} {u : State} (n : Nat) (hq : u.q ≠ .faulted) (ha : t.kind.allows u.ph = true)
    (hp : u.ph ≠ .deselected) (hf : u.faultDue = true) : runRows t (n + 1) u = .next (takeBusFault u.popFault) := by
  obtain ⟨w, hw, hm⟩ := phaseRow_allowed ha
  have hw' : w = takeBusFault u.popFault := by
    obtain ⟨k, a, x⟩ := t
    unfold phaseRow at hw
    cases hph : u.ph <;> cases k <;>
      simp only [hph, setLevel, xfer, primitive_fault hf, Host.Outcome.next.injEq, reduceCtorEq, ne_eq,
        not_true_eq_false] at hw hp <;> exact hw.symm
  rw [runRows_next hq hw, hw']
  cases n <;> simp [runRows]

/-- A fault that takes the place of the primitive after `j` transfers leaves the frame cut there. -/
theorem InWindow.cutFrame {s u : State} {tx rx : List Byte} {d : Byte} {p : Phase} {j : Nat} {keeps : Bool}
    (h : InWindow s (tx.take j) rx d p u) (hj : j ≤ tx.length) (hp : p.inWindow = true)
    (hd : if keeps = true ∧ j = tx.length then rx.getLast? = some d else d = s.RX) :
    CutFrame s keeps tx (j + 1) (takeBusFault u.popFault) := by
  have hl : rx.length = j := by rw [← h.len, List.length_take, Nat.min_eq_left hj]
  have k := h.keeps
  refine ⟨rfl, rfl, by simp [k.par], by simp [k.A], by simp [k.V], by simp [k.HI], by simp [k.R], by simp [k.np],
    by simp [k.op], by simp [k.bi], by simp [k.hold], by simp [k.wp], by simp [k.moves], by simp [k.bench],
    by simp [h.cs], by simp [h.ph, hp], rx ++ List.replicate (tx.length - j) 0, by simp [hl, hj], ?_, ?_⟩
  · have : (windowEvents tx (rx ++ List.replicate (tx.length - j) 0)).take (j + 1) =
        .set .cs .low :: xferEvents (tx.take j) rx := by
      conv_lhs => rw [← List.take_append_drop j tx]
      have hlen : (xferEvents (tx.take j) rx).length = j := by simp [xferEvents, hl, hj]
      rw [windowEvents, List.take_succ_cons, xferEvents, List.zipWith_append (by simp [hl, hj]), List.append_assoc]
      exact congrArg _ (List.take_left' hlen)
    rw [this]; simp [h.trace]
  · simp only [Nat.add_right_cancel_iff, takeBusFault_RX, State.popFault_RX, h.RX]
    split at hd
    · next hc => rw [if_pos hc, hc.2]; simpa using hd
    · next hc => rw [if_neg hc]; exact hd

/-! ### The stages of a window -/

theorem window_opens {t : Txn} {s : State} (hp : s.ph = .idle) (h : s.faultDue = false) :
    ∃ u, phaseRow t s = .next u ∧ InWindow s [] [] s.RX .selected u := by
  obtain ⟨d, e, h1, he, hm, hfr, hmo⟩ := setLevel_ok h .cs .low (·.toPh .selected)
  refine ⟨_, (phaseRow_idle hp).trans (congrArg _ h1), by constructor <;> simp, by simp,
    by simpa using he, ?_, by simpa using hmo, ?_, by simp, by simp, by simp, by simp [xferEvents], rfl⟩
  · rcases hfr with h | ⟨h, h2⟩
    · right; simpa using h
    · left; simp [h]; exact h2 rfl
  · rcases hm with hm | ⟨-, hm, -⟩
    · simpa using hm
    · cases hm

theorem window_sends {t : Txn} {s u : State} {bs rx : List Byte} {p p' : Phase} {b d : Byte} (hq : s.q ≠ .faulted)
    (h : InWindow s bs rx d p u) (hf : u.faultDue = false) (hs : t.sends p = some (b, p')) :
    ∃ r w, phaseRow t u = .next w ∧ InWindow s (bs ++ [b]) (rx ++ [r]) d p' w := by
  obtain ⟨r, d, e, h1, he, hm, hfr⟩ := xfer_ok hf b (Machine.discard p')
  have hs' : t.sends u.ph = some (b, p') := by rw [h.ph]; exact hs
  refine ⟨r, _, (phaseRow_sends hs').trans (congrArg _ h1), ?_, by simp [Machine.discard, h.q],
    by simp [Machine.discard, he, h.faults], ?_, by simpa [Machine.discard, hfr.1] using h.mode,
    by simp [Machine.discard, hm, h.mem],
    by simp [Machine.discard, h.RX], by simp [Machine.discard, h.cs], by simp [Machine.discard],
    by simp [Machine.discard, h.trace, xferEvents_snoc b r h.len], by simp [h.len]⟩
  · refine h.keeps.trans ?_ (by rw [h.q]; exact hq)
    constructor <;> simp [Machine.discard]
  · simp only [Machine.discard, State.toPh_dev, State.emit_dev, State.withWorld_dev]
    rw [hfr.1, hfr.2]
    by_cases ho : u.dev.mode = .open
    · exact .inl ho
    · right; rw [if_neg ho, h.sent.resolve_left ho]

theorem window_receives {t : Txn} {s u : State} {bs rx : List Byte} {d : Byte} {p : Phase} (hq : s.q ≠ .faulted)
    (h : InWindow s bs rx d p u) (hf : u.faultDue = false) (hs : t.receives p) :
    ∃ r w, phaseRow t u = .next w ∧ InWindow s (bs ++ [t.data]) (rx ++ [r]) r .dataDone w := by
  obtain ⟨r, d, e, h1, he, hm, hfr⟩ := xfer_ok hf t.data (latchRx .dataDone)
  have hs' : t.receives u.ph := by rw [h.ph]; exact hs
  refine ⟨r, _, (phaseRow_receives hs').trans (congrArg _ h1), ?_, by simp [h.q],
    by simp [he, h.faults], ?_, by simpa [hfr.1] using h.mode, by simp [hm, h.mem], by simp, by simp [h.cs], by simp,
    by simp [h.trace, xferEvents_snoc t.data r h.len], by simp [h.len]⟩
  · refine h.keeps.trans ?_ (by rw [h.q]; exact hq)
    constructor <;> simp
  · simp only [latchRx_dev, State.emit_dev, State.withWorld_dev]
    rw [hfr.1, hfr.2]
    by_cases ho : u.dev.mode = .open
    · exact .inl ho
    · right; rw [if_neg ho, h.sent.resolve_left ho]

theorem window_closes {t : Txn} {s u : State} {bs rx : List Byte} {d : Byte} {p : Phase} (hi : s.ph = .idle)
    (hq : s.q ≠ .faulted) (h : InWindow s bs rx d p u) (hf : u.faultDue = false) (hs : t.closes p) :
    ∃ v w, phaseRow t u = .next v ∧ v.q ≠ .faulted ∧ phaseRow t v = .next w ∧ AfterWindow s bs rx d w := by
  obtain ⟨d, e, h1, he, hm, -, -⟩ := setLevel_ok hf .cs .high (·.toPh .deselected)
  have hs' : t.closes u.ph := by rw [h.ph]; exact hs
  have k := h.keeps
  refine ⟨_, _, (phaseRow_closes hs').trans (congrArg _ h1), by simp [h.q, hq], phaseRow_deselected rfl, by simp, ?_,
    by simp [he, h.faults], by simp [h.RX], by simp, by simp [h.trace, windowEvents], ?_⟩
  · refine ⟨?_, ?_, ?_, ?_, ?_, ?_, ?_, ?_, ?_, ?_, ?_, ?_, ?_, ?_, ?_, ?_⟩ <;>
      simp [k.par, k.A, k.V, k.HI, k.R, k.np, h.q, k.op, k.bi, hi, k.oe, k.hold, k.wp, k.moves, k.bench]
    rcases k.outcome with ⟨-, h⟩ | ⟨h2, -⟩
    · exact h
    · rw [h.q] at h2; exact absurd h2 hq
  · intro key hk
    simp only [State.toPh_dev, State.emit_dev, State.withWorld_dev]
    rcases hm with hm | ⟨-, -, ho, a, b, hd, -, hm⟩
    · rw [hm, h.mem]
    · rw [h.sent.resolve_left ho] at hd
      have hl : u.location a = s.location a := State.location_congr k.par (h.mode.resolve_right ho) a
      rw [hm, hl, Memory.read_write_other _ _ (hk a b hd), h.mem]

/-- WREN and WRDI. -/
theorem window_short {t : Txn} (ht : t.kind = .wren ∨ t.kind = .wrdi) {s : State} (hp : s.ph = .idle)
    (hq : s.q ≠ .faulted) (h : Quiet s) :
    ∃ u r, window t s = .next u ∧ AfterWindow s [t.kind.opcode] [r] s.RX u := by
  obtain ⟨u1, e1, m1⟩ := window_opens (t := t) hp (faultDue_of_quiet h)
  obtain ⟨r1, u2, e2, m2⟩ := window_sends (t := t) hq m1 (m1.noFault h) (p' := .opcodeSent) (b := t.kind.opcode) rfl
  obtain ⟨u3, u4, e3, q3, e4, f⟩ := window_closes (t := t) hp hq m2 (m2.noFault h) (.inl ⟨ht, rfl⟩)
  have hst : t.kind.steps = 4 := by rcases ht with h | h <;> rw [h] <;> rfl
  refine ⟨u4, r1, ?_, f⟩
  rw [window, if_pos ⟨hp, hq⟩, hst, runRows_next hq e1, runRows_next (by rw [m1.q]; exact hq) e2,
    runRows_next (by rw [m2.q]; exact hq) e3, runRows_next q3 e4]; rfl

theorem window_wrsr {t : Txn} (ht : t.kind = .wrsr) {s : State} (hp : s.ph = .idle) (hq : s.q ≠ .faulted)
    (h : Quiet s) :
    ∃ u r r2, window t s = .next u ∧ AfterWindow s [t.kind.opcode, t.data] [r, r2] s.RX u := by
  obtain ⟨u1, e1, m1⟩ := window_opens (t := t) hp (faultDue_of_quiet h)
  obtain ⟨r1, u2, e2, m2⟩ := window_sends (t := t) hq m1 (m1.noFault h) (p' := .opcodeSent) (b := t.kind.opcode) rfl
  obtain ⟨r2, u3, e3, m3⟩ := window_sends (t := t) hq m2 (m2.noFault h) (p' := .dataDone) (b := t.data)
    (by simp [Txn.sends, ht])
  obtain ⟨u4, u5, e4, q4, e5, f⟩ := window_closes (t := t) hp hq m3 (m3.noFault h)
    (.inr ⟨by simp [ht], by simp [ht], rfl⟩)
  refine ⟨u5, r1, r2, ?_, f⟩
  rw [window, if_pos ⟨hp, hq⟩, ht, show TxnKind.wrsr.steps = 5 from rfl, runRows_next hq e1,
    runRows_next (by rw [m1.q]; exact hq) e2, runRows_next (by rw [m2.q]; exact hq) e3,
    runRows_next (by rw [m3.q]; exact hq) e4, runRows_next q4 e5]; rfl

theorem window_rdsr {t : Txn} (ht : t.kind = .rdsr) {s : State} (hp : s.ph = .idle) (hq : s.q ≠ .faulted)
    (h : Quiet s) :
    ∃ u r d, window t s = .next u ∧ AfterWindow s [t.kind.opcode, t.data] [r, d] d u := by
  obtain ⟨u1, e1, m1⟩ := window_opens (t := t) hp (faultDue_of_quiet h)
  obtain ⟨r1, u2, e2, m2⟩ := window_sends (t := t) hq m1 (m1.noFault h) (p' := .opcodeSent) (b := t.kind.opcode) rfl
  obtain ⟨r2, u3, e3, m3⟩ := window_receives (t := t) hq m2 (m2.noFault h) (.inl ⟨ht, rfl⟩)
  obtain ⟨u4, u5, e4, q4, e5, f⟩ := window_closes (t := t) hp hq m3 (m3.noFault h)
    (.inr ⟨by simp [ht], by simp [ht], rfl⟩)
  refine ⟨u5, r1, r2, ?_, f⟩
  rw [window, if_pos ⟨hp, hq⟩, ht, show TxnKind.rdsr.steps = 5 from rfl, runRows_next hq e1,
    runRows_next (by rw [m1.q]; exact hq) e2, runRows_next (by rw [m2.q]; exact hq) e3,
    runRows_next (by rw [m3.q]; exact hq) e4, runRows_next q4 e5]; rfl

theorem window_read {t : Txn} (ht : t.kind = .read) {s : State} (hp : s.ph = .idle) (hq : s.q ≠ .faulted)
    (h : Quiet s) :
    ∃ u r r2 r3 d, window t s = .next u ∧
      AfterWindow s [t.kind.opcode, hiByte t.addr, loByte t.addr, t.data] [r, r2, r3, d] d u := by
  obtain ⟨u1, e1, m1⟩ := window_opens (t := t) hp (faultDue_of_quiet h)
  obtain ⟨r1, u2, e2, m2⟩ := window_sends (t := t) hq m1 (m1.noFault h) (p' := .opcodeSent) (b := t.kind.opcode) rfl
  obtain ⟨r2, u3, e3, m3⟩ := window_sends (t := t) hq m2 (m2.noFault h) (p' := .addrHiSent) (b := hiByte t.addr)
    (by simp [Txn.sends, ht])
  obtain ⟨r3, u4, e4, m4⟩ := window_sends (t := t) hq m3 (m3.noFault h) (p' := .addrSent) (b := loByte t.addr)
    (by simp [Txn.sends, ht])
  obtain ⟨r4, u5, e5, m5⟩ := window_receives (t := t) hq m4 (m4.noFault h) (.inr ⟨ht, rfl⟩)
  obtain ⟨u6, u7, e6, q6, e7, f⟩ := window_closes (t := t) hp hq m5 (m5.noFault h)
    (.inr ⟨by simp [ht], by simp [ht], rfl⟩)
  refine ⟨u7, r1, r2, r3, r4, ?_, f⟩
  rw [window, if_pos ⟨hp, hq⟩, ht, show TxnKind.read.steps = 7 from rfl, runRows_next hq e1,
    runRows_next (by rw [m1.q]; exact hq) e2, runRows_next (by rw [m2.q]; exact hq) e3,
    runRows_next (by rw [m3.q]; exact hq) e4, runRows_next (by rw [m4.q]; exact hq) e5,
    runRows_next (by rw [m5.q]; exact hq) e6, runRows_next q6 e7]; rfl

theorem window_write {t : Txn} (ht : t.kind = .write) {s : State} (hp : s.ph = .idle) (hq : s.q ≠ .faulted)
    (h : Quiet s) :
    ∃ u r r2 r3 r4, window t s = .next u ∧
      AfterWindow s [t.kind.opcode, hiByte t.addr, loByte t.addr, t.data] [r, r2, r3, r4] s.RX u := by
  obtain ⟨u1, e1, m1⟩ := window_opens (t := t) hp (faultDue_of_quiet h)
  obtain ⟨r1, u2, e2, m2⟩ := window_sends (t := t) hq m1 (m1.noFault h) (p' := .opcodeSent) (b := t.kind.opcode) rfl
  obtain ⟨r2, u3, e3, m3⟩ := window_sends (t := t) hq m2 (m2.noFault h) (p' := .addrHiSent) (b := hiByte t.addr)
    (by simp [Txn.sends, ht])
  obtain ⟨r3, u4, e4, m4⟩ := window_sends (t := t) hq m3 (m3.noFault h) (p' := .addrSent) (b := loByte t.addr)
    (by simp [Txn.sends, ht])
  obtain ⟨r4, u5, e5, m5⟩ := window_sends (t := t) hq m4 (m4.noFault h) (p' := .dataDone) (b := t.data)
    (by simp [Txn.sends, ht])
  obtain ⟨u6, u7, e6, q6, e7, f⟩ := window_closes (t := t) hp hq m5 (m5.noFault h)
    (.inr ⟨by simp [ht], by simp [ht], rfl⟩)
  refine ⟨u7, r1, r2, r3, r4, ?_, f⟩
  rw [window, if_pos ⟨hp, hq⟩, ht, show TxnKind.write.steps = 7 from rfl, runRows_next hq e1,
    runRows_next (by rw [m1.q]; exact hq) e2, runRows_next (by rw [m2.q]; exact hq) e3,
    runRows_next (by rw [m3.q]; exact hq) e4, runRows_next (by rw [m4.q]; exact hq) e5,
    runRows_next (by rw [m5.q]; exact hq) e6, runRows_next q6 e7]; rfl

end Sys2Proof.Machine
end

