-- ==== Sys2Proof/Tests/Slice0.lean ====
section
/-! SUPPORT. Tests. Expected results are the vectors of spec/95_test_vectors.md, or are read off the rule named beside the
test; the second half shows, for each statement with hypotheses, a state that meets them. -/

namespace Sys2Proof.Tests

open Sys2Proof Sys2Proof.Machine

/-! ### Helpers -/

/-- An output driven to a level. -/
def driven (lvl : Level) : Line := ⟨true, lvl, true⟩

/-- The device of the read vectors: `mem[0x10] = 0x07`, `mem[0x11] = 0x09`, nothing else known, idle. -/
def chip : Device := ⟨.reference, [(0x10, 0x07), (0x11, 0x09)], 0, false, 0, []⟩

/-- Lines ready, the block idle, the reference device idle, unspecified bytes printed as FF. -/
def ready : State :=
  { State.reset with
    par := ⟨0x00, none, false, 0x7FFF⟩
    cs := driven .high
    hold := driven .high
    wp := driven .high
    dev := chip
    env := ⟨[], [0xFF, 0xFF, 0xFF, 0xFF, 0xFF], [2], [0], [true], 0⟩ }

/-- The block in the middle of an operation. -/
def inside (q : SeqState) (o : HostOp) (p : Phase) : State :=
  { ready with q := q, op := o, ph := p, cs := driven (if p.inWindow then .low else .high) }

/-- The next state has this property; false where there is none. -/
def nextHas (o : Host.Outcome State Fault Refusal) (p : State → Bool) : Bool :=
  match o with
  | .next t => p t
  | .fault _ => false
  | .refused _ => false

/-- The refusal, if there is one. -/
def refusal (o : Host.Outcome State Fault Refusal) : Option Refusal :=
  match o with
  | .next _ => none
  | .fault _ => none
  | .refused r => some r

/-- The state whose next step is told to fault. -/
def faulting (s : State) : State := { s with env := { s.env with faults := [true] } }

/-- Any device, with these bytes to come. -/
def answering (rs : List Byte) (s : State) : State :=
  { s with dev := Device.reset, env := { Env.reset with replies := rs } }

/-! ### WellFormed refuses each ill-formed term -/

/-- R63. -/
theorem test_wf_op7 : (Instr.reservedOp7 0 0).wellFormed = false := by decide
/-- R5: `POLL_LIMIT` is none or positive. -/
theorem test_wf_pollLimit : (⟨0, some 0, false, 0x7FFF⟩ : Config.Params).wellFormed = false := by decide
/-- R38, R46: a mask that reaches beyond the array. -/
theorem test_wf_mask : (⟨0, none, false, 0x8000⟩ : Config.Params).wellFormed = false := by decide
/-- The parameters of the spec are well formed. -/
theorem test_wf_spec : Config.Params.spec.wellFormed = true := by decide

/-! ### Decoding: words written out from the encodings -/

/-- V-F1 to V-F6 (R51, R53). -/
theorem test_decode_frames :
    decodeFrame [0x06] = .ok .wren ∧ decodeFrame [0x04] = .ok .wrdi ∧ decodeFrame [0x05, 0x00] = .ok (.rdsr 0x00) ∧
      decodeFrame [0x01, 0x8C] = .ok (.wrsr 0x8C) ∧ decodeFrame [0x03, 0x12, 0x34, 0x00] = .ok (.read 0x1234 0x00) ∧
      decodeFrame [0x02, 0x12, 0x34, 0xA5] = .ok (.write 0x1234 0xA5) := ⟨rfl, rfl, rfl, rfl, rfl, rfl⟩

/-- V-F7, V-F8: the address is high byte first; the dummy byte is kept. -/
theorem test_decode_order :
    decodeFrame [0x03, 0x00, 0xFF, 0x00] = .ok (.read 0x00FF 0x00) ∧ decodeFrame [0x05, 0xFF] = .ok (.rdsr 0xFF) :=
  ⟨rfl, rfl⟩

/-- R58, R52: no other first byte, no other length. -/
theorem test_decode_rejects :
    decodeFrame [0x0B] = .error (.unknownOpcode 0x0B) ∧ decodeFrame [0x06, 0x00] = .error (.wrongLength 0x06) ∧
      decodeFrame [0x02, 0x00, 0x10, 0x07, 0x09] = .error (.wrongLength 0x02) ∧ decodeFrame [] = .error .emptyFrame :=
  ⟨rfl, rfl, rfl, rfl⟩

/-- V-H0 to V-H7 (R60, R61). -/
theorem test_decode_hop :
    decodeHop 0x000000000 = .init 0 0 ∧ decodeHop 0x100100000 = .readWord 0x0010 0 ∧
      decodeHop 0x200100709 = .writeWord 0x0010 0x0709 ∧ decodeHop 0x300000000 = .readStatus 0 0 ∧
      decodeHop 0x40000008C = .writeStatus 0 0x008C ∧ decodeHop 0x5123400A5 = .writeByte 0x1234 0x00A5 ∧
      decodeHop 0x600100000 = .readByte 0x0010 0 ∧ decodeHop 0x712345678 = .reservedOp7 0x1234 0x5678 :=
  ⟨rfl, rfl, rfl, rfl, rfl, rfl, rfl, rfl⟩

/-- V-H8, V-WS2: the unused fields are kept in the instruction, since `Start` loads them (R62). -/
theorem test_decode_junk :
    decodeHop 0x3DEADBEEF = .readStatus 0xDEAD 0xBEEF ∧ decodeHop 0x455551203 = .writeStatus 0x5555 0x1203 := ⟨rfl, rfl⟩

/-- The opcode table's words run as the first step after reset, each from the place where it is fetched. -/
theorem test_fetch_after_reset :
    step (State.reset.withFetchWord 8 0x04) = exec .wrdi State.reset ∧
      step (State.reset.withFetchWord 32 0x021234A5) = exec (.write 0x1234 0xA5) State.reset ∧
      step (State.reset.withFetchWord 40 0x5123400A5) = exec (.writeByte 0x1234 0x00A5) State.reset ∧
      step (State.reset.withFetchWord 40 0x712345678) = exec (.reservedOp7 0x1234 0x5678) State.reset :=
  ⟨rfl, rfl, rfl, rfl⟩

/-- Fetching works from any state, one with moves to come included. -/
theorem test_fetch_busy :
    step (({ inside .wbPoll .writeByte .selected with moves := [.reset], bench := [[0x06]] } : State).withFetchWord 40
      0x300000000) = exec (.readStatus 0 0) { ready with op := .writeByte, cs := driven .low, moves := [.reset] } := rfl

/-! ### Wire frames -/

/-- R80, R47: WREN on an idle device sets WEL; the trace is V-F1. -/
theorem test_wren : nextHas (exec .wren ready)
    (fun t => t.dev.wel && decide (t.trace = windowEvents [0x06] [0xFF])) = true := by decide
/-- R47: WREN while a write is in progress is ignored. -/
theorem test_wren_busy : nextHas (exec .wren { ready with dev := { chip with busyLeft := 1 } })
    (fun t => !t.dev.wel) = true := by decide
/-- R81, R47: WRDI clears WEL; the trace is V-F2. -/
theorem test_wrdi : nextHas (exec .wrdi { ready with dev := { chip with wel := true } })
    (fun t => !t.dev.wel && decide (t.trace = windowEvents [0x04] [0xFF])) = true := by decide
/-- V-RS1: status 0x8C. -/
theorem test_rdsr : nextHas (exec (.rdsr 0) { ready with dev := { chip with hi6 := 0x23 } })
    (fun t => decide (t.RX = 0x8C ∧ t.trace = windowEvents [0x05, 0x00] [0xFF, 0x8C])) = true := by decide
/-- V-RS2: a busy device answers 0x03, and the poll that ends the cycle clears WEL. -/
theorem test_rdsr_busy : nextHas (exec (.rdsr 0) { ready with dev := { chip with wel := true, busyLeft := 1 } })
    (fun t => decide (t.RX = 0x03 ∧ t.dev.wel = false ∧ t.dev.busyLeft = 0)) = true := by decide
/-- V-WS4: only bits 7:2 are stored. -/
theorem test_wrsr : nextHas (exec (.wrsr 0xFF) ready)
    (fun t => decide (t.dev.status = 0xFC ∧ t.trace = windowEvents [0x01, 0xFF] [0xFF, 0xFF])) = true := by decide
/-- V-WS5: ignored while WEL is 0 where the device requires it. -/
theorem test_wrsr_needs_wel : nextHas (exec (.wrsr 0x0C) { ready with par := ⟨0, none, true, 0x7FFF⟩ })
    (fun t => decide (t.dev.status = 0x00)) = true := by decide
/-- V-RB1: one READ window. -/
theorem test_read : nextHas (exec (.read 0x0010 0x00) ready) (fun t =>
    decide (t.RX = 0x07 ∧ t.trace = windowEvents [0x03, 0x00, 0x10, 0x00] [0xFF, 0xFF, 0xFF, 0x07])) = true := by decide
/-- V-RW5: address bit 15 is sent, and ignored by the reference device. -/
theorem test_read_alias : nextHas (exec (.read 0x8011 0x00) ready) (fun t =>
    decide (t.RX = 0x09 ∧ t.trace = windowEvents [0x03, 0x80, 0x11, 0x00] [0xFF, 0xFF, 0xFF, 0x09])) = true := by decide
/-- V-WB1, the WRITE window: the byte is stored and a cycle of two polls begins. -/
theorem test_write : nextHas (exec (.write 0x1234 0xA5) { ready with dev := { chip with wel := true } }) (fun t =>
    decide (t.dev.mem = [(0x10, 0x07), (0x11, 0x09), (0x1234, 0xA5)] ∧ t.dev.busyLeft = 2 ∧ t.dev.wel = true ∧
      t.trace = windowEvents [0x02, 0x12, 0x34, 0xA5] [0xFF, 0xFF, 0xFF, 0xFF])) = true := by decide
/-- R47, R182: WRITE with WEL clear is ignored, silently. -/
theorem test_write_without_wel : nextHas (exec (.write 0x0010 0xA5) ready)
    (fun t => decide (t.dev = chip)) = true := by decide

/-! ### The contract device (logs 27, 31, 32) -/

/-- The contract device with WEL set, which accepts the coming write command and stays busy after it. -/
def contract : State :=
  { ready with
    dev := { chip with mode := .contract, wel := true }
    env := ⟨[], [0xFF, 0xFF, 0xFF, 0xFF, 0xFF], [2], [2], [true], 0⟩ }

/-- R44 (c), R38: the last location of the array is written; beyond it nothing is known of the device. -/
theorem test_write_contract : nextHas (exec (.write 0x7FFF 0xA5) contract) (fun t =>
    decide (t.dev.mem.read 0x7FFF = some 0xA5 ∧ t.dev.busyLeft = 2 ∧ t.dev.mode = .contract)) = true ∧
  nextHas (exec (.write 0x8000 0xA5) contract) (fun t =>
    decide (t.dev.mem = chip.mem ∧ t.dev.mode = .open)) = true := by decide
/-- U11, N8: no alias of location 0x10 is assumed; the byte is the environment's. -/
theorem test_read_contract : nextHas (exec (.read 0x8010 0x00) contract) (fun t => decide (t.RX = 0xFF)) = true := by decide
/-- N26: bit 1 of the byte is WEL as it stands, then not. -/
theorem test_wrsr_contract : nextHas (exec (.wrsr 0x8E) contract) (fun t =>
    decide (t.dev.hi6 = 0x23 ∧ t.dev.wel = true ∧ t.dev.mode = .contract)) = true ∧
  nextHas (exec (.wrsr 0x8C) contract) (fun t => decide (t.dev.mode = .open)) = true := by decide

/-! ### Host operations: `Start`, and the step that ends each -/

/-- R62: both latches are loaded, `bi` is cleared, `Start` is emitted. -/
theorem test_start : exec (.readStatus 0xDEAD 0xBEEF) { ready with bi := 1 } = .next { ready with
    A := 0xDEAD, V := 0xBEEF, bi := 0, op := .readStatus, q := .rsRdsr,
    trace := [.start .readStatus 0xDEAD 0xBEEF] } := rfl
/-- V-X1: not accepted while the poll runs. -/
theorem test_start_busy : refusal (exec (.init 0 0) (inside .wbPoll .writeByte .idle)) = some .startWhileBusy := by decide
/-- V-X2: operation code 7. -/
theorem test_op7 : refusal (exec (.reservedOp7 0 0) ready) = some .reservedHostOp := by decide
/-- R101: INIT's first line action, from the lines as reset leaves them. -/
theorem test_init_cfg : nextHas (step { State.reset with q := .initCfgCs, op := .init })
    (fun t => decide (t.cs = ⟨true, .low, false⟩ ∧ t.q = .initCfgHold ∧ t.trace = [.cfg .cs])) = true := by decide
/-- R101: its last one. -/
theorem test_init_set : nextHas (step { State.reset with q := .initSetWp, wp := ⟨true, .low, false⟩ })
    (fun t => decide (t.wp = driven .high ∧ t.q = .initWrsr ∧ t.trace = [.set .wp .high])) = true := by decide
/-- V-RW1: `HI = 0x07` after the first window. -/
theorem test_readWord_first : nextHas (step { inside .rdRead .readWord .deselected with RX := 0x07 })
    (fun t => decide (t.HI = 0x07 ∧ t.bi = 1 ∧ t.q = .rdRead ∧ t.ph = .idle ∧ t.trace = [])) = true := by decide
/-- V-RW1: the result. -/
theorem test_readWord_second : nextHas (step { inside .rdRead .readWord .deselected with RX := 0x09, HI := 0x07, bi := 1 })
    (fun t => decide (t.R = 0x0709 ∧ t.trace = [.done .readWord (.okValue 0x0709)])) = true := by decide
/-- V-RB1: zero-extended. -/
theorem test_readByte_done : nextHas (step { inside .rdRead .readByte .deselected with RX := 0xA7 })
    (fun t => decide (t.R = 0x00A7 ∧ t.q = .idle ∧ t.err = 0)) = true := by decide
/-- V-RW3: the second address of `READ_WORD(0xFFFF)` is 0x0000. -/
theorem test_readWord_wrap : nextHas (step { inside .rdRead .readWord .opcodeSent with A := 0xFFFF, bi := 1 })
    (fun t => decide (t.trace = [.xfer 0x00 0xFF])) = true := by decide
/-- V-WW1: the first data byte of a word is the high one. -/
theorem test_writeWord_data : nextHas (step { inside .wbWrite .writeWord .addrSent with V := 0x0709 })
    (fun t => decide (t.trace = [.xfer 0x07 0xFF])) = true := by decide
/-- R124: after WIP = 0 on the first byte of a word, a new WREN. -/
theorem test_writeWord_next : nextHas (step { inside .wbPoll .writeWord .deselected with RX := 0xFE })
    (fun t => decide (t.bi = 1 ∧ t.q = .wbWren ∧ t.trace = [])) = true := by decide
/-- V-WB3: status 0xFE ends the poll. -/
theorem test_poll_ends : nextHas (step { inside .wbPoll .writeByte .deselected with RX := 0xFE })
    (fun t => decide (t.np = 1 ∧ t.trace = [.done .writeByte .ok])) = true := by decide
/-- V-WB5: the third status read in a row with WIP = 1 and `POLL_LIMIT = 3`. -/
theorem test_poll_limit : nextHas
    (step { inside .wbPoll .writeByte .deselected with RX := 0x03, np := 2, par := ⟨0, some 3, false, 0x7FFF⟩ })
    (fun t => decide (t.err = 1 ∧ t.q = .idle ∧ t.trace = [.done .writeByte .errDeviceTimeout])) = true := by decide
/-- V-RS1. -/
theorem test_readStatus_done : nextHas (step { inside .rsRdsr .readStatus .deselected with RX := 0x8C })
    (fun t => decide (t.R = 0x008C ∧ t.trace = [.done .readStatus (.okValue 0x008C)])) = true := by decide
/-- V-WS2: the byte sent is `wdata[7:0]`. -/
theorem test_writeStatus_data : nextHas (step { inside .wsWrsr .writeStatus .opcodeSent with A := 0x5555, V := 0x1203 })
    (fun t => decide (t.trace = [.xfer 0x03 0xFF])) = true := by decide

/-- R25: `h_done` is one pulse, in the step of `Done`; the next step of the idle block has none. -/
theorem test_ports_done : nextHas (step (inside .wsWrsr .writeStatus .deselected)) (fun t =>
    (ports (inside .wsWrsr .writeStatus .deselected) t).hDone && nextHas (step t) (fun u => !(ports t u).hDone)) = true := by
  decide
/-- R25: the transfer of the opcode on the bus ports. -/
theorem test_ports_transfer : nextHas (step (inside .wbPoll .writeByte .selected)) (fun t =>
    let p := ports (inside .wbPoll .writeByte .selected) t
    decide (p.bReq = true ∧ p.bTx = 0x05 ∧ p.bAck = true ∧ p.bRx = 0xFF ∧ p.bErr = false ∧ p.csN = 0 ∧ p.csOe = true)) =
    true := by decide

/-! ### Fault and reset -/

/-- V-X4: BusFault on the dummy transfer: `RX` not written, chip-select LOW for good. -/
theorem test_busFault : nextHas (step (faulting (inside .rsRdsr .readStatus .opcodeSent))) (fun t =>
    decide (t.q = .faulted ∧ t.err = 2 ∧ t.RX = 0 ∧ t.cs = driven .low ∧ t.ph = .opcodeSent ∧ t.trace = [.busFault])) =
    true := by decide
/-- R25: `b_err` with a request that is not acknowledged. -/
theorem test_ports_fault : nextHas (step (faulting (inside .rsRdsr .readStatus .opcodeSent))) (fun t =>
    let p := ports (faulting (inside .rsRdsr .readStatus .opcodeSent)) t
    decide (p.bReq = true ∧ p.bAck = false ∧ p.bErr = true ∧ p.hErr = 2 ∧ p.hDone = false)) = true := by decide
/-- V-X5: reset in `Q_FAULTED` with chip-select LOW. -/
theorem test_reset : nextHas (step { inside .faulted .readStatus .opcodeSent with moves := [.reset] }) (fun t =>
    decide (t.q = .idle ∧ t.ph = .idle ∧ t.bi = 0 ∧ t.cs.oe = false ∧ t.hold.oe = false ∧ t.wp.oe = false ∧
      t.trace = [])) = true := by decide

/-! ### Witnesses: for each statement with hypotheses, a state that meets them -/

/-- A word presented to an idle block. -/
def called (w : HostWord) : State := { ready with moves := [.call w] }

/-- The same with any device, these bytes to come. -/
def calledOpen (w : HostWord) (rs : List Byte) : State := { answering rs (called w) with moves := [.call w] }

theorem quiet_of_nil {s : State} (h : s.env.faults = []) : Quiet s := fun b hb => by simp [h] at hb

theorem ready_quiet : Quiet ready := quiet_of_nil rfl
theorem ready_idle : Idle ready := ⟨rfl, rfl⟩
theorem ready_alone : Alone ready := ⟨rfl, rfl⟩
theorem called_premises (w : HostWord) :
    Idle (called w) ∧ Quiet (called w) ∧ DeviceInv (called w) ∧ Calls (called w) (w :: []) ∧
      ∀ v, Calls { called w with moves := [.call w, .call v] } (w :: [v]) :=
  ⟨⟨rfl, rfl⟩, quiet_of_nil rfl, fun _ => rfl, ⟨rfl, rfl⟩, fun _ => ⟨rfl, rfl⟩⟩

/-- INIT with the reference device ready to take the status write at once, and with one that does not accept it. -/
theorem witness_InitRun_reference :
    ((called 0x000000000).dev.mode = .reference ∧ (called 0x000000000).dev.busyLeft = 0 ∧
      (called 0x000000000).par.wrsrRequiresWel = false ∧ (called 0x000000000).env.nSr = [0]) ∧
    ∃ s : State, Idle s ∧ Quiet s ∧ DeviceInv s ∧ Calls s [0x000000000] ∧ s.dev.mode = .reference ∧ s.dev.wel = false ∧
      s.par.wrsrRequiresWel = true :=
  ⟨⟨rfl, rfl, rfl, rfl⟩, { called 0x000000000 with par := ⟨0, none, true, 0x7FFF⟩ }, ⟨rfl, rfl⟩, quiet_of_nil rfl,
    fun _ => rfl, ⟨rfl, rfl⟩, rfl, rfl, rfl⟩

/-- Reset at each kind of place: in a fault, inside a window, between windows. -/
theorem witness_ResetFromAnyState : ∃ s t : State,
    s.bench = [] ∧ s.moves = [.reset] ∧ s.q = .faulted ∧ s.ph.inWindow = true ∧
      t.bench = [] ∧ t.moves = [.reset] ∧ t.ph.inWindow = false :=
  ⟨{ inside .faulted .readStatus .selected with moves := [.reset] }, { ready with moves := [.reset] },
    rfl, rfl, rfl, rfl, rfl, rfl, rfl⟩

theorem witness_HostWordStepRunsDecoded : ∃ s t : State, ∃ w, decode (.hop w) = .ok (.readByte 0x0010 0) ∧
    s.bench = [] ∧ s.q = .idle ∧ s.moves = [.call w] ∧ t.q ≠ .idle ∧ t.moves = [.force w] :=
  ⟨called 0x600100000, { inside .wbPoll .writeByte .idle with moves := [.force 0x600100000] }, 0x600100000,
    rfl, rfl, rfl, rfl, by decide, rfl⟩

theorem witness_BenchFrameStepRunsDecoded : ∃ s t : State,
    s.bench = [[0x06]] ∧ s.q = .idle ∧ decode (.frame [0x06]) = .ok .wren ∧
      t.bench = [[0x0B]] ∧ t.q = .idle ∧ decode (.frame [0x0B]) = .error (.unknownOpcode 0x0B) :=
  ⟨{ ready with bench := [[0x06]] }, { ready with bench := [[0x0B]] }, rfl, rfl, rfl, rfl, rfl, rfl⟩

theorem witness_EncodeDecodeCanonical : decode (.frame [0x03, 0xFF, 0xFF, 0x00]) = .ok (.read 0xFFFF 0) ∧
    decode (.hop 0x7FFFFFFFF) = .ok (.reservedOp7 0xFFFF 0xFFFF) := ⟨rfl, rfl⟩

theorem witness_OpcodeDecidesFrameLength :
    (inside .wbWrite .writeByte .idle).owned = some (.write 0 0) := rfl

theorem witness_StartDispatchesEveryOperation : ∃ s t u : State, s.q = .idle ∧ t.q ≠ .idle ∧
    step s = .next u ∧ NoResetNow s ∧ (Instr.init 0 0).isHost = true ∧ (Instr.init 0 0).wellFormed = true :=
  ⟨called 0x5123400A5, inside .faulted .init .idle, _, rfl, by decide, rfl, by simp [NoResetNow, called], rfl, rfl⟩

theorem witness_HostWaitsForIdle : ∃ s t : State, s.q ≠ .idle ∧ s.moves = [.force 0x300000000] ∧
    hopOp 0x300000000 ≠ 7 ∧ t.q ≠ .idle ∧ t.moves = [.call 0x300000000] :=
  ⟨{ inside .faulted .init .idle with moves := [.force 0x300000000] },
    { inside .wbPoll .writeByte .idle with moves := [.call 0x300000000] }, by decide, rfl, by decide, by decide, rfl⟩

theorem witness_ReservedCodeRefused : ∃ s : State, hopOp 0x712345678 = 7 ∧ s.bench = [] ∧ s.q = .idle ∧
    s.moves = [.call 0x712345678] := ⟨called 0x712345678, by decide, rfl, rfl, rfl⟩

theorem witness_FaultedUntilReset : ∃ s t u v : State, s.q ≠ .faulted ∧ step s = .next t ∧ t.q = .faulted ∧
    u.q = .faulted ∧ step u = .next v ∧ NoResetNow u :=
  ⟨faulting (inside .rsRdsr .readStatus .dataDone), _, inside .faulted .init .idle, _, by decide, rfl, rfl, rfl, rfl,
    by simp [NoResetNow, inside, ready, State.reset]⟩

/-- The state with a further word held back. -/
def waiting (s : State) : State := { s with moves := [.call 0x300000000] }

theorem waiting_turn (s : State) : BlockTurn (waiting s) := fun m ms h => by cases h; exact .inr ⟨_, rfl⟩

theorem inside_turn (q : SeqState) (o : HostOp) (p : Phase) : BlockTurn (faulting (inside q o p)) := fun m ms h => by cases h

/-- A fault inside a window while a word waits, one on a line action of INIT with nothing to come, and, for WRDI run as an
instruction, one on its first primitive and one on its last. -/
theorem witness_BusFaultTakesNothingElse :
    (SequencerInv (waiting (faulting (inside .wbWrite .writeWord .addrSent))) ∧
      BlockTurn (waiting (faulting (inside .wbWrite .writeWord .addrSent))) ∧
      (waiting (faulting (inside .wbWrite .writeWord .addrSent))).faultDue = true) ∧
    (SequencerInv (faulting (inside .initCfgHold .init .idle)) ∧ BlockTurn (faulting (inside .initCfgHold .init .idle)) ∧
      (faulting (inside .initCfgHold .init .idle)).faultDue = true) ∧
    encode .wrdi = .frame [0x04] ∧ ready.ph = .idle ∧ ready.q ≠ .faulted ∧
    (faulting ready).env.faults = List.replicate 0 false ++ true :: [] ∧
    ∃ s : State, s.ph = .idle ∧ s.q ≠ .faulted ∧
      s.env.faults = List.replicate 2 false ++ true :: [] ∧ 2 ≤ [(0x04 : Byte)].length + 1 :=
  ⟨⟨by unfold SequencerInv; decide, waiting_turn _, rfl⟩,
    ⟨by unfold SequencerInv; decide, inside_turn _ _ _, rfl⟩, rfl, rfl, by decide, rfl,
    { ready with env := { Env.reset with faults := [false, false, true] } }, rfl, by decide, rfl, by decide⟩

/-- A reset inside a window and one outside, a fault inside and one outside, and a frame cut at its first primitive and at
its last. -/
theorem witness_DeviceAfterCutWindow :
    (∀ p, (p = .idle ∨ p = .addrSent) → SequencerInv { inside .wbWrite .writeWord p with moves := [.reset] } ∧
      ∃ t, step { inside .wbWrite .writeWord p with moves := [.reset] } = .next t) ∧
    (∀ p, (p = .idle ∨ p = .addrSent) → SequencerInv (faulting (inside .wbWrite .writeWord p)) ∧
      BlockTurn (faulting (inside .wbWrite .writeWord p)) ∧
      (∃ t, step (faulting (inside .wbWrite .writeWord p)) = .next t) ∧
      (faulting (inside .wbWrite .writeWord p)).faultDue = true ∧ p ≠ .deselected) ∧
    ∀ k, (k = 0 ∨ k = 2) → ∃ s u : State, encode .wren = .frame [0x06] ∧ s.ph = .idle ∧ s.q ≠ .faulted ∧
      s.env.faults = List.replicate k false ++ true :: [] ∧ exec .wren s = .next u :=
  ⟨fun p h => by rcases h with rfl | rfl <;> exact ⟨by unfold SequencerInv; decide, _, rfl⟩,
    fun p h => by
      rcases h with rfl | rfl <;>
        exact ⟨by unfold SequencerInv; decide, inside_turn _ _ _, ⟨_, rfl⟩, rfl, by decide⟩,
    fun k h => by
      rcases h with rfl | rfl <;>
        exact ⟨{ ready with env := { Env.reset with faults := List.replicate _ false ++ [true] } }, _, rfl, rfl, by decide,
          rfl, rfl⟩⟩

theorem witness_PhaseOutsideTheTableAndForeignReadStop :
    TxnKind.wren.allows (inside .wbWren .writeByte .addrSent).ph = false ∧
      SeqState.rdRead.allows (inside .rdRead .init .deselected).op = false := ⟨rfl, rfl⟩

theorem witness_DoneLeavesTheBlockIdle : ∃ s t : State, SequencerInv s ∧ step s = .next t ∧ Alone t ∧
    t.trace = s.trace ++ [.done .readByte (.okValue 0x00A7)] :=
  ⟨{ inside .rdRead .readByte .deselected with RX := 0xA7 }, _, by unfold SequencerInv; decide, rfl, ⟨rfl, rfl⟩, by decide⟩

/-- For the three window statements. -/
theorem witness_windows : ready.ph = .idle ∧ ready.q ≠ .faulted ∧ Quiet ready := ⟨rfl, by decide, ready_quiet⟩

theorem witness_FrameNeedsFreeWire : Instr.wren.isHost = false ∧ (inside .wbPoll .writeByte .selected).ph ≠ .idle ∧
    (inside .faulted .writeByte .idle).q = .faulted := ⟨rfl, by decide, rfl⟩

/-- For every clause: the device idle, and busy counts and an array content at hand; and a busy one with replies to come. -/
theorem witness_ReferenceDeviceFollowsListing : ready.ph = .idle ∧ ready.q ≠ .faulted ∧ Quiet ready ∧
    ready.dev.mode = .reference ∧ ready.linesReady = true ∧ ready.env.nSr = [0] ∧ ready.env.nWr = [2] ∧
    ready.dev.mem.read ((0x8010 &&& ready.par.devAddrMask : Half).toNat) = some 0x07 ∧ ready.dev.busyLeft = 0 ∧
    ∃ s : State, s.ph = .idle ∧ s.q ≠ .faulted ∧ Quiet s ∧ s.dev.mode = .reference ∧ s.linesReady = true ∧
      0 < s.dev.busyLeft ∧ s.env.replies = [0xFF, 0xFF, 0xFF, 0xFF] ++ [0xFF] :=
  ⟨rfl, by decide, ready_quiet, rfl, rfl, rfl, rfl, by decide, rfl,
    { ready with dev := { chip with wel := true, busyLeft := 2 } }, rfl, by decide, ready_quiet, rfl, rfl, by decide, rfl⟩

/-- A device that can accept a write command and has a known content, the last location of the array and the first address
beyond it, and a busy one. -/
theorem witness_ContractDeviceFollowsContract :
    (contract.ph = .idle ∧ contract.q ≠ .faulted ∧ Quiet contract ∧ contract.dev.mode = .contract ∧
      contract.linesReady = true ∧ contract.env.accepts = [true] ∧ contract.env.nSr = [2] ∧ contract.env.nWr = [2] ∧
      contract.dev.busyLeft = 0 ∧ contract.dev.wel = true ∧ wel 0x8E = contract.dev.wel ∧
      contract.dev.mem.read (0x0010 : Half).toNat = some 0x07 ∧ (0x0010 : Half).toNat < 32768 ∧
      (0x7FFF : Half).toNat < 32768 ∧ 32768 ≤ (0x8000 : Half).toNat ∧
      contract.env.replies = [0xFF, 0xFF, 0xFF, 0xFF] ++ [0xFF]) ∧
    ∃ s : State, s.ph = .idle ∧ s.q ≠ .faulted ∧ Quiet s ∧ s.dev.mode = .contract ∧ s.linesReady = true ∧
      0 < s.dev.busyLeft :=
  ⟨⟨rfl, by decide, quiet_of_nil rfl, rfl, rfl, rfl, rfl, rfl, rfl, rfl, by decide, by decide, by decide, by decide,
      by decide, rfl⟩,
    { contract with dev := { contract.dev with busyLeft := 1 } }, rfl, by decide, quiet_of_nil rfl, rfl, rfl, by decide⟩

/-- Every row, a fault in one, and a pair outside the table. -/
theorem witness_PhaseTableRows :
    (∀ p, (inside .wbPoll .writeByte p).faultDue = false ∧ (inside .wbPoll .writeByte p).ph = p) ∧
      (faulting (inside .wbPoll .writeByte .selected)).faultDue = true ∧
      (faulting (inside .wbPoll .writeByte .selected)).ph ≠ .deselected ∧
      (∃ u, phaseRow (.rdsr 0) (faulting (inside .wbPoll .writeByte .selected)) = .next u) ∧
      TxnKind.rdsr.allows (inside .wbPoll .writeByte .addrHiSent).ph = false :=
  ⟨fun p => by cases p <;> exact ⟨rfl, rfl⟩, rfl, by decide, ⟨_, rfl⟩, rfl⟩

theorem witness_ContractDeviceCompletesByItself : ∃ s : State, s.bench = [] ∧ s.moves = [.deviceDone] ∧
    s.dev.mode = .contract ∧ 0 < s.dev.busyLeft :=
  ⟨{ ready with moves := [.deviceDone], dev := { chip with mode := .contract, busyLeft := 1, wel := true } }, rfl, rfl,
    rfl, by decide⟩

theorem witness_BlockRunRefinesWindow : (inside .wbPoll .writeByte .idle).owned = some (.rdsr 0) ∧
    (inside .wbPoll .writeByte .idle).ph = .idle ∧ Waits (inside .wbPoll .writeByte .idle) ∧
    Waits (waiting (inside .wbPoll .writeByte .idle)) :=
  ⟨rfl, rfl, ⟨rfl, fun _ _ h => by cases h⟩, rfl, fun _ _ h => by cases h; exact ⟨_, rfl⟩⟩

/-- The second byte of a word at 0xFFFF, in both address phases. -/
theorem witness_AddressBytesAreAPlusBi : ∃ s : State, ∀ p, (p = .opcodeSent ∨ p = .addrHiSent) →
    ∃ u, (({ s with ph := p } : State)).owned = some (.read 0 0) ∧ s.A = 0xFFFF ∧ s.bi = 1 ∧ s.faultDue = false ∧
      blockStep { s with ph := p } = .next u :=
  ⟨{ inside .rdRead .readWord .idle with A := 0xFFFF, bi := 1 }, fun p h => by
    rcases h with rfl | rfl <;> exact ⟨_, by decide, rfl, rfl, rfl, rfl⟩⟩

/-- One state for each row of the poll's table. -/
theorem witness_PollCompletionTable : ∃ s : State, s.q = .wbPoll ∧ s.ph = .deselected ∧ s.op = .writeWord ∧ s.bi = 0 ∧
    (0xFE : Byte).getLsbD 0 = false ∧ (0x01 : Byte).getLsbD 0 = true ∧
    (∃ l, (some 1 : Option Nat) = some l ∧ l ≤ s.np + 1) ∧ ¬∃ l, s.par.pollLimit = some l ∧ l ≤ s.np + 1 :=
  ⟨inside .wbPoll .writeWord .deselected, rfl, rfl, rfl, rfl, by decide, by decide, ⟨1, rfl, by decide⟩,
    fun ⟨_, h, _⟩ => by cases h⟩

theorem witness_RxWrittenOnlyByDummyTransfer : ∃ s t : State, step s = .next t ∧ s.bench = [] ∧ NoResetNow s ∧
    t.RX ≠ s.RX :=
  ⟨inside .rdRead .readByte .addrSent, _, rfl, rfl, by simp [NoResetNow, inside, ready, State.reset], by decide⟩

theorem witness_HighByteLatchRule : ∃ s t : State, step s = .next t ∧ NoResetNow s ∧ t.HI ≠ s.HI ∧ s.q = .rdRead ∧
    s.op = .readWord ∧ s.ph = .deselected :=
  ⟨{ inside .rdRead .readWord .deselected with RX := 7 }, _, rfl, by simp [NoResetNow, inside, ready, State.reset],
    by decide, rfl, rfl, rfl⟩

/-- A word result, and a status result. -/
theorem witness_ResultLatchRule : ∃ s t u v : State,
    (SequencerInv s ∧ step s = .next t ∧ NoResetNow s ∧ t.R ≠ s.R ∧ s.op = .readWord) ∧
      SequencerInv u ∧ step u = .next v ∧ NoResetNow u ∧ v.R ≠ u.R ∧ u.op ≠ .readWord :=
  ⟨{ inside .rdRead .readWord .deselected with RX := 9, HI := 7, bi := 1 }, _,
    { inside .rsRdsr .readStatus .deselected with RX := 0x8C }, _,
    ⟨by unfold SequencerInv; decide, rfl, by simp [NoResetNow, inside, ready, State.reset], by decide, rfl⟩,
    by unfold SequencerInv; decide, rfl, by simp [NoResetNow, inside, ready, State.reset], by decide, by decide⟩

theorem witness_PollCounterRule : ∃ s t : State, s.q = .wbPoll ∧ s.ph = .deselected ∧ blockStep s = .next t ∧
    step s = .next t ∧ NoResetNow s ∧ t.np ≠ s.np :=
  ⟨inside .wbPoll .writeByte .deselected, _, rfl, rfl, rfl, rfl, by simp [NoResetNow, inside, ready, State.reset],
    by decide⟩

/-- A dummy transfer. -/
theorem witness_KeptByte : ∃ s : State, ∃ t, s.owned = some t ∧ t.kind = .read ∧ s.ph = .addrSent ∧
    s.dev.mode = .open ∧ s.faultDue = false ∧ s.env.replies = [0xA5] :=
  ⟨answering [0xA5] (inside .rdRead .readByte .addrSent), .read 0 0, rfl, rfl, rfl, rfl, rfl, rfl⟩

/-- One state for each position of a discarded byte. -/
theorem witness_DiscardedBytesReachNoLatch :
    ∀ p, (p = .selected ∨ p = .opcodeSent ∨ p = .addrHiSent ∨ p = .addrSent) → ∃ s : State, ∃ t,
      s.ph = p ∧ s.owned = some t ∧ t.kind = .write ∧ s.dev.mode = .open ∧ s.faultDue = false ∧ s.env.replies = [0xFF] :=
  fun p h => ⟨answering [0xFF] (inside .wbWrite .writeByte p), .write 0 0, by
    rcases h with rfl | rfl | rfl | rfl <;> exact ⟨rfl, rfl, rfl, rfl, rfl, rfl⟩⟩

/-- A step, and a stop of the model (a state that no run reaches). -/
theorem witness_ValueLatchUnusedElsewhere :
    (∃ t, blockStep (inside .rdRead .readByte .idle) = .next t) ∧
      ∃ f, blockStep (inside .wbWren .writeByte .dataDone) = .fault f := ⟨⟨_, rfl⟩, _, rfl⟩

theorem witness_WriteFollowsItsWren : ∃ s t : State, step s = .next t ∧ s.q ≠ .wbWrite ∧ t.q = .wbWrite ∧
    NoResetNow s ∧ s.q = .wbWren :=
  ⟨inside .wbWren .writeByte .deselected, _, rfl, by decide, rfl, by simp [NoResetNow, inside, ready, State.reset], rfl⟩

theorem witness_OpcodesTheBlockSends : ∃ s t : State, SequencerInv s ∧ s.bench = [] ∧ s.ph = .selected ∧
    step s = .next t ∧ t.trace = s.trace ++ [.xfer 0x06 0xFF] :=
  ⟨inside .wbWren .writeByte .selected, _, by unfold SequencerInv; decide, rfl, rfl, rfl, by decide⟩

theorem witness_SequencerWaitsForWindow : ∃ s t : State, SequencerInv s ∧ step s = .next t ∧ NoResetNow s ∧
    s.ph.inWindow = true ∧ s.q ≠ .faulted :=
  ⟨inside .wbWren .writeByte .opcodeSent, _, by unfold SequencerInv; decide, rfl,
    by simp [NoResetNow, inside, ready, State.reset], rfl, by decide⟩

/-- An enable that is set, and a line that INIT changes. -/
theorem witness_lines : ∃ s t : State, step s = .next t ∧ NoResetNow s ∧ s.hold.oe = false ∧ t.hold.oe = true ∧
    t.line .hold ≠ s.line .hold ∧ s.cs.oe = true :=
  ⟨{ inside .initCfgHold .init .idle with hold := Line.reset }, _, rfl, by simp [NoResetNow, inside, ready, State.reset],
    rfl, rfl, by decide, rfl⟩

/-- A line never driven, without and with a fault due. -/
theorem witness_LinePrimitives : State.reset.faultDue = false ∧ (State.reset.line .cs).driven = false ∧
    (faulting State.reset).faultDue = true := ⟨rfl, rfl, rfl⟩

/-- All invariants together, inside a window, and a step from there. -/
theorem witness_invariants : ∃ s t : State, SequencerInv s ∧ LineInv s ∧ TraceInv s ∧ MemoryInv s ∧ DeviceInv s ∧
    NoResetNow s ∧ step s = .next t ∧ s.bench = [] ∧ s.moves = [] :=
  ⟨{ inside .wbPoll .writeByte .opcodeSent with
      trace := [.set .cs .low, .xfer 0x05 0xFF]
      dev := { chip with frame := [0x05] } }, _,
    by unfold SequencerInv; decide, by unfold LineInv; decide, by unfold TraceInv; decide,
    by unfold MemoryInv; decide, by unfold DeviceInv; decide, by simp [NoResetNow, inside, ready, State.reset], rfl, rfl,
    rfl⟩

theorem witness_LinesReadyBetweenWindows : LineInv ready ∧ ready.q ≠ .faulted ∧ ready.ph = .idle :=
  ⟨by unfold LineInv; decide, by decide, rfl⟩

/-- The operation code of each whole-run statement is that of its vector's word. -/
theorem witness_run_words : hopOp 0x0FFFFFFFF = 0 ∧ hopOp 0x100100000 = 1 ∧ hopOp 0x200100709 = 2 ∧
    hopOp 0x300000000 = 3 ∧ hopOp 0x40000008C = 4 ∧ hopOp 0x5123400A5 = 5 ∧ hopOp 0x600100000 = 6 := by decide

/-- V-WB1: `N = 2` busy answers. -/
theorem witness_WriteByteRun : ∃ s : State, Idle s ∧ Quiet s ∧ Calls s [0x5123400A5] ∧ s.dev.mode = .open ∧
    s.env.replies = [0xFF, 0xFF, 0xFF, 0xFF, 0xFF] ++
      pollReplies ([(0xFF, 0x03), (0xFF, 0x03)] ++ [(0xFF, 0x00)]) ++ [] ∧
    (∀ x ∈ [((0xFF : Byte), (0x03 : Byte)), (0xFF, 0x03)], wip x.2 = true) ∧ wip 0x00 = false ∧
    ∀ l, s.par.pollLimit = some l → 2 < l :=
  ⟨calledOpen 0x5123400A5 ([0xFF, 0xFF, 0xFF, 0xFF, 0xFF] ++
      pollReplies ([(0xFF, 0x03), (0xFF, 0x03)] ++ [(0xFF, 0x00)]) ++ []),
    ⟨rfl, rfl⟩, quiet_of_nil rfl, ⟨rfl, rfl⟩, rfl, rfl, by simp [wip], by decide, fun _ h => by cases h⟩

/-- V-WW2: one busy answer for the first byte, none for the second. -/
theorem witness_WriteWordRun : ∃ s : State, Idle s ∧ Quiet s ∧ Calls s [0x2FFFFABCD] ∧ hopOp 0x2FFFFABCD = 2 ∧
    s.dev.mode = .open ∧
    s.env.replies = [0xFF, 0xFF, 0xFF, 0xFF, 0xFF] ++ pollReplies ([(0xFF, 0x03)] ++ [(0xFF, 0x00)]) ++
      ([0xFF, 0xFF, 0xFF, 0xFF, 0xFF] ++ pollReplies ([] ++ [(0xFF, 0x00)]) ++ []) ∧
    (∀ x ∈ [((0xFF : Byte), (0x03 : Byte))], wip x.2 = true) ∧ wip 0x00 = false ∧
    ∀ l, s.par.pollLimit = some l → 1 < l ∧ 0 < l :=
  ⟨calledOpen 0x2FFFFABCD ([0xFF, 0xFF, 0xFF, 0xFF, 0xFF] ++ pollReplies ([(0xFF, 0x03)] ++ [(0xFF, 0x00)]) ++
      ([0xFF, 0xFF, 0xFF, 0xFF, 0xFF] ++ pollReplies ([] ++ [(0xFF, 0x00)]) ++ [])),
    ⟨rfl, rfl⟩, quiet_of_nil rfl, ⟨rfl, rfl⟩, by decide, rfl, rfl, by simp [wip], by decide, fun _ h => by cases h⟩

/-- V-WB5: `POLL_LIMIT = 3`. -/
theorem witness_BoundedPollTimesOut : ∃ s : State, ∃ polls, s.q = .wbPoll ∧ s.ph = .idle ∧ s.np = 0 ∧ Waits s ∧
    Quiet s ∧ s.dev.mode = .open ∧ s.par.pollLimit = some polls.length ∧ 1 ≤ polls.length ∧
    (∀ x ∈ polls, wip x.2 = true) ∧ s.env.replies = pollReplies polls ++ [] :=
  ⟨{ answering (pollReplies (List.replicate 3 (0xFF, 0x03)) ++ []) (inside .wbPoll .writeByte .idle) with
      par := ⟨0, some 3, false, 0x7FFF⟩ }, List.replicate 3 (0xFF, 0x03),
    rfl, rfl, rfl, ⟨rfl, fun _ _ h => by cases h⟩, quiet_of_nil rfl, rfl, rfl, by decide, by simp [wip], rfl⟩

/-- V-WB9: `POLL_LIMIT = none`, status reads of 0xFF. -/
theorem witness_UnboundedPollNeverEnds : ∃ s : State, ∃ polls, s.q = .wbPoll ∧ s.ph = .idle ∧ Waits s ∧ Quiet s ∧
    s.dev.mode = .open ∧ s.par.pollLimit = none ∧ (∀ x ∈ polls, wip x.2 = true) ∧ polls.length = 2 ∧
    s.env.replies = pollReplies polls ++ [] :=
  ⟨answering (pollReplies (List.replicate 2 (0xFF, 0xFF)) ++ []) (inside .wbPoll .writeByte .idle),
    List.replicate 2 (0xFF, 0xFF), rfl, rfl, ⟨rfl, fun _ _ h => by cases h⟩, quiet_of_nil rfl, rfl, rfl, by simp [wip], rfl, rfl⟩

/-- The block called, with a bound on its polls. -/
def bounded (l : Option Nat) (s : State) : State := { s with par := ⟨0, l, false, 0x7FFF⟩ }

/-- `POLL_LIMIT` none, and the least one above the count. -/
theorem witness_ReferenceWritePollCount : ∀ l, (l = none ∨ l = some 3) →
    ∃ s : State, Idle s ∧ Quiet s ∧ Calls s [0x5123400A5] ∧ s.linesReady = true ∧ s.dev.mode = .reference ∧
      s.dev.busyLeft = 0 ∧ s.env.nWr = 2 :: [] ∧ s.par.pollLimit = l ∧ ∀ m, s.par.pollLimit = some m → 2 < m :=
  fun l h => ⟨bounded l (called 0x5123400A5), ⟨rfl, rfl⟩, quiet_of_nil rfl, ⟨rfl, rfl⟩, rfl, rfl, rfl, rfl, rfl, by
    rcases h with rfl | rfl <;> intro m h <;> cases h; decide⟩

theorem witness_WordRoundTripOnReferenceDevice : ∀ l, (l = none ∨ l = some 2) → ∃ s : State, Idle s ∧ Quiet s ∧
    Calls s [hopWord 2 0xFFFF 0xBEEF, hopWord 1 0xFFFF 0] ∧ s.linesReady = true ∧ s.dev.mode = .reference ∧
    s.dev.busyLeft = 0 ∧ s.par.devAddrMask = 0x7FFF ∧ s.par.pollLimit = l ∧
    (s.par.pollLimit = none ∨ ∃ n m ns, s.env.nWr = n :: m :: ns ∧ ∀ k, s.par.pollLimit = some k → n < k ∧ m < k) :=
  fun l h => ⟨bounded l { ready with
      moves := [.call (hopWord 2 0xFFFF 0xBEEF), .call (hopWord 1 0xFFFF 0)]
      env := { Env.reset with nWr := [1, 0] } },
    ⟨rfl, rfl⟩, quiet_of_nil rfl, ⟨rfl, rfl⟩, rfl, rfl, rfl, rfl, rfl, .inr ⟨1, 0, [], rfl, by
      rcases h with rfl | rfl <;> intro k h <;> cases h; decide⟩⟩

end Sys2Proof.Tests
end

section
/-! The open parameters of R5 are arguments of the machine: each kind of step keeps them, hence so does `step`. -/

namespace Sys2Proof.Machine

open Sys2Proof

theorem deviceComplete_par (s : State) : (deviceComplete s).par = s.par := by
  obtain ⟨d, h, -⟩ := deviceComplete_changes s
  rw [h, State.withWorld_par]

/-- Whatever a step of the block does, a BusFault included, it keeps the parameters. -/
theorem BlockMove.par {s u : State} (h : BlockMove s u) : u.par = s.par := by
  cases h with
  | row t _ _ _ hr => exact hr.keeps.par
  | complete t _ _ _ hc =>
    obtain ⟨hpar, -⟩ := hc.keeps
    exact hpar
  | lineFault => simp
  | cfg => simp
  | drive => simp
  | rest => rfl

theorem StepMove.par {s u : State} (h : StepMove s u) : u.par = s.par := by
  cases h with
  | started => simp
  | window t f fs _ _ _ hw => exact (window_keeps hw).1.par
  | reset ms => exact resetBlock_par (s.withInputs ms s.bench)
  | device ms => exact deviceComplete_par (s.withInputs ms s.bench)
  | block ms _ _ hb => exact hb.par

/-- Settles O41: what `step` can do is one of the moves above, and each keeps the parameters (R5). -/
theorem parametersNeverChange : Obligations.ParametersNeverChange :=
  fun _ _ h => (step_cases h).par

end Sys2Proof.Machine
end

section
/-! A step that is no reset: what is left of the inversion of `step` for the rules that except reset. -/

namespace Sys2Proof.Machine

open Sys2Proof

/-- A step that is no reset is a `Start`, a whole bench window, the device's own completion, or a step of the block. -/
theorem StepMove.noReset_cases {s u : State} (h : StepMove s u) (hn : NoResetNow s) :
    (∃ o a v ms, s.q = .idle ∧ u = (s.withInputs ms s.bench).started o a v) ∨
      (∃ t f fs, s.q = .idle ∧ s.bench = f :: fs ∧ Machine.window t (s.withInputs s.moves fs) = .next u) ∨
      (∃ d ms, u = (s.withInputs ms s.bench).withWorld d s.env) ∨
      ∃ ms, BlockMove (s.withInputs ms s.bench) u := by
  cases h with
  | started o a v w ms hq => exact .inl ⟨o, a, v, ms, hq, rfl⟩
  | window t f fs _ hq hb hw => exact .inr (.inl ⟨t, f, fs, hq, hb, hw⟩)
  | reset ms hm => simp [NoResetNow, hm] at hn
  | device ms =>
    obtain ⟨d, hd, -⟩ := deviceComplete_changes (s.withInputs ms s.bench)
    exact .inr (.inr (.inl ⟨d, ms, hd⟩))
  | block ms _ _ hb => exact .inr (.inr (.inr ⟨ms, hb⟩))

end Sys2Proof.Machine
end

section
/-! The sequencer invariant (R17, R75, R150): the state after reset meets it, and every kind of step keeps it. -/

namespace Sys2Proof.Machine

open Sys2Proof

/-! ### What the invariant rests on -/

/-- Whether the phase fits depends on `q` and `ph` alone: the kind of the owned transaction does (R78). -/
theorem State.phaseOk_congr {s t : State} (hq : t.q = s.q) (hp : t.ph = s.ph) : t.phaseOk = s.phaseOk := by
  unfold State.phaseOk State.owned
  rw [hq, hp]
  cases s.q <;> rfl

/-- `IDLE` fits every sequencer state (R75). -/
theorem State.phaseOk_of_idle {s : State} (h : s.ph = .idle) : s.phaseOk = true := by
  unfold State.phaseOk
  split
  · next t _ => rw [h]; exact t.kind.allows_idle
  · simp [h]

theorem State.phaseOk_of_owned {s : State} {t : Txn} (h : s.owned = some t) : s.phaseOk = t.kind.allows s.ph := by
  simp only [State.phaseOk, h]

theorem SequencerInv.congr {s t : State} (hs : SequencerInv s) (hq : t.q = s.q) (ho : t.op = s.op) (hb : t.bi = s.bi)
    (hp : t.ph = s.ph) (he : t.err = s.err) : SequencerInv t := by
  simp only [SequencerInv, State.phaseOk_congr hq hp, hq, ho, hb, he]
  exact hs

/-- Between transactions what is left to ask is that `q`, `op` and `bi` belong together, and a code of
R150. -/
theorem SequencerInv.of_idle {s : State} (hp : s.ph = .idle) (ha : s.q.allows s.op = true)
    (hb : s.bi = 1 → s.op = .readWord ∨ s.op = .writeWord) (he : s.err ≠ 3) : SequencerInv s :=
  ⟨fun _ => State.phaseOk_of_idle hp, ha, hb, he⟩

/-- After a BusFault nothing is asked of the phase (R157). -/
theorem SequencerInv.of_faulted {s t : State} (hs : SequencerInv s) (hq : t.q = .faulted) (he : t.err = 2)
    (ho : t.op = s.op) (hb : t.bi = s.bi) : SequencerInv t := by
  obtain ⟨-, -, hbi, -⟩ := hs
  exact ⟨fun h => absurd hq h, by rw [hq]; rfl, by rw [hb, ho]; exact hbi, by rw [he]; decide⟩

/-- A state that owns no transaction is between windows (R17). -/
theorem SequencerInv.ph_idle {s : State} (h : SequencerInv s) (hq : s.q ≠ .faulted) (ho : s.owned = none) :
    s.ph = .idle := by
  obtain ⟨hph, -⟩ := h
  simpa [State.phaseOk, ho] using hph hq

/-- A state of INIT's line actions owns no transaction (R78). -/
theorem owned_none_of_lineAction {s : State} {x : Bool × LineId × SeqState} (h : s.q.lineAction = some x) :
    s.owned = none := by
  unfold State.owned
  cases hq : s.q <;> simp [hq, SeqState.lineAction] at h ⊢

theorem owned_none_of_idle {s : State} (h : s.q = .idle) : s.owned = none := by simp [State.owned, h]

theorem owned_none_of_faulted {s : State} (h : s.q = .faulted) : s.owned = none := by simp [State.owned, h]

theorem q_ne_faulted_of_owned {s : State} {t : Txn} (h : s.owned = some t) : s.q ≠ .faulted := fun hq => by
  simp [owned_none_of_faulted hq] at h

/-- A line action leads to a state of INIT, never to `Q_FAULTED` (R100). -/
theorem SeqState.lineAction_ne_faulted {q q' : SeqState} {d : Bool} {l : LineId}
    (h : q.lineAction = some (d, l, q')) : q ≠ .faulted ∧ q' ≠ .faulted := by
  cases q <;> simp [SeqState.lineAction] at h <;> obtain ⟨-, -, rfl⟩ := h <;> exact ⟨nofun, nofun⟩

theorem SeqState.lineAction_allows {q q' : SeqState} {d : Bool} {l : LineId} {o : HostOp}
    (h : q.lineAction = some (d, l, q')) (ha : q.allows o = true) : q'.allows o = true := by
  cases q <;> simp [SeqState.lineAction] at h <;> obtain ⟨-, -, rfl⟩ := h <;> exact ha

theorem HostOp.firstState_allows (o : HostOp) : o.firstState.allows o = true := by cases o <;> rfl

theorem HostOp.firstState_ne_faulted (o : HostOp) : o.firstState ≠ .faulted := by cases o <;> nofun

/-- No result has the code 3 (R150). -/
theorem Result.code_ne_three (r : Result) : r.code ≠ 3 := by cases r <;> simp [Result.code]

/-! ### Every step keeps it -/

/-- `Start` finds the phase `IDLE` and leaves it so (R62). -/
theorem SequencerInv.start_kept {s : State} (h : SequencerInv s) (hq : s.q = .idle) (o : HostOp) (a v : Half) :
    SequencerInv (s.started o a v) := by
  have hp : s.ph = .idle := h.ph_idle (by simp [hq]) (owned_none_of_idle hq)
  obtain ⟨-, -, -, herr⟩ := h
  exact .of_idle hp o.firstState_allows (by simp) herr

theorem SequencerInv.window_kept {s u : State} {t : Txn} (h : SequencerInv s) (hw : window t s = .next u) :
    SequencerInv u := by
  obtain ⟨hp, hq, -⟩ := window_cases hw
  obtain ⟨k, -⟩ := window_keeps hw
  rcases k.outcome with ⟨hq', he⟩ | ⟨hq', he, -⟩
  · exact h.congr hq' k.op k.bi ((window_phase hw (hq' ▸ hq)).trans hp.symm) he
  · exact h.of_faulted hq' he k.op k.bi

/-- A row moves the phase along the table, which is closed under its rows; or it raised BusFault. -/
theorem SequencerInv.row_kept {s u : State} {t : Txn} (h : SequencerInv s) (ho : s.owned = some t)
    (hr : RowMove t s u) : SequencerInv u := by
  have k := hr.keeps
  rcases k.outcome with ⟨hq, he⟩ | ⟨hq, he, -⟩
  · obtain ⟨hph, ha, hb, herr⟩ := h
    have hph : t.kind.allows s.ph = true := State.phaseOk_of_owned ho ▸ hph (q_ne_faulted_of_owned ho)
    refine ⟨fun hf => ?_, by rw [hq, k.op]; exact ha, by rw [k.bi, k.op]; exact hb, by rw [he]; exact herr⟩
    obtain ⟨hp, -⟩ := hr.phase.resolve_right fun hx => hf hx.2
    rw [State.phaseOk_of_owned ((hr.owned hq).trans ho), hp]
    exact TxnKind.allows_after hph
  · exact h.of_faulted hq he k.op k.bi

/-- A completion move stays in the operation, or ends it with a code of R150. -/
theorem SequencerInv.complete_kept {s u : State} (h : SequencerInv s) (hp : s.ph = .idle) (hc : CompleteMove s u) :
    SequencerInv u := by
  obtain ⟨-, ha, hb, he⟩ := h
  have hdone : ∀ (r : Result) (w : State), w.ph = s.ph → w.op = s.op → w.bi = s.bi → SequencerInv (finish r w) :=
    fun r w hph hop hbi => .of_idle (hph.trans hp) rfl (by simpa [hop, hbi] using hb) r.code_ne_three
  cases hc with
  | highByte hq ho _ => exact .of_idle hp ha (fun _ => .inl ho) he
  | word | byte | status | pollOk | pollTimeout => exact hdone _ _ rfl rfl rfl
  | wren hq | write hq => exact .of_idle hp (by rw [hq] at ha; exact ha) hb he
  | pollLowByte hq _ ho _ => exact .of_idle hp (by rw [hq] at ha; exact ha) (fun _ => .inr ho) he
  | pollAgain => exact .of_idle hp ha hb he

theorem SequencerInv.block_kept {s u : State} (h : SequencerInv s) (hb : BlockMove s u) : SequencerInv u := by
  -- A line action is taken between windows and leads to a state of INIT.
  have hline : ∀ {d l q'}, s.q.lineAction = some (d, l, q') → u.q = q' → u.op = s.op → u.bi = s.bi → u.ph = s.ph →
      u.err = s.err → SequencerInv u := fun ha hq ho hbi hph he => by
    obtain ⟨hne, -⟩ := SeqState.lineAction_ne_faulted ha
    have hp := h.ph_idle hne (owned_none_of_lineAction ha)
    obtain ⟨-, hallows, hbi', herr⟩ := h
    have hq' := SeqState.lineAction_allows ha hallows
    exact .of_idle (hph.trans hp) (by rw [hq, ho]; exact hq') (by rw [hbi, ho]; exact hbi') (by rw [he]; exact herr)
  cases hb with
  | row t _ ho _ hr => exact h.row_kept ho hr
  | complete t _ ho hp hc =>
    obtain ⟨-, ha, hbi, he⟩ := h
    exact SequencerInv.complete_kept (s := s.toPh .idle) (.of_idle rfl ha hbi he) rfl hc
  | lineFault => exact h.of_faulted rfl rfl rfl rfl
  | cfg l q' ha => exact hline ha rfl (by simp) (by simp) (by simp) (by simp)
  | drive l q' d e ha => exact hline ha rfl (by simp) (by simp) (by simp) (by simp)
  | rest => exact h

theorem SequencerInv.withInputs {s : State} (h : SequencerInv s) (ms : List Move) (b : List (List Byte)) :
    SequencerInv (s.withInputs ms b) := h.congr rfl rfl rfl rfl rfl

theorem SequencerInv.step_kept {s u : State} (h : SequencerInv s) (hs : StepMove s u) : SequencerInv u := by
  cases hs with
  | started o a v w ms hq => exact (h.withInputs ms s.bench).start_kept hq o a v
  | window t f fs _ _ _ hw => exact (h.withInputs s.moves fs).window_kept hw
  | reset => exact .of_idle rfl rfl (by simp) (by simp)
  | device ms =>
    obtain ⟨d, hd, -⟩ := deviceComplete_changes (s.withInputs ms s.bench)
    rw [hd]
    exact h.congr rfl rfl rfl rfl rfl
  | block ms _ _ hb => exact (h.withInputs ms s.bench).block_kept hb

/-- Settles O42: what `step` can do is one of the moves above, and each keeps the invariant. -/
theorem sequencerInvKept : Obligations.SequencerInvKept := fun _ _ hs h => hs.step_kept (step_cases h)

end Sys2Proof.Machine
end

section
/-! `Q_FAULTED` (R18, R151): only a BusFault enters it, and only a reset leaves it. -/

namespace Sys2Proof.Machine

open Sys2Proof

/-! ### Entering it -/

theorem CompleteMove.q_ne_faulted {s u : State} (h : CompleteMove s u) : u.q ≠ .faulted := by
  cases h <;> simp_all [finishValue]

/-- The block enters `Q_FAULTED` by a row of the table or a line action that raised BusFault. -/
theorem BlockMove.busFault_last {s u : State} (h : BlockMove s u) (hs : s.q ≠ .faulted) (hu : u.q = .faulted) :
    u.trace.getLast? = some .busFault := by
  cases h with
  | row t _ _ _ hr =>
    rcases hr.keeps.outcome with ⟨hq, -⟩ | ⟨-, -, hlast⟩
    · exact absurd (hq.symm.trans hu) hs
    · exact hlast
  | complete t _ _ _ hc => exact absurd hu hc.q_ne_faulted
  | lineFault => simp
  | cfg l q' ha | drive l q' d e ha =>
    obtain ⟨-, hq'⟩ := SeqState.lineAction_ne_faulted ha
    exact absurd hu hq'
  | rest => exact absurd hu hs

theorem StepMove.busFault_last {s u : State} (h : StepMove s u) (hs : s.q ≠ .faulted) (hu : u.q = .faulted) :
    u.trace.getLast? = some .busFault := by
  cases h with
  | started o => exact absurd hu o.firstState_ne_faulted
  | window t f fs _ _ _ hw =>
    obtain ⟨k, -⟩ := window_keeps hw
    rcases k.outcome with ⟨hq, -⟩ | ⟨-, -, hlast⟩
    · exact absurd (hq.symm.trans hu) hs
    · exact hlast
  | reset => cases hu
  | device ms =>
    obtain ⟨d, hd, -⟩ := deviceComplete_changes (s.withInputs ms s.bench)
    rw [hd] at hu
    exact absurd hu hs
  | block ms _ _ hb => exact hb.busFault_last hs hu

/-! ### Staying in it -/

theorem BlockMove.eq_of_faulted {s u : State} (h : BlockMove s u) (hq : s.q = .faulted) : u = s := by
  cases h with
  | row t _ ho | complete t _ ho => exact absurd hq (q_ne_faulted_of_owned ho)
  | lineFault x ha | cfg l q' ha | drive l q' d e ha => simp [hq, SeqState.lineAction] at ha
  | rest => rfl

/-- After a fault a step that is no reset changes at most the device, by its own completion, and the moves. -/
theorem StepMove.of_faulted {s u : State} (h : StepMove s u) (hq : s.q = .faulted) (hn : NoResetNow s) :
    ∃ d ms, u = (s.withInputs ms s.bench).withWorld d s.env := by
  rcases h.noReset_cases hn with ⟨_, _, _, _, hidle, -⟩ | ⟨_, _, _, hidle, -⟩ | hworld | ⟨ms, hb⟩
  · simp [hq] at hidle
  · simp [hq] at hidle
  · exact hworld
  · exact ⟨s.dev, ms, hb.eq_of_faulted hq⟩

/-- A host operation is a `Start`, and the block accepts one in `Q_IDLE` only (R62, R156). -/
theorem exec_host {i : Instr} (hh : i.isHost = true) (hw : i.wellFormed = true) (s : State) :
    ∃ o a v, exec i s = start o a v s := by
  cases i with
  | wren | wrdi | rdsr | wrsr | read | write => cases hh
  | reservedOp7 => cases hw
  | init a v | readWord a v | writeWord a v | readStatus a v | writeStatus a v | writeByte a v | readByte a v =>
    exact ⟨_, a, v, rfl⟩

theorem exec_host_busy {i : Instr} {s : State} (hh : i.isHost = true) (hw : i.wellFormed = true) (hq : s.q ≠ .idle) :
    exec i s = .refused .startWhileBusy := by
  obtain ⟨o, a, v, h⟩ := exec_host hh hw s
  rw [h, start, if_neg hq]

/-- Settles O12, clause by clause; the second by what a step can still do after a fault. -/
theorem faultedUntilReset : Obligations.FaultedUntilReset := by
  refine ⟨fun s t hs h ht => (step_cases h).busFault_last hs ht, fun s t hq h hn => ?_,
    fun s i hq hh hw => exec_host_busy hh hw (by simp [hq]), by decide⟩
  obtain ⟨d, ms, rfl⟩ := (step_cases h).of_faulted hq hn
  simp [SameLatches, hq]

end Sys2Proof.Machine
end

section
/-! The data latches `RX`, `HI`, `R` and `np` (R13 to R16): which step writes each, and with what. -/

namespace Sys2Proof.Machine

open Sys2Proof

/-! ### Steps that write no latch -/

/-- A step of the block keeps `HI`, `R` and `np`, unless it is the completion move of a transaction. -/
theorem BlockMove.latches {s u : State} (h : BlockMove s u) :
    (u.HI = s.HI ∧ u.R = s.R ∧ u.np = s.np) ∨ (s.ph = .deselected ∧ CompleteMove (s.toPh .idle) u) := by
  cases h with
  | row t _ _ _ hr => exact .inl ⟨hr.keeps.HI, hr.keeps.R, hr.keeps.np⟩
  | complete t _ _ hp hc => exact .inr ⟨hp, hc⟩
  | lineFault | cfg | drive | rest => exact .inl (by simp)

theorem StepMove.latches {s u : State} (h : StepMove s u) (hn : NoResetNow s) :
    (u.HI = s.HI ∧ u.R = s.R ∧ u.np = s.np) ∨
      ∃ ms, s.ph = .deselected ∧ CompleteMove ((s.withInputs ms s.bench).toPh .idle) u := by
  rcases h.noReset_cases hn with ⟨o, a, v, ms, -, rfl⟩ | ⟨t, f, fs, -, -, hw⟩ | ⟨d, ms, rfl⟩ | ⟨ms, hb⟩
  · exact .inl ⟨rfl, rfl, rfl⟩
  · obtain ⟨k, -⟩ := window_keeps hw
    exact .inl ⟨k.HI, k.R, k.np⟩
  · exact .inl ⟨rfl, rfl, rfl⟩
  · exact hb.latches.imp_right fun h => ⟨ms, h⟩

/-- In `DESELECTED` the block's step is the completion move (R79). -/
theorem blockStep_deselected {s : State} {t : Txn} (ho : s.owned = some t) (hp : s.ph = .deselected) :
    blockStep s = complete (s.toPh .idle) := by
  simp only [blockStep, ho, if_pos hp]

/-! ### `RX` -/

/-- RDSR and READ send `DUMMY` in the data position (R55, R78). -/
theorem owned_data {s : State} {t : Txn} {p : Phase} (ho : s.owned = some t) (hr : t.receives p) :
    t.data = s.par.dummy := by
  unfold State.owned at ho
  cases hq : s.q <;> simp [hq] at ho <;> subst ho <;>
    simp [Txn.receives, Txn.wrsr, Txn.wren, Txn.write, Txn.read, Txn.rdsr] at hr ⊢

/-- A row that changes `RX` is the transfer of the data position (R74). -/
theorem RowMove.rx {t : Txn} {s u : State} (h : RowMove t s u) :
    u.RX = s.RX ∨ (t.receives s.ph ∧ u.trace = s.trace ++ [.xfer t.data u.RX] ∧ u.ph = .dataDone) := by
  cases h with
  | receive r d e hp => exact .inr ⟨hp, by simp, by simp⟩
  | fault | select | send | deselect | close => exact .inl (by simp)

theorem BlockMove.rx {s u : State} (h : BlockMove s u) :
    u.RX = s.RX ∨ ∃ t, s.owned = some t ∧ t.receives s.ph ∧ u.trace = s.trace ++ [.xfer s.par.dummy u.RX] ∧
      u.ph = .dataDone := by
  cases h with
  | row t _ ho _ hr =>
    refine hr.rx.imp_right fun ⟨hp, ht, hph⟩ => ⟨t, ho, hp, ?_, hph⟩
    rw [← owned_data ho hp]
    exact ht
  | complete t _ _ _ hc =>
    obtain ⟨-, -, -, hrx, -⟩ := hc.keeps
    exact .inl hrx
  | lineFault | cfg | drive | rest => exact .inl (by simp)

/-- Settles O29: of the hardware's steps only a row of the phase table can change `RX`, and of the rows only the dummy
transfer does. -/
theorem rxWrittenOnlyByDummyTransfer : Obligations.RxWrittenOnlyByDummyTransfer := by
  intro s t h hb hn hrx
  rcases (step_cases h).noReset_cases hn with ⟨o, a, v, ms, -, rfl⟩ | ⟨t, f, fs, -, hb', -⟩ | ⟨d, ms, rfl⟩ | ⟨ms, hm⟩
  · exact absurd rfl hrx
  · simp [hb] at hb'
  · exact absurd rfl hrx
  · exact hm.rx.resolve_left hrx

/-! ### `HI` -/

/-- Settles O30: the completion of the first READ of READ_WORD is the one completion move that writes `HI`. -/
theorem highByteLatchRule : Obligations.HighByteLatchRule := by
  refine ⟨fun s t h hn hhi => ?_, fun s hq hop hp => ?_⟩
  · obtain ⟨ms, hp, hc⟩ := ((step_cases h).latches hn).resolve_left fun ⟨hk, _⟩ => hhi hk
    cases hc with
    | highByte hq ho hb => exact ⟨hq, ho, hb, hp, rfl⟩
    | _ => exact absurd rfl hhi
  · have hown : s.owned = some (.read s.byteAddr s.par.dummy) := by simp [State.owned, hq]
    rw [blockStep_deselected hown hp]
    constructor <;> intro hb <;>
      simp [complete, completeRead, finishValue, finish, joinBytes, Result.code, State.toPh, hq, hop, hb]

/-! ### `R` -/

/-- Settles O31: the completion moves that write `R` are those of the two reads and of READ_STATUS. -/
theorem resultLatchRule : Obligations.ResultLatchRule := by
  refine ⟨fun s hp => ⟨fun hq hop hb => ?_, fun hq hop => ?_, fun hq => ?_⟩, fun s t hi h hn hr => ?_⟩
  · rw [blockStep_deselected (t := .read s.byteAddr s.par.dummy) (by simp [State.owned, hq]) hp]
    exact ⟨finishValue (joinBytes s.HI s.RX) (s.toPh .idle), by simp [complete, completeRead, hq, hop, hb], rfl,
      by simp [finishValue, hop, joinBytes]⟩
  · rw [blockStep_deselected (t := .read s.byteAddr s.par.dummy) (by simp [State.owned, hq]) hp]
    exact ⟨finishValue (zext16 s.RX) (s.toPh .idle), by simp [complete, completeRead, hq, hop], rfl,
      by simp [finishValue, hop, zext16]⟩
  · rw [blockStep_deselected (t := .rdsr s.par.dummy) (by simp [State.owned, hq]) hp]
    exact ⟨finishValue (zext16 s.RX) (s.toPh .idle), by simp [complete, completeReadStatus, hq], rfl,
      by simp [finishValue, zext16]⟩
  · obtain ⟨ms, -, hc⟩ := ((step_cases h).latches hn).resolve_left fun ⟨_, hk, _⟩ => hr hk
    obtain ⟨-, hallows, -⟩ := hi
    cases hc with
    | word hq ho hb =>
      replace ho : s.op = .readWord := ho
      simp [finishValue, joinBytes, ho]
    | byte hq =>
      have ho : s.op = .readByte ∨ s.op = .readStatus := hq.imp And.right fun hq => by
        rw [show s.q = .rsRdsr from hq] at hallows
        simpa [SeqState.allows] using hallows
      rcases ho with ho | ho <;> simp [finishValue, zext16, ho]
    | _ => exact absurd rfl hr

/-! ### `np` -/

/-- The completion of a poll counts it, in every row of R124's table. -/
theorem completePoll_np (s : State) : (completePoll s).np = s.np + 1 := by
  unfold completePoll
  split_ifs <;> rfl

/-- Settles O32: the completion moves that write `np` are those of `Q_WB_WRITE` and `Q_WB_POLL`. -/
theorem pollCounterRule : Obligations.PollCounterRule := by
  refine ⟨fun s hq hp => ?_, fun s t hq hp h => ?_, fun s t h hn hnp => ?_⟩
  · rw [blockStep_deselected (t := .write s.byteAddr s.writeData) (by simp [State.owned, hq]) hp]
    simp [complete, completeWrite, State.toPh, hq]
  · rw [blockStep_deselected (t := .rdsr s.par.dummy) (by simp [State.owned, hq]) hp] at h
    simp only [complete, State.toPh_q, hq, Host.Outcome.next.injEq] at h
    rw [← h, completePoll_np, State.toPh_np]
  · obtain ⟨ms, hp, hc⟩ := ((step_cases h).latches hn).resolve_left fun ⟨_, _, hk⟩ => hnp hk
    refine ⟨hp, ?_⟩
    cases hc with
    | write hq => exact .inl hq
    | pollLowByte hq | pollOk hq | pollTimeout hq | pollAgain hq => exact .inr hq
    | _ => exact absurd rfl hnp

end Sys2Proof.Machine
end

section
/-! The value latch (R12): what does not read it steps in the same way whatever it holds. -/

namespace Sys2Proof.Machine

open Sys2Proof

/-- The state with another value in `V`. -/
def State.withValue (v : Half) (s : State) : State := { s with V := v }

@[simp] theorem State.withValue_q (s : State) (v : Half) : (s.withValue v).q = s.q := rfl
@[simp] theorem State.withValue_op (s : State) (v : Half) : (s.withValue v).op = s.op := rfl
@[simp] theorem State.withValue_bi (s : State) (v : Half) : (s.withValue v).bi = s.bi := rfl
@[simp] theorem State.withValue_ph (s : State) (v : Half) : (s.withValue v).ph = s.ph := rfl
@[simp] theorem State.withValue_dev (s : State) (v : Half) : (s.withValue v).dev = s.dev := rfl
@[simp] theorem State.withValue_env (s : State) (v : Half) : (s.withValue v).env = s.env := rfl
@[simp] theorem State.withValue_inArray (s : State) (v : Half) (a : Half) :
    (s.withValue v).inArray a = s.inArray a := rfl
@[simp] theorem State.withValue_mapLine (s : State) (v : Half) (f : Line → Line) (l : LineId) :
    (s.withValue v).mapLine f l = (s.mapLine f l).withValue v := by
  cases l <;> rfl

/-- The outcome with another value in `V`, if it is a next state. -/
def nextWithValue (v : Half) : Host.Outcome State Fault Refusal → Host.Outcome State Fault Refusal
  | .next t => .next (t.withValue v)
  | .fault f => .fault f
  | .refused r => .refused r

/-- `f` neither reads nor writes `V`. -/
def ValueBlind (f : State → State) : Prop := ∀ v s, f (s.withValue v) = (f s).withValue v

/-- `f` neither reads nor writes `V`, and what it answers does not depend on it. -/
def ValueBlindReply {α : Type} (f : State → α × State) : Prop :=
  ∀ v s, f (s.withValue v) = ((f s).1, (f s).2.withValue v)

/-! ### The device does not see `V` -/

theorem valueBlind_freeReply : ValueBlindReply State.freeReply := fun v s => by
  unfold State.freeReply
  rw [State.withValue_env]
  split <;> rfl

theorem valueBlind_takeNWr : ValueBlindReply State.takeNWr := fun v s => by
  unfold State.takeNWr
  rw [State.withValue_env]
  split <;> rfl

theorem valueBlind_takeNSr : ValueBlindReply State.takeNSr := fun v s => by
  unfold State.takeNSr
  rw [State.withValue_env]
  split <;> rfl

theorem valueBlind_takeAccept : ValueBlindReply State.takeAccept := fun v s => by
  unfold State.takeAccept
  rw [State.withValue_env]
  split <;> rfl

/-- A choice between two that do not read `V`, by a condition that does not. -/
theorem ValueBlind.ite {p : State → Prop} [DecidablePred p] {f g : State → State}
    (hp : ∀ v s, p (s.withValue v) ↔ p s) (hf : ValueBlind f) (hg : ValueBlind g) :
    ValueBlind fun s => if p s then f s else g s := fun v s => by
  simp only [hp, hf v s, hg v s]
  split <;> rfl

theorem valueBlind_latchCommand {act : State → State} (h : ValueBlind act) : ValueBlind (latchCommand act) :=
  .ite (fun _ _ => .rfl) (fun _ _ => rfl) h

theorem valueBlind_writeCommand {able : State → Bool} {act : State → State} (ha : ∀ v s, able (s.withValue v) = able s)
    (h : ValueBlind act) : ValueBlind fun s => writeCommand (able s) act s :=
  .ite (fun _ _ => .rfl)
    (.ite (fun v s => by rw [valueBlind_takeAccept, ha]) (fun v s => by rw [valueBlind_takeAccept]; rfl)
      fun v s => by rw [valueBlind_takeAccept]; exact h v _) h

theorem valueBlind_deviceWren : ValueBlind deviceWren := .ite (fun _ _ => .rfl) (fun _ _ => rfl) fun _ _ => rfl

theorem valueBlind_deviceWrsr (x : Byte) : ValueBlind (deviceWrsr x) :=
  .ite (fun _ _ => .rfl) (fun v s => by rw [valueBlind_takeNSr]; rfl) fun _ _ => rfl

theorem valueBlind_deviceWrite (a : Half) (d : Byte) : ValueBlind (deviceWrite a d) :=
  .ite (fun _ _ => .rfl) (fun v s => by rw [valueBlind_takeNWr]; rfl) fun _ _ => rfl

theorem valueBlind_deviceAct : ValueBlind deviceAct := fun v s => by
  unfold deviceAct
  rw [State.withValue_dev]
  split
  · exact valueBlind_latchCommand valueBlind_deviceWren v s
  · exact valueBlind_latchCommand (fun _ _ => rfl) v s
  · next x _ =>
    exact valueBlind_writeCommand (able := fun s => s.wrsrAble && s.keepsWel x) (fun _ _ => rfl)
      (valueBlind_deviceWrsr x) v s
  · next a d _ =>
    exact valueBlind_writeCommand (able := fun s => s.writeAble && s.inArray a) (fun _ _ => rfl)
      (valueBlind_deviceWrite a d) v s
  · rfl

theorem valueBlind_deviceSees (l : LineId) (lvl : Level) : ValueBlind (deviceSees l lvl) := by
  have hsel : ValueBlind deviceSelect :=
    .ite (fun _ _ => .rfl) (fun _ _ => rfl) (.ite (fun _ _ => .rfl) (fun _ _ => rfl) fun _ _ => rfl)
  have hdes : ValueBlind deviceDeselect :=
    .ite (fun _ _ => .rfl) (fun _ _ => rfl) fun v s => by rw [valueBlind_deviceAct]; rfl
  cases l with
  | cs => cases lvl <;> assumption
  | hold | wp => exact fun _ _ => rfl

theorem valueBlind_statusReply : ValueBlindReply statusReply := fun v s => by
  simp only [statusReply, valueBlind_freeReply v s]
  rw [State.withValue_dev]
  split <;> rfl

theorem valueBlind_deviceReply (b : Byte) : ValueBlindReply (deviceReply b) := fun v s => by
  have hp : pushByte b (s.withValue v) = (pushByte b s).withValue v := rfl
  simp only [deviceReply, hp, valueBlind_freeReply v s, valueBlind_freeReply v (pushByte b s),
    valueBlind_statusReply v (pushByte b s)]
  rw [State.withValue_dev]
  split
  · rfl
  · split
    · rfl
    · next a _ _ =>
      rw [State.withValue_inArray]
      split <;> rfl
    · rfl

/-! ### The primitives and the rows of the phase table -/

theorem valueBlind_primitive {act : State → State} (h : ValueBlind act) : ValueBlind (primitive act) :=
  .ite (fun _ _ => .rfl) (fun _ _ => rfl) fun v s => h v s.popFault

theorem valueBlind_setLevel (l : LineId) (lvl : Level) {k : State → State} (h : ValueBlind k) :
    ValueBlind (setLevel l lvl k) := valueBlind_primitive fun v s => by
  rw [State.withValue_mapLine, valueBlind_deviceSees]
  exact h v ((deviceSees l lvl (s.mapLine (Line.drive lvl) l)).emit (.set l lvl))

theorem valueBlind_xfer (b : Byte) {k : Byte → State → State} (h : ∀ r, ValueBlind (k r)) : ValueBlind (xfer b k) :=
  valueBlind_primitive fun v s => by
    rw [valueBlind_deviceReply]
    exact h (deviceReply b s).1 v ((deviceReply b s).2.emit (.xfer b (deviceReply b s).1))

/-- A row of the phase table takes its bytes from the transaction and reads `V` nowhere (R75). -/
theorem phaseRow_withValue (t : Txn) (v : Half) (s : State) :
    phaseRow t (s.withValue v) = nextWithValue v (phaseRow t s) := by
  have hset : ∀ lvl p, ValueBlind (setLevel .cs lvl (·.toPh p)) := fun lvl p => valueBlind_setLevel _ _ fun _ _ => rfl
  have hsend : ∀ b p, ValueBlind (xfer b (discard p)) := fun b p => valueBlind_xfer b fun _ _ _ => rfl
  have hrecv : ∀ b p, ValueBlind (xfer b (latchRx p)) := fun b p => valueBlind_xfer b fun _ _ _ => rfl
  obtain ⟨k, a, x⟩ := t
  unfold phaseRow
  rw [State.withValue_ph]
  cases s.ph <;> cases k <;> simp only [nextWithValue, hset _ _ v s, hsend _ _ v s, hrecv _ _ v s] <;> rfl

/-! ### The completion moves -/

theorem valueBlind_completePoll : ValueBlind completePoll :=
  .ite (fun _ _ => .rfl) (.ite (fun _ _ => .rfl) (fun _ _ => rfl) fun _ _ => rfl)
    (.ite (fun _ _ => .rfl) (fun _ _ => rfl) fun _ _ => rfl)

theorem completeRead_withValue (v : Half) (s : State) :
    completeRead (s.withValue v) = nextWithValue v (completeRead s) := by
  unfold completeRead
  rw [State.withValue_op]
  cases s.op
  case readWord =>
    rw [State.withValue_bi]
    simp only [apply_ite (nextWithValue v)]
    rfl
  all_goals rfl

theorem complete_withValue (v : Half) (s : State) : complete (s.withValue v) = nextWithValue v (complete s) := by
  unfold complete
  rw [State.withValue_q]
  cases s.q
  case rdRead => exact completeRead_withValue v s
  case wbPoll => simp only [valueBlind_completePoll v s, nextWithValue]
  all_goals rfl

/-- The sequencer states whose step does not depend on `V`: all that own a transaction but the two that send a byte of
it (R78). -/
def SeqState.ignoresValue (q : SeqState) : Prop := q = .initWrsr ∨ q = .rdRead ∨ q = .wbWren ∨ q = .wbPoll ∨ q = .rsRdsr

theorem blockStep_withValue {s : State} (h : s.q.ignoresValue) (v : Half) :
    blockStep (s.withValue v) = nextWithValue v (blockStep s) := by
  obtain ⟨t, ho, ho'⟩ : ∃ t, s.owned = some t ∧ (s.withValue v).owned = some t := by
    rcases h with hq | hq | hq | hq | hq <;> simp [State.owned, State.withValue, State.byteAddr, hq]
  simp only [blockStep, ho, ho']
  rw [State.withValue_ph]
  split
  · exact complete_withValue v (s.toPh .idle)
  · exact phaseRow_withValue t v s

/-- Settles O34: rows and completion moves do not read `V`, and the transactions these states own hold no byte of it. -/
theorem valueLatchUnusedElsewhere : Obligations.ValueLatchUnusedElsewhere := by
  refine fun s v hq => ⟨fun t h => ?_, fun f h => ?_⟩ <;>
    exact (blockStep_withValue hq v).trans (by rw [h]; rfl)

end Sys2Proof.Machine
end

section
/-! The sequencer and the lines from step to step: `q` waits for the window, an enable lasts until reset, a disciplined
host always gets a step, and what holds at reset and between windows. -/

namespace Sys2Proof.Machine

open Sys2Proof

/-! ### While a window is open -/

/-- Inside a window the block runs the row of an owned transaction: every other of its moves is between windows. -/
theorem BlockMove.row_of_inWindow {s u : State} (h : BlockMove s u) (hi : SequencerInv s)
    (hw : s.ph.inWindow = true) (hq : s.q ≠ .faulted) : ∃ t, RowMove t s u := by
  have hown : s.owned ≠ none := fun ho => by simp [hi.ph_idle hq ho, Phase.inWindow] at hw
  cases h with
  | row t _ _ _ hr => exact ⟨t, hr⟩
  | complete t _ _ hp => simp [hp, Phase.inWindow] at hw
  | lineFault x ha | cfg l q' ha | drive l q' d e ha => exact absurd (owned_none_of_lineAction ha) hown
  | rest hr => exact absurd (owned_none_of_idle (hr.resolve_right hq)) hown

/-- Settles O37: inside a window a step is a row, which keeps `q` or raises BusFault, or no move of the block. -/
theorem sequencerWaitsForWindow : Obligations.SequencerWaitsForWindow := by
  intro s t hi h hn hw hq
  have hbusy : s.q ≠ .idle := fun h => by simp [hi.ph_idle hq (owned_none_of_idle h), Phase.inWindow] at hw
  rcases (step_cases h).noReset_cases hn with ⟨_, _, _, _, hidle, -⟩ | ⟨_, _, _, hidle, -⟩ | ⟨d, ms, rfl⟩ | ⟨ms, hb⟩
  · exact absurd hidle hbusy
  · exact absurd hidle hbusy
  · exact .inl rfl
  · obtain ⟨_, hr⟩ := hb.row_of_inWindow (hi.withInputs ms s.bench) hw hq
    exact hr.keeps.outcome.imp And.left And.left

/-! ### The output enables -/

theorem WireKeeps.line_oe {s u : State} (h : WireKeeps s u) (l : LineId) : (u.line l).oe = (s.line l).oe := by
  cases l with
  | cs => exact h.oe
  | hold => exact congrArg Line.oe h.hold
  | wp => exact congrArg Line.oe h.wp

/-- An enable is as it was, or it was set by `cfg_out` of its own line (R20). -/
theorem BlockMove.line_oe {s u : State} (h : BlockMove s u) (l : LineId) :
    (u.line l).oe = (s.line l).oe ∨ ((u.line l).oe = true ∧ u.trace = s.trace ++ [.cfg l]) := by
  cases h with
  | row t _ _ _ hr => exact .inl (hr.keeps.line_oe l)
  | complete t _ _ _ hc =>
    obtain ⟨-, -, -, -, -, -, hcs, hhold, hwp, -⟩ := hc.keeps
    exact .inl (by cases l <;> simp [State.line, hcs, hhold, hwp])
  | lineFault | rest => exact .inl (by simp)
  | cfg k => by_cases hl : l = k <;> simp [State.mapLine_line, hl]
  | drive k => by_cases hl : l = k <;> simp [State.mapLine_line, hl]

theorem StepMove.line_oe {s u : State} (h : StepMove s u) (hn : NoResetNow s) (l : LineId) :
    (u.line l).oe = (s.line l).oe ∨ ((u.line l).oe = true ∧ u.trace = s.trace ++ [.cfg l]) := by
  rcases h.noReset_cases hn with ⟨o, a, v, ms, -, rfl⟩ | ⟨t, f, fs, -, -, hw⟩ | ⟨d, ms, rfl⟩ | ⟨ms, hb⟩
  · exact .inl (by simp)
  · obtain ⟨k, -⟩ := window_keeps hw
    exact .inl ((k.line_oe l).trans (by simp))
  · exact .inl (by simp)
  · simpa using hb.line_oe l

/-- Settles O38: a step that is no reset leaves an enable as it is or sets it by `cfg_out`. -/
theorem outputEnableClearedOnlyByReset : Obligations.OutputEnableClearedOnlyByReset := by
  intro s t l h hn
  rcases (step_cases h).line_oe hn l with hoe | ⟨hoe, htr⟩
  · exact ⟨fun hs => hoe.trans hs, fun hs ht => by simp [hoe, hs] at ht⟩
  · exact ⟨fun _ => hoe, fun _ _ => htr⟩

/-! ### Progress -/

/-- Every completion move of a state that owns a transaction answers, a READ's because the operation is a read
(R17). -/
theorem complete_answers {s : State} (h : s.q.allows s.op = true) : ∃ t, complete s = .next t := by
  unfold complete
  cases hq : s.q <;> simp only [hq] at h ⊢
  case rdRead =>
    unfold completeRead
    cases ho : s.op <;> simp [SeqState.allows, ho] at h ⊢
    split <;> exact ⟨_, rfl⟩
  all_goals exact ⟨_, rfl⟩

theorem blockStep_answers {s : State} (h : SequencerInv s) : ∃ t, blockStep s = .next t := by
  obtain ⟨hph, hallows, -⟩ := h
  cases ho : s.owned with
  | none => simp only [blockStep, ho]; exact ⟨_, rfl⟩
  | some t =>
    by_cases hp : s.ph = .deselected
    · rw [blockStep_deselected ho hp]
      exact complete_answers hallows
    · obtain ⟨u, hu, -⟩ := phaseRow_allowed (State.phaseOk_of_owned ho ▸ hph (q_ne_faulted_of_owned ho))
      exact ⟨u, by simp only [blockStep, ho, if_neg hp, hu]⟩

/-- Every operation code but 7 has a meaning (R61, R63). -/
theorem decodeHop_wellFormed {w : HostWord} (h : hopOp w ≠ 7) : (decodeHop w).wellFormed = true := by
  have hcodes : ∀ o : BitVec 3, o ≠ 7 → o = 0 ∨ o = 1 ∨ o = 2 ∨ o = 3 ∨ o = 4 ∨ o = 5 ∨ o = 6 := by decide
  rcases hcodes _ h with ho | ho | ho | ho | ho | ho | ho <;> simp [decodeHop, ho, Instr.wellFormed]

/-- Settles O49: a `call` taken up in `Q_IDLE` is a `Start` that is accepted; in every other case the block steps, the
device completes or the machine is reset. -/
theorem disciplinedMachineAlwaysSteps : Obligations.DisciplinedMachineAlwaysSteps := by
  intro s hi hb hforce hcall
  unfold step
  rcases pick_cases s with ⟨f, fs, hb', -⟩ | ⟨-, ⟨ms, -, hp⟩ | ⟨ms, -, hp⟩ | ⟨ms, -, hp⟩ | ⟨w, ms, hm, -⟩ |
    ⟨w, ms, hm, hq, hp⟩ | ⟨w, ms, -, -, hp⟩ | ⟨-, hp⟩⟩
  · simp [hb] at hb'
  · rw [hp]; exact ⟨_, rfl⟩
  · rw [hp]; exact ⟨_, rfl⟩
  · rw [hp]; exact blockStep_answers (hi.withInputs ms s.bench)
  · exact absurd hm (hforce w ms)
  · obtain ⟨o, a, v, h⟩ := exec_host (decodeHop_isHost w) (decodeHop_wellFormed (hcall w ms hm))
      (s.withInputs ms s.bench)
    rw [hp]
    exact ⟨_, h.trans (if_pos hq)⟩
  · rw [hp]; exact blockStep_answers hi
  · rw [hp]; exact blockStep_answers hi

/-! ### At reset, and between windows -/

/-- Settles O1: the reset values, read off the definition. -/
theorem resetGivesSpecValues : Obligations.ResetGivesSpecValues :=
  ⟨rfl, rfl, rfl, rfl, rfl, rfl, rfl, rfl, rfl, rfl, rfl⟩

/-- Settles O47: at reset the block is idle, and the trace, the array and the device's frame are empty. -/
theorem resetMeetsInvariants : Obligations.ResetMeetsInvariants :=
  ⟨.of_idle rfl rfl (by decide) (by decide), rfl, ⟨rfl, by decide⟩, fun _ => rfl⟩

/-- Settles O48: between windows chip-select is not LOW, so with the line invariant all three lines are driven HIGH. -/
theorem linesReadyBetweenWindows : Obligations.LinesReadyBetweenWindows := by
  intro s h hq hp
  obtain ⟨hoe, hdriven, hhold, hwp, hlow⟩ := h hq
  have hhigh : s.cs.lvl = .high := by
    cases hl : s.cs.lvl with
    | low => rcases hp with hp | hp <;> simp [hp, Phase.inWindow, hl] at hlow
    | high => rfl
  have hcs : s.cs.ready = true := by simp [Line.ready, hoe, hdriven, hhigh]
  simp [State.linesReady, hcs, hhold, hwp]

end Sys2Proof.Machine
end

section
/-! The device between frames: when a frame may begin, the contract device's own completion, and the two invariants of
the device that every step keeps, the canonical array (R38, R46) and the empty frame between windows (R47, R50). -/

namespace Sys2Proof.Machine

open Sys2Proof

/-! ### When a frame may begin -/

theorem window_refused {t : Txn} {s : State} (h : s.ph ≠ .idle ∨ s.q = .faulted) :
    window t s = .refused .startWhileBusy :=
  if_neg fun ⟨hp, hq⟩ => h.elim (· hp) hq

/-- Settles O19: every wire frame is a window, and a window needs a free wire. -/
theorem frameNeedsFreeWire : Obligations.FrameNeedsFreeWire := by
  intro s i hi h
  cases i with
  | wren | wrdi | rdsr | wrsr | read | write => exact window_refused h
  | init | readWord | writeWord | readStatus | writeStatus | writeByte | readByte | reservedOp7 => cases hi

/-! ### The contract device's own completion -/

theorem step_deviceDone {s : State} {ms : List Move} (hb : s.bench = [] ∨ s.q ≠ .idle)
    (hm : s.moves = .deviceDone :: ms) : step s = .next (deviceComplete (s.withInputs ms s.bench)) := by
  have hp : s.pick = .device (s.withInputs ms s.bench) := by
    rcases pick_cases s with ⟨f, fs, hb', hq, -⟩ | ⟨-, h⟩
    · exact (hb.elim (by simp [hb']) (· hq)).elim
    · simpa [hm] using h
  unfold step
  rw [hp]

/-- Settles O22: the step that takes up the completion is `deviceComplete`, whose condition decides the two clauses. -/
theorem contractDeviceCompletesByItself : Obligations.ContractDeviceCompletesByItself := by
  intro s ms hb hm hmode
  rw [step_deviceDone hb hm]
  refine ⟨fun hbusy => ⟨_, rfl, ?_, ?_⟩, fun hidle => ?_⟩
  · simp [deviceComplete, State.withInputs, hmode, hbusy]
  · simp [deviceComplete, hmode, hbusy]
  · simp [deviceComplete, State.withInputs, hidle]

/-! ### The array stays canonical -/

theorem MemoryInv.congr {s u : State} (h : MemoryInv s) (hm : u.dev.mem = s.dev.mem) (hp : u.par = s.par) :
    MemoryInv u := by
  rw [MemoryInv, hm, hp]; exact h

/-- What chip-select HIGH can do to the array keeps it canonical: nothing, or one location of the array written. -/
theorem MemoryInv.deselect_kept {s u : State} (h : MemoryInv s) (hp : u.par = s.par)
    (hm : u.dev.mem = s.dev.mem ∨ (s.dev.mode ≠ .open ∧
      ∃ a b, decodeFrame s.dev.frame = .ok (.write a b) ∧ s.inArray a = true ∧
        u.dev.mem = s.dev.mem.write (s.location a) b)) : MemoryInv u := by
  rcases hm with hm | ⟨-, a, b, -, ha, hm⟩
  · exact h.congr hm hp
  · obtain ⟨hwf, hpar⟩ := h
    exact ⟨by rw [hm]; exact Memory.wf_write (State.location_lt hpar ha) hwf, by rw [hp]; exact hpar⟩

/-- Losing the device, or not, leaves its array. -/
theorem lost_or_kept_mem (p : Prop) [Decidable p] (d : Device) : (if p then d.lost else d).mem = d.mem := by
  split <;> rfl

theorem MemoryInv.row_kept {t : Txn} {s u : State} (h : MemoryInv s) (hr : RowMove t s u) : MemoryInv u := by
  cases hr with
  | fault => exact h.congr (lost_or_kept_mem _ s.dev) rfl
  | select d e _ _ hm | send b r p d e _ _ hm | receive r d e _ _ hm => exact h.congr hm (by simp)
  | deselect d e _ _ hm => exact h.deselect_kept (by simp) hm
  | close => exact h

theorem MemoryInv.block_kept {s u : State} (h : MemoryInv s) (hb : BlockMove s u) : MemoryInv u := by
  cases hb with
  | row t _ _ _ hr => exact h.row_kept hr
  | complete t _ _ _ hc =>
    obtain ⟨hpar, -, -, -, -, -, -, -, -, hdev, -⟩ := hc.keeps
    exact h.congr (congrArg Device.mem hdev) hpar
  | lineFault => exact h.congr (lost_or_kept_mem _ s.dev) rfl
  | cfg => exact h.congr (by simp) (by simp)
  | drive l q' d e _ _ hm => exact h.deselect_kept (by simp) hm
  | rest => exact h

theorem MemoryInv.step_kept {s u : State} (h : MemoryInv s) (hs : StepMove s u) : MemoryInv u := by
  cases hs with
  | started => exact h
  | window t f fs _ _ _ hw =>
    obtain ⟨-, -, hrun⟩ := window_cases hw
    exact runRows_induct (P := MemoryInv) (fun _ _ hi _ _ hr => hi.row_kept hr) _ (s.withInputs s.moves fs) u h hrun
  | reset => exact h.congr (lost_or_kept_mem _ s.dev) rfl
  | device ms =>
    obtain ⟨d, hd, hm, -⟩ := deviceComplete_changes (s.withInputs ms s.bench)
    rw [hd]
    exact h.congr hm rfl
  | block ms _ _ hb => exact MemoryInv.block_kept (s := s.withInputs ms s.bench) h hb

/-- Settles O45: each move of `step` leaves the array or writes one location of it. -/
theorem memoryInvKept : Obligations.MemoryInvKept := fun _ _ hi h => hi.step_kept (step_cases h)

/-! ### No byte of a frame between windows -/

theorem DeviceInv.of_frame {s : State} (h : s.dev.frame = []) : DeviceInv s := fun _ => h

theorem DeviceInv.congr {s u : State} (h : DeviceInv s) (hd : u.dev = s.dev) (hp : u.ph = s.ph) : DeviceInv u := by
  rw [DeviceInv, hd, hp]; exact h

/-- A device that a cut window leaves holds no byte: nothing is known of it, or no window was open. -/
theorem DeviceInv.cut_kept {s u : State} (h : DeviceInv s) (hd : u.dev = if s.ph.inWindow then s.dev.lost else s.dev) :
    DeviceInv u := .of_frame <| by
  rw [hd]
  split
  · rfl
  · next hw => exact h (.inr (Bool.eq_false_of_not_eq_true hw))

/-- Chip-select driven empties the frame, or nothing was known of the device. -/
theorem DeviceInv.frame_after_set {s : State} (h : DeviceInv s) {d : Device}
    (hf : d.frame = [] ∨ (d = s.dev ∧ s.dev.mode = .open)) : d.frame = [] := by
  rcases hf with hf | ⟨rfl, ho⟩
  exacts [hf, h (.inl ho)]

/-- The phases in which a byte is sent or received, and those after them, lie inside the window (R75). -/
theorem Txn.sends_inWindow {t : Txn} {p p' : Phase} {b : Byte} (h : t.sends p = some (b, p')) :
    p'.inWindow = true := by
  obtain ⟨k, a, x⟩ := t
  cases p <;> cases k <;> simp [Txn.sends] at h <;> simp [← h.2, Phase.inWindow]

/-- A byte received inside the window: only an open device must have an empty frame there, and it keeps none. -/
theorem DeviceInv.transfer_kept {s u : State} {bs : List Byte} (h : DeviceInv s) (hp : u.ph.inWindow = true)
    (hf : u.dev.mode = s.dev.mode ∧ u.dev.frame = if s.dev.mode = .open then s.dev.frame else bs) : DeviceInv u := by
  obtain ⟨hmode, hframe⟩ := hf
  rintro (ho | hw)
  · rw [hmode] at ho
    rw [hframe, if_pos ho]
    exact h (.inl ho)
  · simp [hp] at hw

theorem DeviceInv.row_kept {t : Txn} {s u : State} (h : DeviceInv s) (hr : RowMove t s u) : DeviceInv u := by
  cases hr with
  | fault => exact h.cut_kept rfl
  | select d e _ _ _ hfr | deselect d e _ _ _ hfr => exact .of_frame (h.frame_after_set hfr)
  | send b r p d e hp _ _ hfr => exact h.transfer_kept (t.sends_inWindow hp) hfr
  | receive r d e _ _ _ hfr => exact h.transfer_kept rfl hfr
  | close hp => exact .of_frame (h (.inr (by rw [hp]; rfl)))

theorem DeviceInv.block_kept {s u : State} (h : DeviceInv s) (hb : BlockMove s u) : DeviceInv u := by
  cases hb with
  | row t _ _ _ hr => exact h.row_kept hr
  | complete t _ _ hp hc =>
    obtain ⟨-, -, -, -, -, -, -, -, -, hdev, -⟩ := hc.keeps
    exact .of_frame ((congrArg Device.frame hdev).trans (h (.inr (by rw [hp]; rfl))))
  | lineFault => exact h.cut_kept rfl
  | cfg => exact h.congr (by simp) (by simp)
  | drive l q' d e _ _ _ hfr =>
    rcases hfr with hfr | hfr
    exacts [.of_frame hfr, h.congr hfr (by simp)]
  | rest => exact h

theorem DeviceInv.step_kept {s u : State} (h : DeviceInv s) (hs : StepMove s u) : DeviceInv u := by
  cases hs with
  | started => exact h
  | window t f fs _ _ _ hw =>
    obtain ⟨-, -, hrun⟩ := window_cases hw
    exact runRows_induct (P := DeviceInv) (fun _ _ hi _ _ hr => hi.row_kept hr) _ (s.withInputs s.moves fs) u h hrun
  | reset => exact h.cut_kept rfl
  | device ms =>
    obtain ⟨d, hd, -, hmode, hframe⟩ := deviceComplete_changes (s.withInputs ms s.bench)
    rw [hd]
    intro hc
    rw [State.withWorld_dev] at hc ⊢
    rw [hframe]
    exact h (by rwa [hmode] at hc)
  | block ms _ _ hb => exact DeviceInv.block_kept (s := s.withInputs ms s.bench) h hb

/-- Settles O46: each move of `step` empties the frame, adds to it inside the window of a known device, or leaves it. -/
theorem deviceInvKept : Obligations.DeviceInvKept := fun _ _ _ hi h => hi.step_kept (step_cases h)

end Sys2Proof.Machine
end

section
/-! A whole window at a device whose behaviour is given (R44 to R48): the block's part is `AfterWindow`; here is what
the device has heard when it answers a query, or acts on a command, and what it is left with. -/

namespace Sys2Proof.Machine

open Sys2Proof

/-! ### Frames -/

/-- What a transaction puts on the wire is the frame of its instruction (R51). -/
theorem Txn.decodeFrame_bytes (t : Txn) : decodeFrame t.bytes = .ok t.instr := by
  obtain ⟨k, a, x⟩ := t
  cases k with
  | wren | wrdi | rdsr | wrsr => rfl
  | read => exact congrArg (fun a => Except.ok (Instr.read a x)) (joinBytes_hiByte_loByte a)
  | write => exact congrArg (fun a => Except.ok (Instr.write a x)) (joinBytes_hiByte_loByte a)

/-- A window is opened, carries its bytes, is closed, and ends in a silent step (R86). -/
theorem Txn.steps_eq (t : Txn) : t.kind.steps = t.bytes.length + 3 := by
  obtain ⟨k, a, x⟩ := t
  cases k <;> rfl

/-- Every byte of a frame but the last is sent without keeping the reply, and what has been sent with it is no
whole frame (R52, R75). -/
theorem Txn.sends_beforeLast (t : Txn) {i : Nat} (h : i + 1 < t.bytes.length) :
    ∃ b e, t.bytes[i]? = some b ∧ t.sends (t.kind.after^[i + 1] .idle) = some (b, t.kind.after^[i + 2] .idle) ∧
      decodeFrame (t.bytes.take (i + 1)) = .error e := by
  obtain ⟨k, a, x⟩ := t
  cases k with
  | wren | wrdi => simp [Txn.bytes] at h
  | rdsr | wrsr =>
    obtain rfl : i = 0 := by simp [Txn.bytes] at h; omega
    exact ⟨_, _, rfl, rfl, rfl⟩
  | read | write =>
    obtain rfl | rfl | rfl : i = 0 ∨ i = 1 ∨ i = 2 := by simp [Txn.bytes] at h; omega
    all_goals exact ⟨_, _, rfl, rfl, rfl⟩

/-- The last byte of a command is sent like the others, and the window closes after it (R75). -/
theorem Txn.sends_last {t : Txn} (h : t.instr.receives = false) :
    ∃ b p, t.bytes = t.bytes.dropLast ++ [b] ∧ t.sends (t.kind.after^[t.bytes.length] .idle) = some (b, p) ∧
      t.closes p := by
  obtain ⟨k, a, x⟩ := t
  cases k with
  | rdsr | read => cases h
  | wren => exact ⟨_, _, rfl, rfl, .inl ⟨.inl rfl, rfl⟩⟩
  | wrdi => exact ⟨_, _, rfl, rfl, .inl ⟨.inr rfl, rfl⟩⟩
  | wrsr | write => exact ⟨_, _, rfl, rfl, .inr ⟨nofun, nofun, rfl⟩⟩

/-- In the last byte of a query, the dummy byte, the reply is kept (R13, R75). -/
theorem Txn.receives_last {t : Txn} (h : t.instr.receives = true) :
    t.bytes = t.bytes.dropLast ++ [t.data] ∧ t.receives (t.kind.after^[t.bytes.length] .idle) ∧
      t.closes .dataDone := by
  obtain ⟨k, a, x⟩ := t
  cases k with
  | rdsr => exact ⟨rfl, .inl ⟨rfl, rfl⟩, .inr ⟨nofun, nofun, rfl⟩⟩
  | read => exact ⟨rfl, .inr ⟨rfl, rfl⟩, .inr ⟨nofun, nofun, rfl⟩⟩
  | wren | wrdi | wrsr | write => cases h

theorem Txn.bytes_length_pos (t : Txn) : 0 < t.bytes.length := by
  obtain ⟨k, a, x⟩ := t
  cases k <;> simp [Txn.bytes]

/-! ### What a device has heard -/

/-- The environment's coming choices that only a write command takes (logs 18, 27). -/
def State.choices (s : State) : List Nat × List Nat × List Bool := (s.env.nWr, s.env.nSr, s.env.accepts)

/-- `v` is to the device what `s` is, with the bytes `bs` of a window received and each answered by an unspecified
byte. -/
structure Heard (s : State) (bs : List Byte) (v : State) : Prop where
  dev : v.dev = { s.dev with frame := bs }
  par : v.par = s.par
  replies : v.env.replies = s.env.replies.drop bs.length
  choices : v.choices = s.choices

theorem Heard.congr {s u v : State} {bs : List Byte} (h : Heard s bs u) (hd : v.dev = u.dev) (hp : v.par = u.par)
    (hr : v.env.replies = u.env.replies) (hc : v.choices = u.choices) : Heard s bs v :=
  ⟨hd.trans h.dev, hp.trans h.par, hr.trans h.replies, hc.trans h.choices⟩

theorem Heard.popFault {s v : State} {bs : List Byte} (h : Heard s bs v) : Heard s bs v.popFault :=
  h.congr rfl rfl rfl rfl

theorem Heard.mode {s v : State} {bs : List Byte} (h : Heard s bs v) : v.dev.mode = s.dev.mode := by rw [h.dev]

theorem Heard.frame {s v : State} {bs : List Byte} (h : Heard s bs v) : v.dev.frame = bs := by rw [h.dev]

theorem freeReply_dev (s : State) : s.freeReply.2.dev = s.dev := by
  unfold State.freeReply; split <;> rfl

theorem freeReply_par (s : State) : s.freeReply.2.par = s.par := by
  unfold State.freeReply; split <;> rfl

theorem freeReply_choices (s : State) : s.freeReply.2.choices = s.choices := by
  unfold State.freeReply; split <;> rfl

theorem freeReply_replies (s : State) : s.freeReply.2.env.replies = s.env.replies.tail := by
  unfold State.freeReply; split <;> simp_all

theorem freeReply_of_cons {s : State} {r : Byte} {rs : List Byte} (h : s.env.replies = r :: rs) :
    s.freeReply.1 = r := by
  simp [State.freeReply, h]

/-- The byte that does not complete a query is answered by an unspecified one (R47, U9). -/
theorem deviceReply_unspecified {b : Byte} {s : State} (hm : s.dev.mode ≠ .open)
    (h : ∀ i, decodeFrame (s.dev.frame ++ [b]) = .ok i → i.receives = false) :
    deviceReply b s = (pushByte b s).freeReply := by
  rw [deviceReply, if_neg hm]
  split
  · next hd => cases h _ hd
  · next hd => cases h _ hd
  · rfl

theorem deviceReply_choices (b : Byte) (s : State) : (deviceReply b s).2.choices = s.choices := by
  unfold deviceReply
  split
  · exact freeReply_choices s
  · split
    · unfold statusReply
      split
      exacts [freeReply_choices (pushByte b s), rfl]
    · split
      exacts [rfl, freeReply_choices (pushByte b s)]
    · exact freeReply_choices (pushByte b s)

theorem Heard.transfer {s v : State} {bs : List Byte} {b : Byte} (hv : Heard s bs v) (hm : s.dev.mode ≠ .open)
    (h : ∀ i, decodeFrame (bs ++ [b]) = .ok i → i.receives = false) :
    Heard s (bs ++ [b]) (deviceReply b v).2 := by
  rw [deviceReply_unspecified (by rwa [hv.mode]) (by rwa [hv.frame])]
  refine ⟨?_, ?_, ?_, (freeReply_choices _).trans hv.choices⟩
  · simp [freeReply_dev, pushByte, hv.dev]
  · simp [freeReply_par, pushByte, hv.par]
  · rw [freeReply_replies, List.length_append, List.length_singleton, ← List.tail_drop, ← hv.replies]; rfl

/-! ### The window -/

/-- Between windows, no fault raised or scheduled, the lines ready, and a device whose behaviour is given. -/
structure Listening (s : State) : Prop where
  ph : s.ph = .idle
  q : s.q ≠ .faulted
  quiet : Quiet s
  lines : s.linesReady = true
  mode : s.dev.mode ≠ .open

/-- With its lines ready the block's chip-select LOW is seen by the device (R20, R21). -/
theorem pinsSeen_low {s : State} (h : s.linesReady = true) :
    (s.popFault.mapLine (Line.drive .low) .cs).pinsSeen .low = true := by
  simp only [State.linesReady, Line.ready, Bool.and_eq_true, decide_eq_true_eq] at h
  simp [State.pinsSeen, Line.pin, h]

/-- Transaction `t` of `s` after the transfers of `bs`, none of which the device answered by a byte of its own. -/
structure KnownWindow (t : Txn) (s : State) (bs rx : List Byte) (p : Phase) (u : State) : Prop where
  inside : InWindow s bs rx s.RX p u
  heard : Heard s bs u
  run : ∀ m, runRows t (bs.length + 1 + m) s = runRows t m u

theorem KnownWindow.opens (t : Txn) {s : State} (hl : Listening s) :
    ∃ u, KnownWindow t s [] [] .selected u := by
  obtain ⟨u, hrow, hin⟩ := window_opens (t := t) hl.ph (faultDue_of_quiet hl.quiet)
  have hu := hrow
  rw [phaseRow_idle hl.ph, setLevel, primitive_ok (faultDue_of_quiet hl.quiet), deviceSees, deviceSelect,
    if_neg (by simpa using hl.mode), if_pos (pinsSeen_low hl.lines)] at hu
  cases hu
  refine ⟨_, hin, ⟨by simp [clearFrame], by simp [clearFrame], by simp [clearFrame], ?_⟩, fun m => ?_⟩
  · simp [State.choices, clearFrame]
  · rw [List.length_nil, Nat.zero_add, Nat.add_comm, runRows_next hl.q hrow]

theorem KnownWindow.sends {t : Txn} {s u : State} {bs rx : List Byte} {p p' : Phase} {b : Byte} (hl : Listening s)
    (h : KnownWindow t s bs rx p u) (hs : t.sends p = some (b, p'))
    (hb : ∀ i, decodeFrame (bs ++ [b]) = .ok i → i.receives = false) :
    ∃ r w, KnownWindow t s (bs ++ [b]) (rx ++ [r]) p' w := by
  have hf := h.inside.noFault hl.quiet
  obtain ⟨r, w, hrow, hin⟩ := window_sends hl.q h.inside hf hs
  have hw := hrow
  rw [phaseRow_sends (by rwa [h.inside.ph]), xfer, primitive_ok hf] at hw
  cases hw
  refine ⟨r, _, hin, (h.heard.popFault.transfer hl.mode hb).congr ?_ ?_ ?_ ?_, fun m => ?_⟩
  iterate 4 simp [Machine.discard, State.choices]
  rw [List.length_append, List.length_singleton, Nat.add_assoc (bs.length + 1) 1 m, h.run, Nat.add_comm 1 m,
    runRows_next (by rw [h.inside.q]; exact hl.q) hrow]

/-- The window before the last byte of its frame. -/
theorem KnownWindow.upTo (t : Txn) {s : State} (hl : Listening s) :
    ∀ i, i < t.bytes.length → ∃ rx, ∃ u, KnownWindow t s (t.bytes.take i) rx (t.kind.after^[i + 1] .idle) u
  | 0, _ => ⟨[], KnownWindow.opens t hl⟩
  | i + 1, hi => by
    obtain ⟨rx, u, h⟩ := KnownWindow.upTo t hl i (by omega)
    obtain ⟨b, e, hb, hs, he⟩ := t.sends_beforeLast hi
    have htake : t.bytes.take (i + 1) = t.bytes.take i ++ [b] := by rw [List.take_add_one, hb]; rfl
    rw [htake] at he ⊢
    obtain ⟨r, w, hw⟩ := h.sends hl hs (by simp [he])
    exact ⟨_, w, hw⟩

/-- Chip-select rises at the end of a window: the block is done with it, and the device acts on what it has received. -/
theorem window_rises {t : Txn} {s u : State} {bs rx : List Byte} {d : Byte} {p : Phase} (hl : Listening s)
    (h : InWindow s bs rx d p u) (hrun : runRows t t.kind.steps s = runRows t 2 u) (hc : t.closes p) :
    ∃ w, window t s = .next w ∧ AfterWindow s bs rx d w ∧
      w.dev = (deviceDeselect (u.popFault.mapLine (Line.drive .high) .cs)).dev ∧
      w.env = (deviceDeselect (u.popFault.mapLine (Line.drive .high) .cs)).env := by
  have hf := h.noFault hl.quiet
  obtain ⟨v, w, hrow, hq, hrow', hafter⟩ := window_closes hl.ph hl.q h hf hc
  refine ⟨w, ?_, hafter, ?_⟩
  · rw [window, if_pos ⟨hl.ph, hl.q⟩, hrun, runRows_next (by rw [h.q]; exact hl.q) hrow, runRows_next hq hrow']
    rfl
  · rw [phaseRow_closes (by rwa [h.ph]), setLevel, primitive_ok hf] at hrow
    cases hrow
    rw [phaseRow_deselected rfl] at hrow'
    cases hrow'
    simp [deviceSees]

/-- A command as a whole window: the device acts on it when chip-select rises (R47). -/
theorem window_command {t : Txn} {s : State} (hl : Listening s) (ht : t.instr.receives = false) :
    ∃ w v, window t s = .next w ∧ (∃ rx, AfterWindow s t.bytes rx s.RX w) ∧ Heard s t.bytes v ∧
      w.dev = { (deviceAct v).dev with frame := [] } ∧ w.choices = (deviceAct v).choices := by
  have hpos := t.bytes_length_pos
  obtain ⟨rx, u, h⟩ := KnownWindow.upTo t hl (t.bytes.length - 1) (by omega)
  obtain ⟨b, p, hbytes, hs, hc⟩ := t.sends_last ht
  rw [← List.dropLast_eq_take, Nat.sub_add_cancel hpos] at h
  obtain ⟨r, w, h⟩ := h.sends hl hs (by rw [← hbytes, t.decodeFrame_bytes]; rintro i ⟨⟩; exact ht)
  rw [← hbytes] at h
  obtain ⟨y, hy, hafter, hdev, henv⟩ := window_rises hl h.inside (by rw [t.steps_eq]; exact h.run 2) hc
  refine ⟨y, w.popFault.mapLine (Line.drive .high) .cs, hy, ⟨_, hafter⟩, h.heard.congr rfl rfl rfl rfl, ?_, ?_⟩
  · rw [hdev, deviceDeselect, if_neg (by simpa [h.heard.mode] using hl.mode)]
    rfl
  · rw [State.choices, henv, deviceDeselect, if_neg (by simpa [h.heard.mode] using hl.mode)]
    rfl

/-- A query is no command: when chip-select rises the device has answered it already (R47). -/
theorem deviceAct_query {s : State} {i : Instr} (h : decodeFrame s.dev.frame = .ok i) (hi : i.receives = true) :
    deviceAct s = s := by
  unfold deviceAct
  rw [h]
  cases i with
  | rdsr | read => rfl
  | _ => cases hi

/-- The dummy transfer of a query. -/
theorem KnownWindow.receives {t : Txn} {s u : State} {bs rx : List Byte} {p : Phase} (hl : Listening s)
    (h : KnownWindow t s bs rx p u) (hs : t.receives p) :
    ∃ w, InWindow s (bs ++ [t.data]) (rx ++ [(deviceReply t.data u.popFault).1]) (deviceReply t.data u.popFault).1
        .dataDone w ∧
      w.dev = (deviceReply t.data u.popFault).2.dev ∧ w.choices = (deviceReply t.data u.popFault).2.choices ∧
      ∀ m, runRows t (bs.length + 2 + m) s = runRows t m w := by
  have hf := h.inside.noFault hl.quiet
  obtain ⟨r, w, hrow, hin⟩ := window_receives hl.q h.inside hf hs
  have hrun : ∀ m, runRows t (bs.length + 2 + m) s = runRows t m w := fun m => by
    rw [show bs.length + 2 + m = bs.length + 1 + (m + 1) by omega, h.run,
      runRows_next (by rw [h.inside.q]; exact hl.q) hrow]
  rw [phaseRow_receives (by rwa [h.inside.ph]), xfer, primitive_ok hf] at hrow
  cases hrow
  obtain rfl : (deviceReply t.data u.popFault).1 = r := hin.RX
  exact ⟨_, hin, rfl, rfl, hrun⟩

/-- A query as a whole window: what the device answers in the dummy transfer is kept in `RX` (R13, R47). -/
theorem window_query {t : Txn} {s : State} (hl : Listening s) (ht : t.instr.receives = true) :
    ∃ w v, window t s = .next w ∧ (∃ rx, AfterWindow s t.bytes rx (deviceReply t.data v).1 w) ∧
      Heard s t.bytes.dropLast v ∧ w.dev = { (deviceReply t.data v).2.dev with frame := [] } ∧
      w.choices = s.choices := by
  have hpos := t.bytes_length_pos
  obtain ⟨rx, u, h⟩ := KnownWindow.upTo t hl (t.bytes.length - 1) (by omega)
  obtain ⟨hbytes, hs, hc⟩ := t.receives_last ht
  rw [← List.dropLast_eq_take, Nat.sub_add_cancel hpos] at h
  obtain ⟨w, hin, hdev, hch, hrun⟩ := h.receives hl hs
  rw [← hbytes] at hin
  obtain ⟨y, hy, hafter, hydev, hyenv⟩ := window_rises hl hin
    (by rw [t.steps_eq, ← hrun 2, List.length_dropLast]; congr 1; omega) hc
  -- The device has the whole frame of a query, which it does not act on.
  obtain ⟨hmode, hframe⟩ := deviceReply_frame t.data u.popFault
  rw [State.popFault_dev, h.heard.mode, h.heard.frame, if_neg hl.mode, ← hbytes] at hframe
  rw [State.popFault_dev, h.heard.mode] at hmode
  have hrise : deviceDeselect (w.popFault.mapLine (Line.drive .high) .cs) =
      clearFrame (w.popFault.mapLine (Line.drive .high) .cs) := by
    rw [deviceDeselect, if_neg (by simpa [hdev, hmode] using hl.mode),
      deviceAct_query (by simpa [hdev, hframe] using t.decodeFrame_bytes) ht]
  rw [hrise] at hydev hyenv
  refine ⟨y, u.popFault, hy, ⟨_, hafter⟩, h.heard.popFault, ?_, ?_⟩
  · rw [hydev, ← hdev]
    rfl
  · rw [State.choices, hyenv]
    exact hch.trans ((deviceReply_choices _ _).trans h.heard.popFault.choices)

end Sys2Proof.Machine
end

section
/-! What each frame does to the device, by its mode: the reference device of R47 and the contract device of R44. -/

namespace Sys2Proof.Machine

open Sys2Proof

/-! ### The acts of the device -/

theorem Heard.decode {t : Txn} {s v : State} (h : Heard s t.bytes v) : decodeFrame v.dev.frame = .ok t.instr := by
  rw [h.frame]; exact t.decodeFrame_bytes

theorem deviceAct_wren {s : State} (h : decodeFrame s.dev.frame = .ok .wren) :
    deviceAct s = latchCommand deviceWren s := by simp only [deviceAct, h]

theorem deviceAct_wrdi {s : State} (h : decodeFrame s.dev.frame = .ok .wrdi) :
    deviceAct s = latchCommand deviceWrdi s := by simp only [deviceAct, h]

theorem deviceAct_wrsr {s : State} {x : Byte} (h : decodeFrame s.dev.frame = .ok (.wrsr x)) :
    deviceAct s = writeCommand (s.wrsrAble && s.keepsWel x) (deviceWrsr x) s := by simp only [deviceAct, h]

theorem deviceAct_write {s : State} {a : Half} {x : Byte} (h : decodeFrame s.dev.frame = .ok (.write a x)) :
    deviceAct s = writeCommand (s.writeAble && s.inArray a) (deviceWrite a x) s := by simp only [deviceAct, h]

/-- Off the contract a device handles every command itself (R47). -/
theorem latchCommand_of_mode {act : State → State} {s : State} (h : s.dev.mode ≠ .contract) :
    latchCommand act s = act s := if_neg fun hc => h hc.1

theorem writeCommand_of_mode {able : Bool} {act : State → State} {s : State} (h : s.dev.mode ≠ .contract) :
    writeCommand able act s = act s := if_neg h

/-- A latch command at the contract device: nothing is known of one that is busy (log 27). -/
theorem latchCommand_contract_dev {act : State → State} {s : State} (h : s.dev.mode = .contract) :
    (latchCommand act s).dev = if s.dev.busyLeft = 0 then (act s).dev else s.dev.lost := by
  unfold latchCommand
  rcases Nat.eq_zero_or_pos s.dev.busyLeft with hb | hb
  · simp [hb]
  · rw [if_pos ⟨h, hb⟩, if_neg (by omega)]
    rfl

theorem takeAccept_dev (s : State) : s.takeAccept.2.dev = s.dev := by
  unfold State.takeAccept; split <;> rfl

theorem takeAccept_par (s : State) : s.takeAccept.2.par = s.par := by
  unfold State.takeAccept; split <;> rfl

theorem takeAccept_nSr (s : State) : s.takeAccept.2.env.nSr = s.env.nSr := by
  unfold State.takeAccept; split <;> rfl

theorem takeAccept_nWr (s : State) : s.takeAccept.2.env.nWr = s.env.nWr := by
  unfold State.takeAccept; split <;> rfl

theorem takeAccept_of_cons {s : State} {b : Bool} {bs : List Bool} (h : s.env.accepts = b :: bs) :
    s.takeAccept.1 = b := by simp [State.takeAccept, h]

theorem takeNSr_of_cons {s : State} {n : Nat} {ns : List Nat} (h : s.env.nSr = n :: ns) : s.takeNSr.1 = n := by
  simp [State.takeNSr, h]

theorem takeNWr_of_cons {s : State} {n : Nat} {ns : List Nat} (h : s.env.nWr = n :: ns) : s.takeNWr.1 = n := by
  simp [State.takeNWr, h]

theorem takeNWr_choices (s : State) : s.takeNWr.2.choices = (s.env.nWr.tail, s.env.nSr, s.env.accepts) := by
  unfold State.takeNWr; split <;> simp_all [State.choices]

/-- A write command at the contract device: it takes effect if the contract covers it and the device accepts it, else
nothing more is known (log 27). -/
theorem writeCommand_contract_dev {able : Bool} {act : State → State} {s : State} (h : s.dev.mode = .contract) :
    (writeCommand able act s).dev =
      if s.takeAccept.1 = true ∧ able = true then (act s.takeAccept.2).dev else s.dev.lost := by
  rw [writeCommand, if_pos h]
  cases able <;> cases s.takeAccept.1 <;> simp [loseDevice, takeAccept_dev]

theorem deviceWren_dev (s : State) :
    (deviceWren s).dev = { s.dev with wel := if s.dev.busyLeft = 0 then true else s.dev.wel } := by
  unfold deviceWren
  split <;> rfl

theorem deviceWren_choices (s : State) : (deviceWren s).choices = s.choices := by
  unfold deviceWren
  split <;> rfl

theorem deviceWrsr_dev (x : Byte) (s : State) :
    (deviceWrsr x s).dev = if s.wrsrAble = true then
      { s.dev with
        hi6 := x.extractLsb' 2 6, busyLeft := s.takeNSr.1, wel := if s.takeNSr.1 = 0 then false else s.dev.wel }
      else s.dev := by
  unfold deviceWrsr
  split <;> rfl

theorem deviceWrite_dev (a : Half) (x : Byte) (s : State) :
    (deviceWrite a x s).dev = if s.writeAble = true then
      { s.dev with
        mem := s.dev.mem.write (s.location a) x, busyLeft := s.takeNWr.1,
        wel := if s.takeNWr.1 = 0 then false else s.dev.wel }
      else s.dev := by
  unfold deviceWrite
  split <;> rfl

theorem deviceWrite_choices {a : Half} {x : Byte} {s : State} (h : s.writeAble = true) :
    (deviceWrite a x s).choices = (s.env.nWr.tail, s.env.nSr, s.env.accepts) := by
  rw [deviceWrite, if_pos h]
  exact takeNWr_choices s

/-! ### The replies of the device -/

@[simp] theorem Txn.rdsr_data (x : Byte) : (Txn.rdsr x).data = x := rfl
@[simp] theorem Txn.read_data (a : Half) (x : Byte) : (Txn.read a x).data = x := rfl

theorem Heard.decode_last {t : Txn} {s v : State} (h : Heard s t.bytes.dropLast v) (ht : t.instr.receives = true) :
    decodeFrame (v.dev.frame ++ [t.data]) = .ok t.instr := by
  rw [h.frame, ← (t.receives_last ht).1]; exact t.decodeFrame_bytes

theorem deviceReply_rdsr {s : State} {b x : Byte} (hm : s.dev.mode ≠ .open)
    (h : decodeFrame (s.dev.frame ++ [b]) = .ok (.rdsr x)) : deviceReply b s = statusReply (pushByte b s) := by
  simp only [deviceReply, if_neg hm, h]

theorem deviceReply_read {s : State} {b x : Byte} {a : Half} (hm : s.dev.mode ≠ .open)
    (h : decodeFrame (s.dev.frame ++ [b]) = .ok (.read a x)) :
    deviceReply b s = if s.dev.busyLeft = 0 ∧ s.inArray a = true then (s.content a, pushByte b s)
      else (pushByte b s).freeReply := by
  simp only [deviceReply, if_neg hm, h]

theorem content_of_read {s : State} {a : Half} {b : Byte} (h : s.dev.mem.read (s.location a) = some b) :
    s.content a = b := by simp [State.content, h]

theorem Heard.location {s v : State} {bs : List Byte} (h : Heard s bs v) (a : Half) : v.location a = s.location a :=
  State.location_congr h.par h.mode a

theorem Heard.inArray {s v : State} {bs : List Byte} (h : Heard s bs v) (a : Half) : v.inArray a = s.inArray a := by
  simp only [State.inArray, h.mode]

theorem Heard.content {s v : State} {bs : List Byte} (h : Heard s bs v) (a : Half) : v.content a = s.content a := by
  simp only [State.content, h.location, h.dev]

/-- A poll counts one down, also with none to wait for: then nothing changes (R47, R48). -/
theorem Device.polled_eq (d : Device) :
    d.polled = { d with busyLeft := d.busyLeft - 1, wel := if d.busyLeft = 1 then false else d.wel } := by
  unfold Device.polled
  split
  · rfl
  · next h =>
    obtain ⟨_, _, _, _, n, _⟩ := d
    obtain rfl : n = 0 := by simpa using h
    rfl

/-! ### READ, in both modes -/

/-- A READ window leaves the device as it was; an idle device answers the content of a location it is known to have, and
otherwise the byte is the environment's (R47, log 31). -/
theorem window_read_known {s : State} (hl : Listening s) (a : Half) (x : Byte) :
    ∃ w, window (.read a x) s = .next w ∧ (∃ rx, AfterWindow s (Txn.read a x).bytes rx w.RX w) ∧
      w.dev = { s.dev with frame := [] } ∧
      (s.dev.busyLeft = 0 ∧ s.inArray a = true → w.RX = s.content a) ∧
      (¬(s.dev.busyLeft = 0 ∧ s.inArray a = true) →
        ∀ r1 r2 r3 b rs, s.env.replies = [r1, r2, r3, b] ++ rs → w.RX = b) := by
  obtain ⟨w, v, hw, ⟨rx, ha⟩, hv, hdev, -⟩ := window_query (t := .read a x) hl rfl
  have hrx := ha.RX
  have hreply := deviceReply_read (a := a) (x := x) (b := x) (by rw [hv.mode]; exact hl.mode) (hv.decode_last rfl)
  rw [Txn.read_data] at hrx hdev
  rw [hv.inArray, hv.content, show v.dev.busyLeft = s.dev.busyLeft by rw [hv.dev]] at hreply
  refine ⟨w, hw, ⟨rx, hrx ▸ ha⟩, ?_, fun h => ?_, fun h r1 r2 r3 b rs hr => ?_⟩
  · rw [hdev, hreply]
    split <;> simp [freeReply_dev, pushByte, hv.dev]
  · rw [hrx, hreply, if_pos h]
  · rw [hrx, hreply, if_neg h]
    exact freeReply_of_cons (hv.replies.trans (by rw [hr]; rfl))

/-! ### The reference device (R47) -/

section Reference

variable {s : State}

theorem window_wren_reference (hl : Listening s) (hm : s.dev.mode = .reference) :
    ∃ w, window .wren s = .next w ∧ (∃ rx, AfterWindow s Txn.wren.bytes rx s.RX w) ∧
      w.dev = { s.dev with wel := if s.dev.busyLeft = 0 then true else s.dev.wel, frame := [] } ∧
      w.choices = s.choices := by
  obtain ⟨w, v, hw, ha, hv, hdev, hch⟩ := window_command (t := .wren) hl rfl
  rw [deviceAct_wren hv.decode, latchCommand_of_mode (by rw [hv.mode, hm]; nofun)] at hdev hch
  exact ⟨w, hw, ha, by rw [hdev, deviceWren_dev, hv.dev], hch.trans ((deviceWren_choices v).trans hv.choices)⟩

theorem window_wrdi_reference (hl : Listening s) (hm : s.dev.mode = .reference) :
    ∃ w, window .wrdi s = .next w ∧ w.dev = { s.dev with wel := false, frame := [] } := by
  obtain ⟨w, v, hw, -, hv, hdev, -⟩ := window_command (t := .wrdi) hl rfl
  rw [deviceAct_wrdi hv.decode, latchCommand_of_mode (by rw [hv.mode, hm]; nofun)] at hdev
  exact ⟨w, hw, by simp [hdev, deviceWrdi, hv.dev]⟩

theorem window_rdsr_reference (hl : Listening s) (hm : s.dev.mode = .reference) (x : Byte) :
    ∃ w, window (.rdsr x) s = .next w ∧ (∃ rx, AfterWindow s (Txn.rdsr x).bytes rx s.dev.status w) ∧
      w.dev = { s.dev with
        busyLeft := s.dev.busyLeft - 1, wel := if s.dev.busyLeft = 1 then false else s.dev.wel, frame := [] } ∧
      w.choices = s.choices := by
  obtain ⟨w, v, hw, ⟨rx, ha⟩, hv, hdev, hch⟩ := window_query (t := .rdsr x) hl rfl
  have hmode : (pushByte x v).dev.mode ≠ .contract := by
    rw [show (pushByte x v).dev.mode = s.dev.mode from hv.mode, hm]; nofun
  rw [Txn.rdsr_data, deviceReply_rdsr (b := x) (x := x) (by rw [hv.mode]; exact hl.mode) (hv.decode_last rfl),
    statusReply, if_neg hmode] at ha hdev
  refine ⟨w, hw, ⟨rx, ?_⟩, ?_, hch⟩
  · simpa [Device.status, pushByte, hv.dev] using ha
  · simp [hdev, Device.polled_eq, pushByte, hv.dev]

theorem window_wrsr_reference (hl : Listening s) (hm : s.dev.mode = .reference) (x : Byte) :
    ∃ w n, window (.wrsr x) s = .next w ∧ (∀ m ns, s.env.nSr = m :: ns → n = m) ∧
      w.dev = if s.wrsrAble = true then
        { s.dev with
          hi6 := x.extractLsb' 2 6, busyLeft := n, wel := if n = 0 then false else s.dev.wel, frame := [] }
        else { s.dev with frame := [] } := by
  obtain ⟨w, v, hw, -, hv, hdev, -⟩ := window_command (t := .wrsr x) hl rfl
  rw [deviceAct_wrsr (x := x) hv.decode, writeCommand_of_mode (by rw [hv.mode, hm]; nofun), deviceWrsr_dev,
    show v.wrsrAble = s.wrsrAble by simp only [State.wrsrAble, hv.dev, hv.par]] at hdev
  have hn : v.env.nSr = s.env.nSr := congrArg (·.2.1) hv.choices
  refine ⟨w, v.takeNSr.1, hw, fun m ns h => takeNSr_of_cons (hn.trans h), ?_⟩
  rw [hdev]
  split <;> simp [hv.dev]

theorem window_write_reference (hl : Listening s) (hm : s.dev.mode = .reference) (a : Half) (x : Byte) :
    ∃ w n, window (.write a x) s = .next w ∧ (∃ rx, AfterWindow s (Txn.write a x).bytes rx s.RX w) ∧
      (∀ m ns, s.env.nWr = m :: ns → n = m) ∧
      (w.dev = if s.writeAble = true then
        { s.dev with
          mem := s.dev.mem.write (s.location a) x, busyLeft := n, wel := if n = 0 then false else s.dev.wel,
          frame := [] }
        else { s.dev with frame := [] }) ∧
      (s.writeAble = true → w.choices = (s.env.nWr.tail, s.env.nSr, s.env.accepts)) := by
  obtain ⟨w, v, hw, ha, hv, hdev, hch⟩ := window_command (t := .write a x) hl rfl
  have hable : v.writeAble = s.writeAble := by simp only [State.writeAble, hv.dev]
  rw [deviceAct_write (a := a) (x := x) hv.decode, writeCommand_of_mode (by rw [hv.mode, hm]; nofun)] at hdev hch
  rw [deviceWrite_dev, hable] at hdev
  have hn : v.env.nWr = s.env.nWr := congrArg (·.1) hv.choices
  refine ⟨w, v.takeNWr.1, hw, ha, fun m ns h => takeNWr_of_cons (hn.trans h), ?_, fun h => ?_⟩
  · rw [hdev]
    split <;> simp [hv.dev, hv.location]
  · rw [hch, deviceWrite_choices (hable.trans h), hn]
    exact congrArg (fun c => (s.env.nWr.tail, c.2)) hv.choices

end Reference

/-! ### The contract device (R44) -/

section Contract

variable {s : State}

theorem window_wren_contract (hl : Listening s) (hm : s.dev.mode = .contract) :
    ∃ w, window .wren s = .next w ∧ w.dev =
      if s.dev.busyLeft = 0 then { s.dev with wel := true, frame := [] }
      else { s.dev with mode := .open, frame := [] } := by
  obtain ⟨w, v, hw, -, hv, hdev, -⟩ := window_command (t := .wren) hl rfl
  rw [deviceAct_wren hv.decode, latchCommand_contract_dev (hv.mode.trans hm), deviceWren_dev, hv.dev] at hdev
  refine ⟨w, hw, ?_⟩
  rw [hdev]
  split <;> simp_all [Device.lost]

theorem window_wrdi_contract (hl : Listening s) (hm : s.dev.mode = .contract) :
    ∃ w, window .wrdi s = .next w ∧ w.dev =
      if s.dev.busyLeft = 0 then { s.dev with wel := false, frame := [] }
      else { s.dev with mode := .open, frame := [] } := by
  obtain ⟨w, v, hw, -, hv, hdev, -⟩ := window_command (t := .wrdi) hl rfl
  rw [deviceAct_wrdi hv.decode, latchCommand_contract_dev (hv.mode.trans hm), deviceWrdi, hv.dev] at hdev
  refine ⟨w, hw, ?_⟩
  rw [hdev]
  split <;> simp [Device.lost]

theorem window_rdsr_contract (hl : Listening s) (hm : s.dev.mode = .contract) (x : Byte) :
    ∃ w, window (.rdsr x) s = .next w ∧ w.dev = { s.dev with frame := [] } ∧
      wip w.RX = decide (0 < s.dev.busyLeft) ∧ wel w.RX = s.dev.wel := by
  obtain ⟨w, v, hw, ⟨rx, ha⟩, hv, hdev, -⟩ := window_query (t := .rdsr x) hl rfl
  have hmode : (pushByte x v).dev.mode = .contract := hv.mode.trans hm
  have hrx := ha.RX
  rw [Txn.rdsr_data, deviceReply_rdsr (b := x) (x := x) (by rw [hv.mode]; exact hl.mode) (hv.decode_last rfl),
    statusReply, if_pos hmode] at hrx hdev
  refine ⟨w, hw, ?_, ?_, ?_⟩
  · simp [hdev, freeReply_dev, pushByte, hv.dev]
  · simp [hrx, pushByte, hv.dev]
  · simp [hrx, pushByte, hv.dev]

theorem window_wrsr_contract (hl : Listening s) (hm : s.dev.mode = .contract) (x : Byte) :
    ∃ w c n, window (.wrsr x) s = .next w ∧ (∀ b bs, s.env.accepts = b :: bs → c = b) ∧
      (∀ m ns, s.env.nSr = m :: ns → n = m) ∧
      w.dev = if c = true ∧ s.wrsrAble = true ∧ s.keepsWel x = true then
        { s.dev with
          hi6 := x.extractLsb' 2 6, busyLeft := n, wel := if n = 0 then false else s.dev.wel, frame := [] }
        else { s.dev with mode := .open, frame := [] } := by
  obtain ⟨w, v, hw, -, hv, hdev, -⟩ := window_command (t := .wrsr x) hl rfl
  have hable : v.wrsrAble = s.wrsrAble := by simp only [State.wrsrAble, hv.dev, hv.par]
  have hkeeps : v.keepsWel x = s.keepsWel x := by simp only [State.keepsWel, hv.dev]
  have hable' : v.takeAccept.2.wrsrAble = s.wrsrAble := by
    rw [← hable]; simp only [State.wrsrAble, takeAccept_dev, takeAccept_par]
  rw [deviceAct_wrsr (x := x) hv.decode, writeCommand_contract_dev (hv.mode.trans hm), hable, hkeeps, deviceWrsr_dev,
    hable', takeAccept_dev] at hdev
  simp only [Bool.and_eq_true] at hdev
  have hc : v.env.accepts = s.env.accepts := congrArg (·.2.2) hv.choices
  have hn : v.takeAccept.2.env.nSr = s.env.nSr := (takeAccept_nSr v).trans (congrArg (·.2.1) hv.choices)
  refine ⟨w, v.takeAccept.1, v.takeAccept.2.takeNSr.1, hw, fun b bs h => takeAccept_of_cons (hc.trans h),
    fun m ns h => takeNSr_of_cons (hn.trans h), ?_⟩
  rw [hdev]
  split <;> simp_all [hv.dev, Device.lost]

theorem window_write_contract (hl : Listening s) (hm : s.dev.mode = .contract) (a : Half) (x : Byte) :
    ∃ w c n, window (.write a x) s = .next w ∧ (∀ b bs, s.env.accepts = b :: bs → c = b) ∧
      (∀ m ns, s.env.nWr = m :: ns → n = m) ∧
      w.dev = if c = true ∧ s.writeAble = true ∧ s.inArray a = true then
        { s.dev with
          mem := s.dev.mem.write a.toNat x, busyLeft := n, wel := if n = 0 then false else s.dev.wel, frame := [] }
        else { s.dev with mode := .open, frame := [] } := by
  obtain ⟨w, v, hw, -, hv, hdev, -⟩ := window_command (t := .write a x) hl rfl
  have hable : v.writeAble = s.writeAble := by simp only [State.writeAble, hv.dev]
  have hable' : v.takeAccept.2.writeAble = s.writeAble := by
    rw [← hable]; simp only [State.writeAble, takeAccept_dev]
  have hloc : v.takeAccept.2.location a = a.toNat :=
    State.location_contract (by rw [takeAccept_dev, hv.mode, hm]) a
  rw [deviceAct_write (a := a) (x := x) hv.decode, writeCommand_contract_dev (hv.mode.trans hm), hable, hv.inArray,
    deviceWrite_dev, hable', hloc, takeAccept_dev] at hdev
  simp only [Bool.and_eq_true] at hdev
  have hc : v.env.accepts = s.env.accepts := congrArg (·.2.2) hv.choices
  have hn : v.takeAccept.2.env.nWr = s.env.nWr := (takeAccept_nWr v).trans (congrArg (·.1) hv.choices)
  refine ⟨w, v.takeAccept.1, v.takeAccept.2.takeNWr.1, hw, fun b bs h => takeAccept_of_cons (hc.trans h),
    fun m ns h => takeNWr_of_cons (hn.trans h), ?_⟩
  rw [hdev]
  split <;> simp_all [hv.dev, Device.lost]

end Contract

end Sys2Proof.Machine
end

section
/-! What each frame does to the device, as the obligations say it. -/

namespace Sys2Proof.Machine

open Sys2Proof

theorem State.wrsrAble_iff (s : State) :
    s.wrsrAble = true ↔ s.dev.busyLeft = 0 ∧ (s.dev.wel = true ∨ s.par.wrsrRequiresWel = false) := by
  simp [State.wrsrAble]

theorem State.writeAble_iff (s : State) : s.writeAble = true ↔ s.dev.busyLeft = 0 ∧ s.dev.wel = true := by
  simp [State.writeAble]

theorem State.keepsWel_iff (s : State) (x : Byte) : s.keepsWel x = true ↔ wel x = s.dev.wel := by
  simp [State.keepsWel]

theorem State.inArray_iff {s : State} (h : s.dev.mode = .contract) (a : Half) :
    s.inArray a = true ↔ a.toNat < 32768 := by simp [State.inArray, h, Config.devSize]

/-- Settles O20, frame by frame. -/
theorem referenceDeviceFollowsListing : Obligations.ReferenceDeviceFollowsListing := by
  intro s hp hq hquiet hm hlines
  have hl : Listening s := ⟨hp, hq, hquiet, hlines, by rw [hm]; nofun⟩
  have hcontract : s.dev.mode ≠ .contract := by rw [hm]; nofun
  refine ⟨?_, window_wrdi_reference hl hm, fun x => ?_, fun x => ?_, fun a x => ?_, fun a x => ?_⟩
  · obtain ⟨w, hw, -, hdev, -⟩ := window_wren_reference hl hm
    exact ⟨w, hw, hdev⟩
  · obtain ⟨w, hw, ⟨rx, hafter⟩, hdev, -⟩ := window_rdsr_reference hl hm x
    exact ⟨w, hw, hafter.RX, hdev⟩
  · obtain ⟨w, n, hw, hn, hdev⟩ := window_wrsr_reference hl hm x
    simp only [State.wrsrAble_iff] at hdev
    exact ⟨w, n, hw, hn, hdev⟩
  · obtain ⟨w, hw, -, hdev, hidle, hbusy⟩ := window_read_known hl a x
    refine ⟨w, hw, hdev, fun h0 b hb => ?_, fun hpos => hbusy fun h => by omega⟩
    rw [hidle ⟨h0, State.inArray_of_mode hcontract a⟩]
    exact content_of_read (by rwa [State.location_masked hcontract])
  · obtain ⟨w, n, hw, -, hn, hdev, -⟩ := window_write_reference hl hm a x
    simp only [State.writeAble_iff, State.location_masked hcontract] at hdev
    exact ⟨w, n, hw, hn, hdev⟩

/-- Settles O21, frame by frame. -/
theorem contractDeviceFollowsContract : Obligations.ContractDeviceFollowsContract := by
  intro s hp hq hquiet hm hlines
  have hl : Listening s := ⟨hp, hq, hquiet, hlines, by rw [hm]; nofun⟩
  refine ⟨window_wren_contract hl hm, window_wrdi_contract hl hm, window_rdsr_contract hl hm, fun x => ?_,
    fun a x => ?_, fun a x => ?_⟩
  · obtain ⟨w, c, n, hw, hc, hn, hdev⟩ := window_wrsr_contract hl hm x
    simp only [State.wrsrAble_iff, State.keepsWel_iff, and_assoc] at hdev
    exact ⟨w, c, n, hw, hc, hn, hdev⟩
  · obtain ⟨w, hw, -, hdev, hidle, hbusy⟩ := window_read_known hl a x
    simp only [State.inArray_iff hm] at hidle hbusy
    refine ⟨w, hw, hdev, fun h0 ha b hb => ?_, fun h => hbusy fun ⟨h0, ha⟩ => by omega⟩
    rw [hidle ⟨h0, ha⟩]
    exact content_of_read (by rwa [State.location_contract hm])
  · obtain ⟨w, c, n, hw, hc, hn, hdev⟩ := window_write_contract hl hm a x
    simp only [State.writeAble_iff, State.inArray_iff hm, and_assoc] at hdev
    exact ⟨w, c, n, hw, hc, hn, hdev⟩

end Sys2Proof.Machine
end

section
/-! The block left to itself: a host word taken up, and a transaction run step by step, which is the window of its frame
followed by the completion move (R75, R79, R86; log 1). -/

namespace Sys2Proof.Machine

open Sys2Proof

/-! ### What a step takes up -/

theorem Calls.waits {s : State} {ws : List HostWord} (h : Calls s ws) : Waits s := by
  obtain ⟨hm, hb⟩ := h
  refine ⟨hb, fun m ms hms => ?_⟩
  have hmem : m ∈ ws.map Move.call := by rw [← hm, hms]; exact List.mem_cons_self ..
  obtain ⟨w, -, rfl⟩ := List.mem_map.1 hmem
  exact ⟨w, rfl⟩

theorem Waits.congr {s u : State} (h : Waits s) (hm : u.moves = s.moves) (hb : u.bench = s.bench) : Waits u := by
  rw [Waits, hm, hb]; exact h

/-- A busy block whose host holds back its next word steps by itself (R65). -/
theorem step_waits {s : State} (h : Waits s) (hq : s.q ≠ .idle) : step s = blockStep s := by
  obtain ⟨hb, hcall⟩ := h
  unfold step State.pick
  rw [hb]
  simp only [State.pickMove]
  cases hm : s.moves with
  | nil => rfl
  | cons m ms =>
    obtain ⟨w, rfl⟩ := hcall m ms hm
    simp only [if_neg hq]

/-- An idle block takes up the host's next word (R65). -/
theorem step_call {s : State} {w : HostWord} {ws : List HostWord} (h : Calls s (w :: ws)) (hq : s.q = .idle) :
    step s = exec (decodeHop w) (s.withInputs (ws.map .call) []) := by
  obtain ⟨hm, hb⟩ := h
  unfold step State.pick
  rw [hb]
  simp only [State.pickMove, hm, List.map_cons, if_pos hq, runCode, decode]
  rw [State.withInputs, hb]

/-! ### A transaction of the block -/

theorem blockStep_faulted {s : State} (h : s.q = .faulted) : blockStep s = .next s := by
  simp only [blockStep, owned_none_of_faulted h, initLineStep, h]

theorem runFor_faulted {s : State} (hq : s.q = .faulted) (hw : Waits s) (n : Nat) : runFor n s = .next s := by
  induction n with
  | zero => rfl
  | succ n ih => rw [runFor_succ ((step_waits hw (by simp [hq])).trans (blockStep_faulted hq)), ih]

theorem blockStep_row {s : State} {t : Txn} (ho : s.owned = some t) (hp : s.ph ≠ .deselected) :
    blockStep s = phaseRow t s := by simp only [blockStep, ho, if_neg hp]

theorem q_ne_idle_of_owned {s : State} {t : Txn} (h : s.owned = some t) : s.q ≠ .idle := fun hq => by
  simp [owned_none_of_idle hq] at h

/-- The block runs the rows of its transaction one by one, and makes the completion move with the last, silent one;
after a BusFault it rests. -/
theorem runFor_rows {t : Txn} {u : State} : ∀ {n : Nat} {s : State}, s.owned = some t → Waits s →
    (∀ i < n, t.kind.after^[i] s.ph ≠ .deselected) → t.kind.after^[n] s.ph = .deselected →
    runRows t (n + 1) s = .next u → runFor (n + 1) s = if u.q = .faulted then .next u else complete u
  | 0, s, ho, hw, _, hp, h => by
    rw [runRows_next (q_ne_faulted_of_owned ho) (phaseRow_deselected hp)] at h
    cases h
    rw [runFor_one, step_waits hw (q_ne_idle_of_owned ho), blockStep_deselected ho hp, State.toPh_q,
      if_neg (q_ne_faulted_of_owned ho)]
  | n + 1, s, ho, hw, hne, hp, h => by
    have hrow := (step_waits hw (q_ne_idle_of_owned ho)).trans (blockStep_row ho (hne 0 (by omega)))
    rw [runRows, if_neg (q_ne_faulted_of_owned ho)] at h
    cases hx : phaseRow t s with
    | fault | refused => simp [hx] at h
    | next x =>
      simp only [hx] at h
      rw [runFor_succ (hrow.trans hx)]
      have hmove := (phaseRow_cases hx).2
      have hwx : Waits x := hw.congr hmove.keeps.moves hmove.keeps.bench
      rcases hmove.phase with ⟨hph, hq⟩ | ⟨-, hq⟩
      · refine runFor_rows ((hmove.owned hq).trans ho) hwx (fun i hi => ?_) ?_ h
        · rw [hph, ← Function.iterate_succ_apply]; exact hne (i + 1) (by omega)
        · rw [hph, ← Function.iterate_succ_apply]; exact hp
      · rw [runRows, if_pos hq] at h
        cases h
        rw [if_pos hq, runFor_faulted hq hwx]

/-- `DESELECTED` is the phase before the last row of the table, and no earlier one (R75, R86). -/
theorem TxnKind.deselected_last (k : TxnKind) :
    k.after^[k.steps - 1] .idle = .deselected ∧ ∀ i < k.steps - 1, k.after^[i] .idle ≠ .deselected := by
  cases k <;> decide

/-- The block's run of a transaction is the window of its frame and the completion move, or the fault (log 1). -/
theorem runFor_window {t : Txn} {s u : State} (ho : s.owned = some t) (hw : Waits s) (h : window t s = .next u) :
    runFor t.kind.steps s = if u.q = .faulted then .next u else complete u := by
  obtain ⟨hp, -, hrun⟩ := window_cases h
  obtain ⟨hlast, hne⟩ := t.kind.deselected_last
  have hsteps : t.kind.steps = t.kind.steps - 1 + 1 := by rw [t.steps_eq]; omega
  rw [hsteps] at hrun ⊢
  exact runFor_rows ho hw (by rwa [hp]) (by rwa [hp]) hrun

end Sys2Proof.Machine
end

section
/-! Writes and reads of the block on the reference device (R45 to R49): the poll, one byte written, one byte read. -/

namespace Sys2Proof.Machine

open Sys2Proof

/-! ### Between the windows of an operation -/

/-- Between windows, lines ready and no fault raised or scheduled, at the reference device; the host waits. -/
structure OnReference (s : State) : Prop where
  listening : Listening s
  mode : s.dev.mode = .reference
  waits : Waits s

/-- Operands, operation and byte index are the same, and so are the parameters and what the host holds back. -/
structure SameOp (s u : State) : Prop where
  par : u.par = s.par
  A : u.A = s.A
  V : u.V = s.V
  op : u.op = s.op
  bi : u.bi = s.bi
  moves : u.moves = s.moves
  bench : u.bench = s.bench

theorem SameOp.trans {s u w : State} (h1 : SameOp s u) (h2 : SameOp u w) : SameOp s w :=
  ⟨h2.par.trans h1.par, h2.A.trans h1.A, h2.V.trans h1.V, h2.op.trans h1.op, h2.bi.trans h1.bi,
    h2.moves.trans h1.moves, h2.bench.trans h1.bench⟩

/-- The poll counter and the sequencer state are no part of the operation. -/
theorem SameOp.withCounter {s u : State} (h : SameOp s u) (n : Nat) (q : SeqState) :
    SameOp s { u with np := n, q := q } := ⟨h.par, h.A, h.V, h.op, h.bi, h.moves, h.bench⟩

theorem SameOp.byteAddr {s u : State} (h : SameOp s u) : u.byteAddr = s.byteAddr := by
  simp only [State.byteAddr, h.A, h.bi]

theorem SameOp.writeData {s u : State} (h : SameOp s u) : u.writeData = s.writeData := by
  simp only [State.writeData, h.op, h.bi, h.V]

section AfterWindow

variable {s u : State} {bs rx : List Byte} {d : Byte}

theorem AfterWindow.sameOp (h : AfterWindow s bs rx d u) : SameOp s u := by
  obtain ⟨hpar, hA, hV, -, -, -, -, hop, hbi, -, -, -, -, -, hmoves, hbench⟩ := h.same
  exact ⟨hpar, hA, hV, hop, hbi, hmoves, hbench⟩

/-- A window that begins with the lines ready ends with them ready. -/
theorem AfterWindow.linesReady (h : AfterWindow s bs rx d u) (hl : s.linesReady = true) : u.linesReady = true := by
  obtain ⟨-, -, -, -, -, -, -, -, -, -, -, hoe, hhold, hwp, -⟩ := h.same
  simp only [State.linesReady, Line.ready, Bool.and_eq_true, decide_eq_true_eq] at hl ⊢
  simp [hoe, hhold, hwp, h.driven, h.lvl, hl]

theorem AfterWindow.q (h : AfterWindow s bs rx d u) : u.q = s.q := by
  obtain ⟨-, -, -, -, -, -, hq, -⟩ := h.same
  exact hq

theorem AfterWindow.np (h : AfterWindow s bs rx d u) : u.np = s.np := by
  obtain ⟨-, -, -, -, -, hnp, -⟩ := h.same
  exact hnp

theorem AfterWindow.HI (h : AfterWindow s bs rx d u) : u.HI = s.HI := by
  obtain ⟨-, -, -, hHI, -⟩ := h.same
  exact hHI

theorem AfterWindow.ph (h : AfterWindow s bs rx d u) : u.ph = s.ph := by
  obtain ⟨-, -, -, -, -, -, -, -, -, hph, -⟩ := h.same
  exact hph

theorem AfterWindow.onReference (h : AfterWindow s bs rx d u) (hs : OnReference s) (hm : u.dev.mode = s.dev.mode) :
    OnReference u where
  listening :=
    { ph := h.ph.trans hs.listening.ph
      q := h.q ▸ hs.listening.q
      quiet := h.quiet hs.listening.quiet
      lines := h.linesReady hs.listening.lines
      mode := hm ▸ hs.listening.mode }
  mode := hm.trans hs.mode
  waits := hs.waits.congr h.sameOp.moves h.sameOp.bench

end AfterWindow

/-- A completion move leaves the world and the lines as they are. -/
theorem OnReference.complete_kept {s u : State} (h : OnReference s) (hc : CompleteMove s u) : OnReference u := by
  have hq := hc.q_ne_faulted
  obtain ⟨-, -, -, -, -, hph, hcs, hhold, hwp, hdev, henv, hmoves, hbench, -⟩ := hc.keeps
  obtain ⟨⟨hp, -, hquiet, hlines, hmode⟩, href, hwaits⟩ := h
  exact ⟨⟨hph.trans hp, hq, by rwa [Quiet, henv], by rwa [State.linesReady, hcs, hhold, hwp], by rwa [hdev]⟩,
    by rwa [hdev], hwaits.congr hmoves hbench⟩

/-- On the reference device the block's run of a transaction is its window and the completion move. -/
theorem OnReference.run {s u : State} {t : Txn} {bs rx : List Byte} {d : Byte} (h : OnReference s)
    (ho : s.owned = some t) (hw : window t s = .next u) (ha : AfterWindow s bs rx d u) :
    runFor t.kind.steps s = complete u := by
  rw [runFor_window ho h.waits hw, if_neg (by rw [ha.q]; exact h.listening.q)]

/-! ### The poll (R124) -/

theorem pollLimitReached_false {limit : Option Nat} {n : Nat} (h : ∀ l, limit = some l → n < l) :
    pollLimitReached limit n = false := by
  cases limit with
  | none => rfl
  | some l => simpa [pollLimitReached] using h l rfl

theorem completePoll_again {s : State} (hw : wip s.RX = true)
    (hl : pollLimitReached s.par.pollLimit (s.np + 1) = false) :
    completePoll s = { s with np := s.np + 1 } := by simp [completePoll, hw, hl]

theorem completePoll_lowByte {s : State} (hw : wip s.RX = false) (ho : s.op = .writeWord) (hb : s.bi = 0) :
    completePoll s = { s with np := s.np + 1, bi := 1, q := .wbWren } := by simp [completePoll, hw, ho, hb]

theorem completePoll_ok {s : State} (hw : wip s.RX = false) (ho : ¬(s.op = .writeWord ∧ s.bi = 0)) :
    completePoll s = finish .ok { s with np := s.np + 1 } := by
  rw [completePoll, if_pos hw, if_neg ho]

theorem complete_poll {s : State} (hq : s.q = .wbPoll) : complete s = .next (completePoll s) := by
  simp only [complete, hq]

/-- `u` is `s` after `n` status reads that found a write in progress and one that did not, before the completion
move. -/
structure Polled (s : State) (n : Nat) (u : State) : Prop where
  onReference : OnReference u
  sameOp : SameOp s u
  q : u.q = .wbPoll
  wip : wip u.RX = false
  np : u.np = s.np + n
  mem : u.dev.mem = s.dev.mem
  wel : u.dev.wel = false
  busyLeft : u.dev.busyLeft = 0
  choices : u.choices = s.choices

/-- One status read of the poll. -/
theorem OnReference.status_read {s : State} (h : OnReference s) (hq : s.q = .wbPoll) :
    ∃ u, runFor 5 s = .next (completePoll u) ∧ OnReference u ∧ SameOp s u ∧ u.q = .wbPoll ∧ u.RX = s.dev.status ∧
      u.np = s.np ∧ u.choices = s.choices ∧
      u.dev = { s.dev with
        busyLeft := s.dev.busyLeft - 1, wel := if s.dev.busyLeft = 1 then false else s.dev.wel, frame := [] } := by
  obtain ⟨u, hw, ⟨rx, ha⟩, hdev, hch⟩ := window_rdsr_reference h.listening h.mode s.par.dummy
  have hrun := h.run (by simp only [State.owned, hq]) hw ha
  exact ⟨u, hrun.trans (complete_poll (ha.q.trans hq)), ha.onReference h (by rw [hdev]), ha.sameOp, ha.q.trans hq,
    ha.RX, ha.np, hch, hdev⟩

/-- The poll of a write of `n` status reads takes `n + 1` of them (R48, R49 (c)). -/
theorem OnReference.poll {n : Nat} : ∀ {s : State}, OnReference s → s.q = .wbPoll → s.dev.busyLeft = n →
    (n = 0 → s.dev.wel = false) → (∀ l, s.par.pollLimit = some l → s.np + n < l) →
    ∃ u, runFor (5 * (n + 1)) s = .next (completePoll u) ∧ Polled s n u := by
  induction n with
  | zero =>
    intro s h hq hb hwel _
    obtain ⟨u, hrun, hon, hop, huq, hrx, hnp, hch, hdev⟩ := h.status_read hq
    exact ⟨u, hrun, hon, hop, huq, by simp [hrx, Device.status, hb], hnp, by rw [hdev], by simp [hdev, hb, hwel],
      by simp [hdev, hb], hch⟩
  | succ n ih =>
    intro s h hq hb _ hlim
    obtain ⟨u, hrun, hon, hop, huq, hrx, hnp, hch, hdev⟩ := h.status_read hq
    have hwip : wip u.RX = true := by simp [hrx, Device.status, hb]
    have hlimit : pollLimitReached u.par.pollLimit (u.np + 1) = false :=
      pollLimitReached_false fun l hl => by have := hlim l (hop.par ▸ hl); omega
    rw [completePoll_again hwip hlimit] at hrun
    obtain ⟨w, hrun', hp⟩ := ih (hon.complete_kept (.pollAgain huq hwip hlimit)) huq (by simp [hdev, hb])
      (fun h0 => by simp [hdev, hb, h0]) (fun l hl => by have := hlim l (hop.par ▸ hl); simp only [hnp]; omega)
    obtain ⟨hon', hop', hwq, hwwip, hwnp, hmem, hwel, hbusy, hch'⟩ := hp
    refine ⟨w, ?_, hon', (hop.withCounter _ _).trans hop', hwq, hwwip, ?_,
      hmem.trans (by rw [hdev]), hwel, hbusy, hch'.trans hch⟩
    · rw [show 5 * (n + 1 + 1) = 5 + 5 * (n + 1) by omega, runFor_add hrun, hrun']
    · rw [hwnp]; simp only [hnp]; omega

/-! ### One byte written (R122) -/

/-- `u` is `s` after the WREN, WRITE and RDSR windows of one byte, the last found no write in progress; the completion
move of the poll is still to come. -/
structure ByteWritten (s : State) (n : Nat) (u : State) : Prop where
  onReference : OnReference u
  sameOp : SameOp s u
  q : u.q = .wbPoll
  wip : wip u.RX = false
  np : u.np = n
  mem : u.dev.mem = s.dev.mem.write (s.location s.byteAddr) s.writeData
  wel : u.dev.wel = false
  busyLeft : u.dev.busyLeft = 0
  nWr : u.env.nWr = s.env.nWr.tail

/-- The WREN window and its completion move: the latch is set and the WRITE window is next (R123). -/
theorem OnReference.wren {s : State} (h : OnReference s) (hq : s.q = .wbWren) (hb : s.dev.busyLeft = 0) :
    ∃ u, runFor 4 s = .next u ∧ OnReference u ∧ SameOp s u ∧ u.q = .wbWrite ∧
      u.dev = { s.dev with wel := true, frame := [] } ∧ u.choices = s.choices := by
  obtain ⟨u, hw, ⟨rx, ha⟩, hdev, hch⟩ := window_wren_reference h.listening h.mode
  have huq := ha.q.trans hq
  rw [if_pos hb] at hdev
  have hrun : runFor 4 s = complete u := h.run (t := .wren) (by simp only [State.owned, hq]) hw ha
  exact ⟨u.toQ .wbWrite, hrun.trans (by simp only [complete, huq, completeWren]),
    (ha.onReference h (by rw [hdev])).complete_kept (.wren huq),
    ha.sameOp.withCounter _ _, rfl, hdev, hch⟩

/-- The WRITE window and its completion move: the byte is stored and the poll is next. -/
theorem OnReference.write {s : State} (h : OnReference s) (hq : s.q = .wbWrite) (hb : s.dev.busyLeft = 0)
    (hwel : s.dev.wel = true) :
    ∃ u n, runFor 7 s = .next u ∧ (∀ m ns, s.env.nWr = m :: ns → n = m) ∧ OnReference u ∧ SameOp s u ∧ u.q = .wbPoll ∧
      u.np = 0 ∧
      u.dev = { s.dev with
        mem := s.dev.mem.write (s.location s.byteAddr) s.writeData, busyLeft := n, wel := if n = 0 then false else true,
        frame := [] } ∧
      u.env.nWr = s.env.nWr.tail := by
  obtain ⟨u, n, hw, ⟨rx, ha⟩, hn, hdev, hch⟩ := window_write_reference h.listening h.mode s.byteAddr s.writeData
  have hable := s.writeAble_iff.2 ⟨hb, hwel⟩
  have huq := ha.q.trans hq
  rw [if_pos hable, hwel] at hdev
  have hrun : runFor 7 s = complete u :=
    h.run (t := .write s.byteAddr s.writeData) (by simp only [State.owned, hq]) hw ha
  exact ⟨{ u with np := 0, q := .wbPoll }, n, hrun.trans (by simp only [complete, huq, completeWrite]), hn,
    (ha.onReference h (by rw [hdev])).complete_kept (.write huq),
    ha.sameOp.withCounter _ _, rfl, rfl, hdev, congrArg (·.1) (hch hable)⟩

theorem OnReference.byteWritten {s : State} (h : OnReference s) (hq : s.q = .wbWren) (hb : s.dev.busyLeft = 0) :
    ∃ n, (∀ m ns, s.env.nWr = m :: ns → n = m) ∧ ((∀ l, s.par.pollLimit = some l → n < l) →
      ∃ u, runFor (11 + 5 * (n + 1)) s = .next (completePoll u) ∧ ByteWritten s n u) := by
  obtain ⟨s1, hrun1, hon1, hop1, hq1, hdev1, hch1⟩ := h.wren hq hb
  obtain ⟨s2, n, hrun2, hn, hon2, hop2, hq2, hnp2, hdev2, hnwr2⟩ :=
    hon1.write hq1 (by rw [hdev1]; exact hb) (by rw [hdev1])
  have hnwr1 : s1.env.nWr = s.env.nWr := congrArg (·.1) hch1
  have hloc : s1.location s1.byteAddr = s.location s.byteAddr := by
    rw [hop1.byteAddr, State.location_congr hop1.par (by rw [hdev1])]
  refine ⟨n, fun m ns hm => hn m ns (hnwr1.trans hm), fun hlim => ?_⟩
  obtain ⟨u, hrun, hp⟩ := hon2.poll (n := n) hq2 (by rw [hdev2]) (fun h0 => by simp [hdev2, h0])
    fun l hl => by rw [hnp2, Nat.zero_add]; exact hlim l (hop1.par ▸ hop2.par ▸ hl)
  refine ⟨u, ?_, hp.onReference, (hop1.trans hop2).trans hp.sameOp, hp.q, hp.wip, ?_, ?_, hp.wel, hp.busyLeft, ?_⟩
  · rw [show 11 + 5 * (n + 1) = 4 + (7 + 5 * (n + 1)) by omega, runFor_add hrun1, runFor_add hrun2, hrun]
  · rw [hp.np, hnp2, Nat.zero_add]
  · rw [hp.mem, hdev2, hloc, hop1.writeData, hdev1]
  · rw [show u.env.nWr = s2.env.nWr from congrArg (·.1) hp.choices, hnwr2, hnwr1]

end Sys2Proof.Machine
end

section
/-! Whole operations on the reference device: WRITE_BYTE with its polls (R126), and the round trip of a word (R49
(a)). -/

namespace Sys2Proof.Machine

open Sys2Proof

/-! ### The start of an operation -/

theorem OnReference.of_idle {s : State} {ws : List HostWord} (hi : Idle s) (hquiet : Quiet s) (hc : Calls s ws)
    (hlines : s.linesReady = true) (hm : s.dev.mode = .reference) : OnReference s :=
  ⟨⟨hi.2, by rw [hi.1]; nofun, hquiet, hlines, by rw [hm]; nofun⟩, hm, hc.waits⟩

/-- The host's next word taken up and started (R62, R65). -/
def State.startedCall (s : State) (o : HostOp) (w : HostWord) (ws : List HostWord) : State :=
  (s.withInputs (ws.map .call) []).started o (hopAddr w) (hopData w)

/-- The operation code of a host operation (R61). -/
def HostOp.code : HostOp → BitVec 3
  | .init => 0
  | .readWord => 1
  | .writeWord => 2
  | .readStatus => 3
  | .writeStatus => 4
  | .writeByte => 5
  | .readByte => 6

theorem exec_decodeHop {o : HostOp} {w : HostWord} (h : hopOp w = o.code) (s : State) :
    exec (decodeHop w) s = start o (hopAddr w) (hopData w) s := by
  rw [decodeHop, h]
  cases o <;> rfl

theorem step_startedCall {s : State} {o : HostOp} {w : HostWord} {ws : List HostWord} (hc : Calls s (w :: ws))
    (hq : s.q = .idle) (hw : hopOp w = o.code) : step s = .next (s.startedCall o w ws) := by
  rw [step_call hc hq, exec_decodeHop hw, start, if_pos (by simpa using hq)]
  rfl

theorem OnReference.startedCall {s : State} (h : OnReference s) (o : HostOp) (w : HostWord) (ws : List HostWord) :
    OnReference (s.startedCall o w ws) := by
  obtain ⟨⟨hp, -, hquiet, hlines, hmode⟩, href, -⟩ := h
  exact ⟨⟨hp, o.firstState_ne_faulted, hquiet, hlines, hmode⟩, href, Calls.waits (ws := ws) ⟨rfl, rfl⟩⟩

/-! ### The bytes of an operation -/

theorem State.byteAddr_first {s : State} (h : s.bi = 0) : s.byteAddr = s.A := by simp [State.byteAddr, h]

theorem State.byteAddr_second {s : State} (h : s.bi = 1) : s.byteAddr = s.A + 1 := by simp [State.byteAddr, h]

theorem State.writeData_high {s : State} (ho : s.op = .writeWord) (hb : s.bi = 0) : s.writeData = hiByte s.V :=
  if_pos ⟨ho, hb⟩

theorem State.writeData_low {s : State} (h : ¬(s.op = .writeWord ∧ s.bi = 0)) : s.writeData = loByte s.V := if_neg h

/-- The last byte of a write: its windows, the poll, and `Done`. -/
theorem OnReference.lastByte {s : State} (h : OnReference s) (hq : s.q = .wbWren) (hb : s.dev.busyLeft = 0)
    (ho : ¬(s.op = .writeWord ∧ s.bi = 0)) :
    ∃ n, (∀ m ns, s.env.nWr = m :: ns → n = m) ∧ ((∀ l, s.par.pollLimit = some l → n < l) →
      ∃ u, runFor (11 + 5 * (n + 1)) s = .next u ∧ OnReference u ∧ SameOp s u ∧ u.q = .idle ∧ u.err = 0 ∧
        u.np = n + 1 ∧ u.dev.mem = s.dev.mem.write (s.location s.byteAddr) (loByte s.V) ∧ u.dev.wel = false ∧
        u.dev.busyLeft = 0) := by
  obtain ⟨n, hn, hwritten⟩ := h.byteWritten hq hb
  refine ⟨n, hn, fun hlim => ?_⟩
  obtain ⟨u, hrun, hu⟩ := hwritten hlim
  have huo : ¬(u.op = .writeWord ∧ u.bi = 0) := by rwa [hu.sameOp.op, hu.sameOp.bi]
  have hmem := hu.mem
  rw [State.writeData_low ho] at hmem
  have hop := hu.sameOp
  exact ⟨_, hrun.trans (congrArg _ (completePoll_ok hu.wip huo)),
    hu.onReference.complete_kept (.pollOk hu.q hu.wip huo),
    ⟨hop.par, hop.A, hop.V, hop.op, hop.bi, hop.moves, hop.bench⟩, rfl, rfl, congrArg (· + 1) hu.np, hmem, hu.wel,
    hu.busyLeft⟩

/-- The first byte of a word: its windows, the poll, and on to the second (R124). -/
theorem OnReference.firstByte {s : State} (h : OnReference s) (hq : s.q = .wbWren) (hb : s.dev.busyLeft = 0)
    (ho : s.op = .writeWord) (hbi : s.bi = 0) :
    ∃ n, (∀ m ns, s.env.nWr = m :: ns → n = m) ∧ ((∀ l, s.par.pollLimit = some l → n < l) →
      ∃ u, runFor (11 + 5 * (n + 1)) s = .next u ∧ OnReference u ∧ SameOp { s with bi := 1 } u ∧ u.q = .wbWren ∧
        u.dev.mem = s.dev.mem.write (s.location s.A) (hiByte s.V) ∧ u.dev.busyLeft = 0 ∧
        u.env.nWr = s.env.nWr.tail) := by
  obtain ⟨n, hn, hwritten⟩ := h.byteWritten hq hb
  refine ⟨n, hn, fun hlim => ?_⟩
  obtain ⟨u, hrun, hu⟩ := hwritten hlim
  obtain ⟨huo, hub⟩ : u.op = .writeWord ∧ u.bi = 0 := ⟨hu.sameOp.op.trans ho, hu.sameOp.bi.trans hbi⟩
  have hmem := hu.mem
  rw [State.writeData_high ho hbi, State.byteAddr_first hbi] at hmem
  have hop := hu.sameOp
  exact ⟨_, hrun.trans (congrArg _ (completePoll_lowByte hu.wip huo hub)),
    hu.onReference.complete_kept (.pollLowByte hu.q hu.wip huo hub),
    ⟨hop.par, hop.A, hop.V, hop.op, rfl, hop.moves, hop.bench⟩, rfl, hmem, hu.busyLeft, hu.nWr⟩

/-! ### WRITE_BYTE -/

/-- Settles O59: the start of the operation and its one byte. -/
theorem referenceWritePollCount : Obligations.ReferenceWritePollCount := by
  intro s w ws n ns hi hquiet hc hw hlines hm hb hnwr hlim
  have h := OnReference.of_idle hi hquiet hc hlines hm
  obtain ⟨n', hn, hlast⟩ := (h.startedCall .writeByte w ws).lastByte rfl hb (by nofun)
  obtain rfl : n' = n := hn n ns hnwr
  obtain ⟨u, hrun, hon, hop, hq, herr, hnp, hmem, hwel, hbusy⟩ := hlast hlim
  rw [State.byteAddr_first rfl] at hmem
  replace hmem : u.dev.mem = s.dev.mem.write (s.location (hopAddr w)) (loByte (hopData w)) := hmem
  refine ⟨u, ?_, ⟨hq, hon.listening.ph⟩, herr, hnp, hon.listening.lines, ⟨hop.moves, hop.bench⟩, hon.mode, hwel, hbusy,
    ?_, fun k hk => ?_⟩
  · rw [show 12 + 5 * (n' + 1) = 11 + 5 * (n' + 1) + 1 by omega,
      runFor_succ (step_startedCall (o := .writeByte) hc hi.1 hw), hrun]
  · rw [hmem, Memory.read_write_same]
  · rw [hmem, Memory.read_write_other _ _ hk]

/-! ### WRITE_WORD -/

/-- WRITE_WORD on an idle reference device whose polls stay below `POLL_LIMIT`: both bytes are stored, high byte
first. -/
theorem writeWord_reference {s : State} {w : HostWord} {ws : List HostWord} (h : OnReference s) (hq : s.q = .idle)
    (hc : Calls s (w :: ws)) (hw : hopOp w = 2) (hb : s.dev.busyLeft = 0)
    (hlim : s.par.pollLimit = none ∨
      ∃ n m ns, s.env.nWr = n :: m :: ns ∧ ∀ l, s.par.pollLimit = some l → n < l ∧ m < l) :
    ∃ k u, runFor k s = .next u ∧ OnReference u ∧ u.q = .idle ∧ Calls u ws ∧ u.par = s.par ∧ u.dev.busyLeft = 0 ∧
      u.dev.mem = (s.dev.mem.write (s.location (hopAddr w)) (hiByte (hopData w))).write
        (s.location (hopAddr w + 1)) (loByte (hopData w)) := by
  have hstart := step_startedCall (o := .writeWord) hc hq hw
  obtain ⟨n, hn, hfirst⟩ := (h.startedCall .writeWord w ws).firstByte rfl hb rfl rfl
  obtain ⟨u, hrun, hu, hop, huq, hmem, hbusy, hnwr⟩ := hfirst fun l hl => by
    rcases hlim with hnone | ⟨n', m', ns, hns, hlt⟩
    · cases hnone.symm.trans hl
    · rw [hn n' _ hns]; exact (hlt l hl).1
  obtain ⟨m, hm, hlast⟩ := hu.lastByte huq hbusy (by rw [hop.bi]; nofun)
  obtain ⟨y, hrun', hy, hop', hyq, -, -, hmem', -, hbusy'⟩ := hlast fun l hl => by
    replace hl : s.par.pollLimit = some l := hop.par ▸ hl
    rcases hlim with hnone | ⟨n', m', ns, hns, hlt⟩
    · cases hnone.symm.trans hl
    · rw [hm m' ns (hnwr.trans (congrArg List.tail hns))]; exact (hlt l hl).2
  rw [State.byteAddr_second hop.bi, State.location_congr (s := s) hop.par (hu.mode.trans h.mode.symm), hmem, hop.A,
    hop.V] at hmem'
  refine ⟨11 + 5 * (n + 1) + (11 + 5 * (m + 1)) + 1, y, ?_, hy, hyq, ⟨hop'.moves.trans hop.moves,
    hop'.bench.trans hop.bench⟩, hop'.par.trans hop.par, hbusy', hmem'⟩
  rw [runFor_succ hstart, runFor_add hrun, hrun']

/-! ### READ_WORD -/

/-- One READ window of the block at an idle reference device, with its completion move still to come. -/
theorem OnReference.byteRead {s : State} {b : Byte} (h : OnReference s) (hq : s.q = .rdRead) (hb : s.dev.busyLeft = 0)
    (hmem : s.dev.mem.read (s.location s.byteAddr) = some b) :
    ∃ u, runFor 7 s = complete u ∧ OnReference u ∧ SameOp s u ∧ u.q = .rdRead ∧ u.RX = b ∧ u.HI = s.HI ∧
      u.dev = { s.dev with frame := [] } := by
  obtain ⟨u, hw, ⟨rx, ha⟩, hdev, hidle, -⟩ := window_read_known h.listening s.byteAddr s.par.dummy
  have hrun := h.run (t := .read s.byteAddr s.par.dummy) (by simp only [State.owned, hq]) hw ha
  have hin := State.inArray_of_mode (by rw [h.mode]; nofun) s.byteAddr
  exact ⟨u, hrun, ha.onReference h (by rw [hdev]), ha.sameOp, ha.q.trans hq,
    (hidle ⟨hb, hin⟩).trans (content_of_read hmem), ha.HI, hdev⟩

theorem complete_highByte {s : State} (hq : s.q = .rdRead) (ho : s.op = .readWord) (hb : s.bi = 0) :
    complete s = .next { s with HI := s.RX, bi := 1 } := by simp only [complete, hq, completeRead, ho, if_pos hb]

theorem complete_word {s : State} (hq : s.q = .rdRead) (ho : s.op = .readWord) (hb : s.bi = 1) :
    complete s = .next (finishValue (joinBytes s.HI s.RX) s) := by
  simp only [complete, hq, completeRead, ho, if_neg (show s.bi ≠ 0 by rw [hb]; nofun)]

/-- READ_WORD on an idle reference device: the result is the two bytes, high byte first (R112). -/
theorem readWord_reference {s : State} {w : HostWord} {x y : Byte} (h : OnReference s) (hq : s.q = .idle)
    (hc : Calls s [w]) (hw : hopOp w = 1) (hb : s.dev.busyLeft = 0)
    (hx : s.dev.mem.read (s.location (hopAddr w)) = some x)
    (hy : s.dev.mem.read (s.location (hopAddr w + 1)) = some y) :
    ∃ k u, runFor k s = .next u ∧ Idle u ∧ u.moves = [] ∧ u.R = joinBytes x y ∧
      u.trace.getLast? = some (.done .readWord (.okValue (joinBytes x y))) := by
  have hstart := step_startedCall (o := .readWord) hc hq hw
  obtain ⟨u, hrun, hu, hop, huq, hrx, -, hdev⟩ := (h.startedCall .readWord w []).byteRead rfl hb
    (by rw [State.byteAddr_first rfl]; exact hx)
  rw [complete_highByte huq hop.op hop.bi] at hrun
  have hlow : u.dev.mem.read (u.location (u.A + 1)) = some y := by
    rw [State.location_congr (s := s) hop.par (hu.mode.trans h.mode.symm), hdev, hop.A]
    exact hy
  obtain ⟨z, hrun', hz, hop', hzq, hrx', hhi, -⟩ :=
    (hu.complete_kept (.highByte huq hop.op hop.bi)).byteRead (b := y) huq ((congrArg Device.busyLeft hdev).trans hb)
      (by rw [State.byteAddr_second rfl]; exact hlow)
  have hzo : z.op = .readWord := hop'.op.trans hop.op
  replace hhi : z.HI = x := hhi.trans hrx
  rw [complete_word hzq hzo hop'.bi, hrx', hhi] at hrun'
  refine ⟨7 + 7 + 1, finishValue (joinBytes x y) z, ?_, ⟨rfl, hz.listening.ph⟩, hop'.moves.trans hop.moves, rfl, ?_⟩
  · rw [runFor_succ hstart, runFor_add hrun, hrun']
  · simp [finishValue, hzo]

/-! ### The round trip -/

/-- With bit 15 masked off, the two bytes of a word lie at different locations, also where the address wraps
(R46, R127). -/
theorem masked_ne_masked_succ (a : Half) : (a &&& 0x7FFF).toNat ≠ ((a + 1) &&& 0x7FFF).toNat := by
  have hmask : ∀ b : Half, (b &&& 0x7FFF).toNat = b.toNat % 2 ^ 15 := fun b => Nat.and_two_pow_sub_one_eq_mod b.toNat 15
  have hlt := a.isLt
  rw [hmask, hmask, BitVec.toNat_add, show (1 : Half).toNat = 1 from rfl]
  omega

/-- Settles O60: what WRITE_WORD stores READ_WORD finds, the two locations being different. -/
theorem wordRoundTripOnReferenceDevice : Obligations.WordRoundTripOnReferenceDevice := by
  intro s a v x hi hquiet hc hlines hm hb hmask hlim
  have h := OnReference.of_idle hi hquiet hc hlines hm
  obtain ⟨k, u, hrun, hu, hq, hcu, hpar, hbusy, hmem⟩ :=
    writeWord_reference h hi.1 hc (hopOp_hopWord 2 a v) hb hlim
  have hloc : ∀ b, u.location b = s.location b := State.location_congr hpar (hu.mode.trans hm.symm)
  have hne : s.location a ≠ s.location (a + 1) := by
    rw [State.location_masked (by rw [hm]; nofun), State.location_masked (by rw [hm]; nofun), hmask]
    exact masked_ne_masked_succ a
  rw [hopAddr_hopWord, hopData_hopWord] at hmem
  obtain ⟨k', t, hrun', hidle, hmoves, hR, hlast⟩ :=
    readWord_reference (x := hiByte v) (y := loByte v) hu hq hcu (hopOp_hopWord 1 a x) hbusy
      (by rw [hopAddr_hopWord, hloc, hmem, Memory.read_write_other _ _ hne, Memory.read_write_same])
      (by rw [hopAddr_hopWord, hloc, hmem, Memory.read_write_same])
  rw [joinBytes_hiByte_loByte] at hR hlast
  exact ⟨k + k', t, (runFor_add hrun k').trans hrun', hidle, hmoves, hR, hlast⟩

end Sys2Proof.Machine
end

section
/-! The encoding (R50 to R54, R58, R60, R61, R63): frames and command words decode to what they encode, and a step that
takes one up runs what it decodes to. -/

namespace Sys2Proof.Machine

open Sys2Proof

/-! ### Wire frames -/

/-- A transaction's bytes are the encoding of its instruction (R51). -/
theorem Txn.encode_instr (t : Txn) : encode t.instr = .frame t.bytes := by
  obtain ⟨k, a, x⟩ := t
  cases k <;> rfl

/-- The frames are the byte strings of the transactions, and each decodes to its transaction's instruction (R52, R53). -/
theorem decodeFrame_eq_ok_iff {bs : List Byte} {i : Instr} :
    decodeFrame bs = .ok i ↔ ∃ t : Txn, t.bytes = bs ∧ t.instr = i := by
  refine ⟨fun h => ?_, fun ⟨t, hb, hi⟩ => hb ▸ hi ▸ t.decodeFrame_bytes⟩
  cases bs with
  | nil => cases h
  | cons o rest =>
    simp only [decodeFrame] at h
    split_ifs at h with h1 h2 h3 h4 h5 h6 <;> split at h <;> cases h
    · exact ⟨.wren, by rw [h1]; rfl, rfl⟩
    · exact ⟨.wrdi, by rw [h2]; rfl, rfl⟩
    · next x => exact ⟨.rdsr x, by rw [h3]; rfl, rfl⟩
    · next x => exact ⟨.wrsr x, by rw [h4]; rfl, rfl⟩
    · next ah al x => exact ⟨.read (joinBytes ah al) x, by simp [Txn.bytes, Txn.read, TxnKind.opcode, h5], rfl⟩
    · next ah al x => exact ⟨.write (joinBytes ah al) x, by simp [Txn.bytes, Txn.write, TxnKind.opcode, h6], rfl⟩

/-- The block owns no WRDI transaction (R58, R78, R81). -/
theorem owned_issuedByBlock {s : State} {t : Txn} (h : s.owned = some t) : t.instr.issuedByBlock = true := by
  unfold State.owned at h
  cases hq : s.q <;> simp only [hq, reduceCtorEq, Option.some.injEq] at h <;> subst h <;> rfl

/-! ### Command words -/

/-- The eight operation codes (R61, R63). -/
theorem hopCode_cases (o : BitVec 3) : o = 0 ∨ o = 1 ∨ o = 2 ∨ o = 3 ∨ o = 4 ∨ o = 5 ∨ o = 6 ∨ o = 7 := by
  revert o; decide

/-- A command word is the encoding of its operation, with both its fields (R60). -/
theorem encode_decodeHop (w : HostWord) : encode (decodeHop w) = .hop w := by
  conv_rhs => rw [← hopWord_fields w]
  rw [decodeHop]
  rcases hopCode_cases (hopOp w) with ho | ho | ho | ho | ho | ho | ho | ho <;> rw [ho] <;> rfl

theorem decodeHop_reserved {w : HostWord} (h : hopOp w = 7) : decodeHop w = .reservedOp7 (hopAddr w) (hopData w) := by
  rw [decodeHop, h]; rfl

/-! ### The round trips -/

/-- Settles O6: a frame is its transaction's, and a command word gives its three fields back. -/
theorem decodeEncodeRoundTrip : Obligations.DecodeEncodeRoundTrip := by
  intro i
  cases i with
  | wren => exact Txn.wren.decodeFrame_bytes
  | wrdi => exact Txn.wrdi.decodeFrame_bytes
  | rdsr x => exact (Txn.rdsr x).decodeFrame_bytes
  | wrsr x => exact (Txn.wrsr x).decodeFrame_bytes
  | read a x => exact (Txn.read a x).decodeFrame_bytes
  | write a x => exact (Txn.write a x).decodeFrame_bytes
  | init a v | readWord a v | writeWord a v | readStatus a v | writeStatus a v | writeByte a v | readByte a v
  | reservedOp7 a v => simp [encode, decode, decodeHop]

/-- Settles O7: a frame that decodes is a transaction's, and every command word is its operation's. -/
theorem encodeDecodeCanonical : Obligations.EncodeDecodeCanonical := by
  intro c i h
  cases c with
  | frame bs =>
    obtain ⟨t, rfl, rfl⟩ := decodeFrame_eq_ok_iff.1 h
    exact t.encode_instr
  | hop w =>
    cases h
    exact encode_decodeHop w

/-- Settles O8: the lengths are those of the six kinds of transaction, and what the block sends is a transaction's. -/
theorem opcodeDecidesFrameLength : Obligations.OpcodeDecidesFrameLength := by
  refine ⟨fun bs => ⟨fun ⟨i, h⟩ => ?_, fun ⟨o, rest, hbs, h⟩ => ?_⟩,
    fun s t h => ⟨t.instr, t.decodeFrame_bytes, owned_issuedByBlock h⟩⟩
  · obtain ⟨⟨k, a, x⟩, rfl, -⟩ := decodeFrame_eq_ok_iff.1 h
    cases k <;> exact ⟨_, _, rfl, by simp [TxnKind.opcode]⟩
  · subst hbs
    rcases h with ⟨ho, hl⟩ | ⟨ho, hl⟩ | ⟨ho, hl⟩
    · obtain rfl := List.length_eq_zero_iff.1 hl
      rcases ho with rfl | rfl <;> exact ⟨_, rfl⟩
    · obtain ⟨x, rfl⟩ := List.length_eq_one_iff.1 hl
      rcases ho with rfl | rfl <;> exact ⟨_, rfl⟩
    · obtain ⟨ah, al, x, rfl⟩ := List.length_eq_three.1 hl
      rcases ho with rfl | rfl <;> exact ⟨_, rfl⟩

/-- Settles O5: the vectors, decoded. -/
theorem specWordsDecode : Obligations.SpecWordsDecode := by
  unfold Obligations.SpecWordsDecode
  decide

/-! ### Codes taken up by a step -/

/-- An idle block takes up the word at the head of the moves (R65). -/
theorem step_call_head {s : State} {w : HostWord} {ms : List Move} (hb : s.bench = []) (hq : s.q = .idle)
    (hm : s.moves = .call w :: ms) : step s = exec (decodeHop w) { s with moves := ms } :=
  step_of_pick (c := .hop w) (by simp [State.pick, State.pickMove, hb, hq, hm])

/-- A word presented at once is taken up whatever the block does (R156). -/
theorem step_force_head {s : State} {w : HostWord} {ms : List Move} (hb : s.bench = [] ∨ s.q ≠ .idle)
    (hm : s.moves = .force w :: ms) : step s = exec (decodeHop w) { s with moves := ms } := by
  refine step_of_pick (c := .hop w) (u := s.withInputs ms s.bench) ?_
  rcases pick_cases s with ⟨f, fs, hb', hq, -⟩ | ⟨-, h⟩
  · exact (hb.elim (by simp [hb']) (· hq)).elim
  · simpa [hm] using h

/-- Settles O3: the two ways a word is taken up, and a word decodes to its operation whatever it is. -/
theorem hostWordStepRunsDecoded : Obligations.HostWordStepRunsDecoded := by
  intro s w ms i hd h
  cases hd
  rcases h with ⟨hb, hq, hm⟩ | ⟨hb, hm⟩
  · exact step_call_head hb hq hm
  · exact step_force_head hb hm

/-- Settles O4: an idle block takes up the bench frame, and running a code is running what it decodes to. -/
theorem benchFrameStepRunsDecoded : Obligations.BenchFrameStepRunsDecoded := by
  intro s f fs hb hq
  have hstep : step s = runCode (.frame f) { s with bench := fs } := step_of_pick (by simp [State.pick, hb, hq])
  exact ⟨fun i hd => by rw [hstep, runCode, hd], fun e hd => by rw [hstep, runCode, hd]⟩

/-- Settles O11: the reserved operation refuses by definition, and a word of code 7 decodes to it. -/
theorem reservedCodeRefused : Obligations.ReservedCodeRefused := by
  refine ⟨fun a v s => rfl, fun s w ms hw hb hq hm => ?_⟩
  rw [step_call_head hb hq hm, decodeHop_reserved hw]
  rfl

end Sys2Proof.Machine
end

section
/-! The operand latches (R11, R12, R62): `Start` loads them, no other step writes them, and the address bytes and opcodes
of the block come from what they and `q` hold (R54, R58, R78). -/

namespace Sys2Proof.Machine

open Sys2Proof

/-! ### `Start` -/

/-- A step of the block writes neither operand latch (R62). -/
theorem BlockMove.operands {s u : State} (h : BlockMove s u) : u.A = s.A ∧ u.V = s.V := by
  cases h with
  | row t _ _ _ hr => exact ⟨hr.keeps.A, hr.keeps.V⟩
  | complete t _ _ _ hc =>
    obtain ⟨-, hA, hV, -⟩ := hc.keeps
    exact ⟨hA, hV⟩
  | lineFault | cfg | drive | rest => simp

/-- Settles O9: the step of a host operation is `start`, and of the steps that are no reset only that one writes an
operand latch. -/
theorem startDispatchesEveryOperation : Obligations.StartDispatchesEveryOperation := by
  refine ⟨fun s a v hq => ?_, fun s i hh hw hq => exec_host_busy hh hw hq, fun s t h hn => ?_⟩
  · have hstart : ∀ o, start o a v s = .next (s.started o a v) := fun o => if_pos hq
    exact ⟨hstart .init, hstart .readWord, hstart .writeWord, hstart .readStatus, hstart .writeStatus,
      hstart .writeByte, hstart .readByte⟩
  · rcases (step_cases h).noReset_cases hn with ⟨o, a, v, ms, hq, rfl⟩ | ⟨_, _, _, -, -, hw⟩ | ⟨d, ms, rfl⟩ | ⟨ms, hb⟩
    · exact .inr ⟨o, hq, rfl, rfl⟩
    · obtain ⟨k, -⟩ := window_keeps hw
      exact .inl ⟨k.A, k.V⟩
    · exact .inl ⟨rfl, rfl⟩
    · exact .inl hb.operands

/-! ### The bytes a transaction of the block sends -/

/-- The address of a READ or WRITE of the block (R54, R78). -/
theorem owned_addr {s : State} {t : Txn} (ho : s.owned = some t) (hk : t.kind = .read ∨ t.kind = .write) :
    t.addr = s.byteAddr := by
  unfold State.owned at ho
  cases hq : s.q <;> simp only [hq, reduceCtorEq, Option.some.injEq] at ho <;> subst ho <;>
    simp [Txn.wrsr, Txn.wren, Txn.write, Txn.read, Txn.rdsr] at hk ⊢

/-- In a phase in which its transaction sends a byte, a step of the block that raises no BusFault transfers it
(R75). -/
theorem blockStep_sends {s u : State} {t : Txn} {b : Byte} {p : Phase} (ho : s.owned = some t)
    (hs : t.sends s.ph = some (b, p)) (hf : s.faultDue = false) (h : blockStep s = .next u) :
    ∃ r, u.trace = s.trace ++ [.xfer b r] := by
  have hp : s.ph ≠ .deselected := fun hp => by simp [hp, Txn.sends] at hs
  obtain ⟨r, d, e, hx, -⟩ := xfer_ok hf b (discard p)
  rw [blockStep_row ho hp, phaseRow_sends hs, hx] at h
  cases h
  exact ⟨r, rfl⟩

/-- Settles O27: the address is `A +16 bi`, and its two bytes are what the two rows after the opcode send. -/
theorem addressBytesAreAPlusBi : Obligations.AddressBytesAreAPlusBi := by
  refine ⟨fun s t ho hk => ⟨fun hb => ?_, fun hb => ?_⟩,
    fun s u t ho hk hf h => ⟨fun hp => blockStep_sends ho (p := .addrHiSent) ?_ hf h,
      fun hp => blockStep_sends ho (p := .addrSent) ?_ hf h⟩⟩
  · rw [owned_addr ho hk, State.byteAddr_first hb]
  · rw [owned_addr ho hk, State.byteAddr_second hb]
    exact BitVec.toNat_add s.A 1
  all_goals rcases hk with hk | hk <;> simp [Txn.sends, hp, hk]

/-- In `SELECTED` a row that transfers a byte transfers the opcode (R75). -/
theorem RowMove.opcode {t : Txn} {s u : State} {b r : Byte} (h : RowMove t s u) (hp : s.ph = .selected)
    (ht : u.trace = s.trace ++ [.xfer b r]) : b = t.kind.opcode := by
  cases h with
  | send b' r' p d e hs =>
    simp only [hp, Txn.sends, Option.some.injEq, Prod.mk.injEq] at hs
    simp at ht
    exact ht.1.symm.trans hs.1.symm
  | receive _ _ _ hr => simp [Txn.receives, hp] at hr
  | fault | select | deselect | close => simp at ht

/-- The opcodes of the five frames the block may issue (R53, R58). -/
theorem issued_opcode {t : Txn} (h : t.instr.issuedByBlock = true) :
    (t.kind.opcode = 0x01 ∨ t.kind.opcode = 0x02 ∨ t.kind.opcode = 0x03 ∨ t.kind.opcode = 0x05 ∨
      t.kind.opcode = 0x06) ∧ t.kind.opcode ≠ 0x04 := by
  obtain ⟨k, a, x⟩ := t
  cases k with
  | wrdi => cases h
  | wren | rdsr | wrsr | read | write => simp [TxnKind.opcode]

/-- A step of the block that transfers a byte is a row of the transaction it owns. -/
theorem BlockMove.transfer {s u : State} {b r : Byte} (h : BlockMove s u) (ht : u.trace = s.trace ++ [.xfer b r]) :
    ∃ t, s.owned = some t ∧ RowMove t s u := by
  cases h with
  | row t _ ho _ hr => exact ⟨t, ho, hr⟩
  | complete t _ _ _ hc =>
    obtain ⟨-, -, -, -, -, -, -, -, -, -, -, -, -, htr | ⟨res, htr⟩⟩ := hc.keeps <;> simp [htr] at ht
  | lineFault | cfg | drive | rest => simp at ht

/-- With no bench frame waiting, only the block transfers. -/
theorem StepMove.transfer {s u : State} {b r : Byte} (h : StepMove s u) (hb : s.bench = [])
    (ht : u.trace = s.trace ++ [.xfer b r]) :
    ∃ t ms, s.owned = some t ∧ RowMove t (s.withInputs ms s.bench) u := by
  cases h with
  | window t f fs _ _ hb' => simp [hb] at hb'
  | block ms _ _ hbm =>
    obtain ⟨t, ho, hr⟩ := hbm.transfer ht
    exact ⟨t, ms, ho, hr⟩
  | device ms =>
    obtain ⟨d, hd, -⟩ := deviceComplete_changes (s.withInputs ms s.bench)
    simp [hd] at ht
  | started | reset => simp at ht

/-- Settles O36: a transfer of the hardware is a row of an owned transaction, which is no WRDI. -/
theorem opcodesTheBlockSends : Obligations.OpcodesTheBlockSends := by
  intro s t b r _ hb hp h ht
  obtain ⟨x, ms, ho, hr⟩ := (step_cases h).transfer hb ht
  rw [hr.opcode hp ht]
  exact issued_opcode (owned_issuedByBlock ho)

end Sys2Proof.Machine
end

section
/-! The line invariant (R21, R77 (a), (d)): chip-select is LOW exactly inside a window, hold and write-protect stay HIGH;
every kind of step but a reset keeps it. -/

namespace Sys2Proof.Machine

open Sys2Proof

/-! ### What the invariant rests on -/

theorem LineInv.of_faulted {s : State} (h : s.q = .faulted) : LineInv s := fun hq => absurd h hq

/-- The same lines, in a phase that is inside a window if it was. -/
theorem LineInv.congr {s u : State} (h : LineInv s) (hq : s.q ≠ .faulted) (hc : u.cs = s.cs) (hh : u.hold = s.hold)
    (hw : u.wp = s.wp) (hp : u.ph.inWindow = s.ph.inWindow) : LineInv u := by
  intro _
  rw [hc, hh, hw, hp]
  exact h hq

/-- Chip-select driven to the level that the new phase asks for. -/
theorem LineInv.cs_driven {s u : State} {lvl : Level} (h : LineInv s) (hq : s.q ≠ .faulted)
    (hc : u.cs = s.cs.drive lvl) (hh : u.hold = s.hold) (hw : u.wp = s.wp)
    (hp : lvl = .low ↔ u.ph.inWindow = true) : LineInv u := by
  intro _
  obtain ⟨hoe, -, hhold, hwp, -⟩ := h hq
  rw [hc, hh, hw]
  exact ⟨hoe, rfl, hhold, hwp, hp⟩

/-- Neither `cfg_out` nor `set` HIGH changes a line that is an output driven HIGH (R70, R71). -/
theorem Line.enable_of_ready {l : Line} (h : l.ready = true) : l.enable = l := by
  obtain ⟨oe, lvl, driven⟩ := l
  simp only [Line.ready, Bool.and_eq_true, decide_eq_true_eq] at h
  simp [Line.enable, h]

theorem Line.drive_high_of_ready {l : Line} (h : l.ready = true) : l.drive .high = l := by
  obtain ⟨oe, lvl, driven⟩ := l
  simp only [Line.ready, Bool.and_eq_true, decide_eq_true_eq] at h
  simp [Line.drive, h]

theorem State.mapLine_of_ready {f : Line → Line} (hf : ∀ l : Line, l.ready = true → f l = l) {s : State}
    (h : s.linesReady = true) (l : LineId) : s.mapLine f l = s := by
  simp only [State.linesReady, Bool.and_eq_true] at h
  obtain ⟨⟨hcs, hhold⟩, hwp⟩ := h
  cases l <;> simp [State.mapLine, hf _ hcs, hf _ hhold, hf _ hwp]

/-- The line actions of INIT come between windows, where the invariant has the lines ready already. -/
theorem LineInv.lineAction_ready {s : State} {x : Bool × LineId × SeqState} (h : LineInv s) (hi : SequencerInv s)
    (ha : s.q.lineAction = some x) : s.q ≠ .faulted ∧ s.linesReady = true := by
  obtain ⟨d, l, q'⟩ := x
  obtain ⟨hq, -⟩ := SeqState.lineAction_ne_faulted ha
  exact ⟨hq, linesReadyBetweenWindows s h hq (.inl (hi.ph_idle hq (owned_none_of_lineAction ha)))⟩

/-- The phases in which a byte is sent or kept lie inside the window (R75). -/
theorem Txn.sends_from_inWindow {t : Txn} {p p' : Phase} {b : Byte} (h : t.sends p = some (b, p')) :
    p.inWindow = true := by
  cases p with
  | idle | deselected => cases h
  | selected | opcodeSent | addrHiSent | addrSent | dataDone => rfl

theorem Txn.receives_inWindow {t : Txn} {p : Phase} (h : t.receives p) : p.inWindow = true := by
  rcases h with ⟨-, rfl⟩ | ⟨-, rfl⟩ <;> rfl

/-! ### Every step but a reset keeps it -/

theorem LineInv.row_kept {t : Txn} {s u : State} (h : LineInv s) (hq : s.q ≠ .faulted) (hr : RowMove t s u) :
    LineInv u := by
  cases hr with
  | fault => exact .of_faulted rfl
  | select => exact h.cs_driven (lvl := .low) hq rfl rfl rfl (by simp [Phase.inWindow])
  | send b r p d e hp => exact h.congr hq rfl rfl rfl ((t.sends_inWindow hp).trans (Txn.sends_from_inWindow hp).symm)
  | receive r d e hp => exact h.congr hq rfl rfl rfl (Txn.receives_inWindow hp).symm
  | deselect => exact h.cs_driven (lvl := .high) hq rfl rfl rfl (by simp [Phase.inWindow])
  | close hp => exact h.congr hq rfl rfl rfl (by rw [hp]; rfl)

theorem LineInv.block_kept {s u : State} (h : LineInv s) (hi : SequencerInv s) (hb : BlockMove s u) : LineInv u := by
  cases hb with
  | row t _ ho _ hr => exact h.row_kept (q_ne_faulted_of_owned ho) hr
  | complete t _ ho hp hc =>
    obtain ⟨-, -, -, -, -, hph, hcs, hhold, hwp, -⟩ := hc.keeps
    exact h.congr (q_ne_faulted_of_owned ho) hcs hhold hwp (by rw [hph, hp]; rfl)
  | lineFault => exact .of_faulted rfl
  | cfg l q' ha =>
    obtain ⟨hq, hready⟩ := h.lineAction_ready hi ha
    rw [State.mapLine_of_ready (s := s.popFault) (fun _ => Line.enable_of_ready) hready]
    exact h.congr hq rfl rfl rfl rfl
  | drive l q' d e ha =>
    obtain ⟨hq, hready⟩ := h.lineAction_ready hi ha
    rw [State.mapLine_of_ready (fun _ => Line.drive_high_of_ready) hready]
    exact h.congr hq rfl rfl rfl rfl
  | rest => exact h

/-- Settles O43: a row of a window drives chip-select as the phase asks, and INIT's line actions find the lines as they
leave them. -/
theorem lineInvKept : Obligations.LineInvKept := by
  intro s u hi h hn hs
  rcases (step_cases hs).noReset_cases hn with ⟨o, a, v, ms, hq, rfl⟩ | ⟨t, f, fs, -, -, hw⟩ | ⟨d, ms, rfl⟩ | ⟨ms, hb⟩
  · exact h.congr (by simp [hq]) rfl rfl rfl rfl
  · obtain ⟨-, -, hrun⟩ := window_cases hw
    exact runRows_induct (P := LineInv) (fun _ _ hx hq _ hr => hx.row_kept hq hr) _ (s.withInputs s.moves fs) u h hrun
  · exact h
  · exact LineInv.block_kept (s := s.withInputs ms s.bench) h (hi.withInputs ms s.bench) hb

end Sys2Proof.Machine
end

section
/-! The trace invariant (R73, R77 (b), (c), (e)): the trace is a sequence of whole windows and of events between them, up
to where the block is; every kind of step but a reset keeps it. -/

namespace Sys2Proof.Machine

open Sys2Proof

/-! ### Where the reader of the trace stands -/

/-- Where a reader of the trace stands in the window of transaction `t`: after the transfers made when the phase is `p`. -/
def Txn.scanPhase (t : Txn) : Phase → WindowScan
  | .idle | .deselected => .outside
  | .selected => .inside 0
  | .opcodeSent => .inside 1
  | .addrHiSent => .inside 2
  | .addrSent => .inside 3
  | .dataDone => .inside t.bytes.length

/-- `State.scanPoint` of a block whose phase is that of transaction `t`, whether a sequencer state owns it or it is a bench
frame's. -/
def State.scanPointIn (s : State) (t : Txn) : WindowScan := if s.q = .faulted then .stopped else t.scanPhase s.ph

theorem State.scanPointIn_of_faulted {s : State} (h : s.q = .faulted) (t : Txn) : s.scanPointIn t = .stopped := if_pos h

theorem State.scanPointIn_of_ne {s : State} (h : s.q ≠ .faulted) (t : Txn) : s.scanPointIn t = t.scanPhase s.ph :=
  if_neg h

theorem State.scanPoint_of_faulted {s : State} (h : s.q = .faulted) : s.scanPoint = .stopped := if_pos h

theorem State.scanPoint_of_owned {s : State} {t : Txn} (h : s.owned = some t) : s.scanPoint = s.scanPointIn t := by
  unfold State.scanPoint State.scanPointIn
  cases s.ph <;> simp [Txn.scanPhase, h]

theorem State.scanPoint_outside {s : State} (hq : s.q ≠ .faulted) (hp : s.ph = .idle ∨ s.ph = .deselected) :
    s.scanPoint = .outside := by
  rw [State.scanPoint, if_neg hq]
  rcases hp with hp | hp <;> rw [hp]

/-- Between windows, and after a fault, it does not matter whose window is meant. -/
theorem State.scanPoint_of_idle {s : State} (h : s.q ≠ .faulted → s.ph = .idle) (t : Txn) :
    s.scanPoint = s.scanPointIn t := by
  by_cases hq : s.q = .faulted
  · rw [State.scanPoint_of_faulted hq, State.scanPointIn_of_faulted hq]
  · rw [State.scanPoint_outside hq (.inl (h hq)), State.scanPointIn_of_ne hq, h hq]
    rfl

/-! ### Reading one event more -/

theorem scanTrace_snoc {es : List Event} {w w' : WindowScan} (h : scanTrace w es = some w') (e : Event) :
    scanTrace w (es ++ [e]) = scanEvent w' e := by
  induction es generalizing w with
  | nil =>
    cases h
    cases he : scanEvent w' e <;> simp [scanTrace, he]
  | cons x es ih =>
    cases hx : scanEvent w x with
    | none => simp [scanTrace, hx] at h
    | some y =>
      simp only [scanTrace, hx, List.cons_append] at h ⊢
      exact ih h

/-- A BusFault stops the reader wherever it stands in a window (R151). -/
theorem Txn.scanEvent_busFault (t : Txn) (p : Phase) : scanEvent (t.scanPhase p) .busFault = some .stopped := by
  cases p <;> rfl

/-- A byte sent is one transfer more, and after the last one the reader has read as many as the frame has bytes (R52). -/
theorem Txn.scanEvent_sends {t : Txn} {p p' : Phase} {b : Byte} (h : t.sends p = some (b, p')) (r : Byte) :
    scanEvent (t.scanPhase p) (.xfer b r) = some (t.scanPhase p') := by
  obtain ⟨k, a, x⟩ := t
  cases p <;> cases k <;> simp only [Txn.sends, Option.some.injEq, Prod.mk.injEq, reduceCtorEq] at h <;>
    obtain ⟨-, rfl⟩ := h <;> rfl

theorem Txn.scanEvent_receives {t : Txn} {p : Phase} (h : t.receives p) (b r : Byte) :
    scanEvent (t.scanPhase p) (.xfer b r) = some (t.scanPhase .dataDone) := by
  obtain ⟨k, a, x⟩ := t
  rcases h with ⟨hk, rfl⟩ | ⟨hk, rfl⟩ <;> cases hk <;> rfl

/-- A window is closed after 1, 2 or 4 transfers (R77 (e)). -/
theorem Txn.scanEvent_closes {t : Txn} {p : Phase} (h : t.closes p) :
    scanEvent (t.scanPhase p) (.set .cs .high) = some .outside := by
  obtain ⟨k, a, x⟩ := t
  rcases h with ⟨-, rfl⟩ | ⟨hwren, hwrdi, rfl⟩
  · rfl
  · cases k with
    | wren => exact absurd rfl hwren
    | wrdi => exact absurd rfl hwrdi
    | rdsr | wrsr | read | write => rfl

/-- A line action of INIT is an event outside windows (R77 (c)). -/
theorem scanEvent_outside_set_high (l : LineId) : scanEvent .outside (.set l .high) = some .outside := by cases l <;> rfl

/-! ### Every step but a reset keeps it -/

/-- The trace invariant in the window of transaction `t`. -/
def TraceInvIn (t : Txn) (s : State) : Prop := scanTrace .outside s.trace = some (s.scanPointIn t)

theorem TraceInvIn.emit {t : Txn} {s u : State} {e : Event} (h : TraceInvIn t s) (hq : s.q ≠ .faulted)
    (ht : u.trace = s.trace ++ [e]) (hu : u.q = s.q) (he : scanEvent (t.scanPhase s.ph) e = some (t.scanPhase u.ph)) :
    TraceInvIn t u := by
  rw [TraceInvIn, State.scanPointIn_of_ne hq] at h
  rw [TraceInvIn, ht, scanTrace_snoc h, he, State.scanPointIn_of_ne (by rwa [hu])]

theorem TraceInvIn.row_kept {t : Txn} {s u : State} (h : TraceInvIn t s) (hq : s.q ≠ .faulted) (hr : RowMove t s u) :
    TraceInvIn t u := by
  cases hr with
  | fault =>
    rw [TraceInvIn, State.scanPointIn_of_ne hq] at h
    exact (scanTrace_snoc h _).trans (t.scanEvent_busFault s.ph)
  | select d e hp => exact h.emit hq rfl rfl (by rw [hp]; rfl)
  | send b r p d e hp => exact h.emit hq rfl rfl (Txn.scanEvent_sends hp r)
  | receive r d e hp => exact h.emit hq rfl rfl (Txn.scanEvent_receives hp t.data r)
  | deselect d e hp => exact h.emit hq rfl rfl (Txn.scanEvent_closes hp)
  | close hp =>
    rw [TraceInvIn, State.scanPointIn_of_ne hq, hp] at h
    exact h.trans (congrArg some (State.scanPointIn_of_ne (s := s.toPh .idle) hq t).symm)

theorem TraceInv.silent {s u : State} (h : TraceInv s) (ht : u.trace = s.trace) (hp : u.scanPoint = s.scanPoint) :
    TraceInv u := by
  rw [TraceInv, ht, hp]
  exact h

/-- An event between windows that leads to no other place. -/
theorem TraceInv.between {s u : State} {e : Event} (h : TraceInv s) (hs : s.scanPoint = .outside)
    (ht : u.trace = s.trace ++ [e]) (he : scanEvent .outside e = some u.scanPoint) : TraceInv u := by
  rw [TraceInv, hs] at h
  rw [TraceInv, ht, scanTrace_snoc h, he]

/-- A bench frame is one whole window, or one cut by a fault. -/
theorem TraceInv.window_kept {s u : State} {t : Txn} (h : TraceInv s) (hw : window t s = .next u) : TraceInv u := by
  obtain ⟨hp, -, hrun⟩ := window_cases hw
  have hu : TraceInvIn t u :=
    runRows_induct (P := TraceInvIn t) (fun _ _ hx hq _ hr => hx.row_kept hq hr) _ s u
      (by rw [TraceInvIn, ← State.scanPoint_of_idle (fun _ => hp) t]; exact h) hrun
  rwa [TraceInvIn, ← State.scanPoint_of_idle (window_phase hw) t] at hu

theorem TraceInv.row_kept {s u : State} {t : Txn} (h : TraceInv s) (ho : s.owned = some t) (hr : RowMove t s u) :
    TraceInv u := by
  rw [TraceInv, State.scanPoint_of_owned ho] at h
  have hu := TraceInvIn.row_kept h (q_ne_faulted_of_owned ho) hr
  rcases hr.keeps.outcome with ⟨hq, -⟩ | ⟨hq, -⟩
  · rw [TraceInv, State.scanPoint_of_owned ((hr.owned hq).trans ho)]
    exact hu
  · rwa [TraceInvIn, State.scanPointIn_of_faulted hq, ← State.scanPoint_of_faulted hq] at hu

/-- A completion move is silent or ends the operation, between two windows (R79, R150). -/
theorem TraceInv.complete_kept {s u : State} (h : TraceInv s) (hs : s.scanPoint = .outside) (hp : s.ph = .idle)
    (hc : CompleteMove s u) : TraceInv u := by
  obtain ⟨-, -, -, -, -, hph, -, -, -, -, -, -, -, htr⟩ := hc.keeps
  have hu : u.scanPoint = .outside := State.scanPoint_outside hc.q_ne_faulted (.inl (hph.trans hp))
  rcases htr with htr | ⟨r, htr⟩
  · exact h.silent htr (hu.trans hs.symm)
  · exact h.between hs htr (by rw [hu]; rfl)

theorem TraceInv.block_kept {s u : State} (h : TraceInv s) (hi : SequencerInv s) (hb : BlockMove s u) : TraceInv u := by
  -- A line action is taken between windows and leads to a state of INIT.
  have hline : ∀ {d l q'}, s.q.lineAction = some (d, l, q') → s.ph = .idle ∧ s.scanPoint = .outside ∧ q' ≠ .faulted :=
    fun ha => by
      obtain ⟨hq, hq'⟩ := SeqState.lineAction_ne_faulted ha
      have hp := hi.ph_idle hq (owned_none_of_lineAction ha)
      exact ⟨hp, State.scanPoint_outside hq (.inl hp), hq'⟩
  cases hb with
  | row t _ ho _ hr => exact h.row_kept ho hr
  | complete t _ ho hp hc =>
    have hq := q_ne_faulted_of_owned ho
    have hs : (s.toPh .idle).scanPoint = .outside := State.scanPoint_outside hq (.inl rfl)
    have hi : TraceInv (s.toPh .idle) := h.silent rfl (hs.trans (State.scanPoint_outside hq (.inr hp)).symm)
    exact hi.complete_kept hs rfl hc
  | lineFault x ha =>
    obtain ⟨-, hs, -⟩ := hline ha
    exact h.between hs rfl rfl
  | cfg l q' ha =>
    obtain ⟨hp, hs, hq'⟩ := hline ha
    exact h.between (e := .cfg l) hs (by simp) (by rw [State.scanPoint_outside hq' (.inl (by simpa using hp))]; rfl)
  | drive l q' d e ha =>
    obtain ⟨hp, hs, hq'⟩ := hline ha
    exact h.between (e := .set l .high) hs (by simp)
      (by rw [State.scanPoint_outside hq' (.inl (by simpa using hp)), scanEvent_outside_set_high])
  | rest => exact h

/-- Settles O44: rows of a window take the reader of the trace through it, and every other event of a step that is no reset
comes between windows. -/
theorem traceInvKept : Obligations.TraceInvKept := by
  intro s u hi h hn hs
  rcases (step_cases hs).noReset_cases hn with ⟨o, a, v, ms, hq, rfl⟩ | ⟨t, f, fs, -, -, hw⟩ | ⟨d, ms, rfl⟩ | ⟨ms, hb⟩
  · have hne : s.q ≠ .faulted := by simp [hq]
    have hp : s.ph = .idle := hi.ph_idle hne (owned_none_of_idle hq)
    have hu : ((s.withInputs ms s.bench).started o a v).scanPoint = .outside :=
      State.scanPoint_outside o.firstState_ne_faulted (.inl hp)
    exact h.between (State.scanPoint_outside hne (.inl hp)) rfl (by rw [hu]; rfl)
  · exact TraceInv.window_kept (s := s.withInputs s.moves fs) h hw
  · exact h
  · exact TraceInv.block_kept (s := s.withInputs ms s.bench) h (hi.withInputs ms s.bench) hb

end Sys2Proof.Machine
end

section
/-! The six frames as whole windows (R73, R80 to R85): what each leaves, the device's array included. -/

namespace Sys2Proof.Machine

open Sys2Proof

/-- A window writes no location of the device array but the one that a WRITE frame addresses. -/
theorem AfterWindow.mem_read {t : Txn} {s u : State} {rx : List Byte} {d : Byte} (h : AfterWindow s t.bytes rx d u)
    {k : Nat} (hk : ∀ a x, t.instr = .write a x → k ≠ s.location a) : u.dev.mem.read k = s.dev.mem.read k := by
  refine h.mem k fun a x hd => hk a x ?_
  rw [t.decodeFrame_bytes] at hd
  exact Except.ok.inj hd

/-- What a window of a frame that is no WRITE leaves. -/
theorem AfterWindow.frame {t : Txn} {s u : State} {rx : List Byte} {d : Byte} (h : AfterWindow s t.bytes rx d u)
    (ht : ∀ a x, t.instr ≠ .write a x) :
    u.trace = s.trace ++ windowEvents t.bytes rx ∧ u.RX = d ∧ SameButWindow s u ∧ u.cs.lvl = .high ∧
      ∀ k, u.dev.mem.read k = s.dev.mem.read k :=
  ⟨h.trace, h.RX, h.same, h.lvl, fun _ => h.mem_read fun a x hw => absurd hw (ht a x)⟩

/-- Settles O16: each is a window without a transfer whose byte is kept, of a frame that is no WRITE. -/
theorem wrenWrdiWrsrWindows : Obligations.WrenWrdiWrsrWindows := by
  refine fun s hp hq hquiet => ⟨?_, ?_, fun v => ?_⟩
  · obtain ⟨u, r, hw, h⟩ := window_short (t := .wren) (.inl rfl) hp hq hquiet
    exact ⟨u, r, hw, AfterWindow.frame (t := .wren) h nofun⟩
  · obtain ⟨u, r, hw, h⟩ := window_short (t := .wrdi) (.inr rfl) hp hq hquiet
    exact ⟨u, r, hw, AfterWindow.frame (t := .wrdi) h nofun⟩
  · obtain ⟨u, r1, r2, hw, h⟩ := window_wrsr (t := .wrsr v) rfl hp hq hquiet
    exact ⟨u, r1, r2, hw, AfterWindow.frame (t := .wrsr v) h nofun⟩

/-- Settles O17: each is a window whose last byte received is kept, of a frame that is no WRITE. -/
theorem rdsrReadWindows : Obligations.RdsrReadWindows := by
  refine fun s hp hq hquiet => ⟨fun x => ?_, fun a x => ?_⟩
  · obtain ⟨u, r, d, hw, h⟩ := window_rdsr (t := .rdsr x) rfl hp hq hquiet
    exact ⟨u, r, d, hw, AfterWindow.frame (t := .rdsr x) h nofun⟩
  · obtain ⟨u, r1, r2, r3, d, hw, h⟩ := window_read (t := .read a x) rfl hp hq hquiet
    exact ⟨u, r1, r2, r3, d, hw, AfterWindow.frame (t := .read a x) h nofun⟩

/-- Settles O18: the frame addresses the location of its own address. -/
theorem writeWindow : Obligations.WriteWindow := by
  intro s a d hp hq hquiet
  obtain ⟨u, r1, r2, r3, r4, hw, h⟩ := window_write (t := .write a d) rfl hp hq hquiet
  refine ⟨u, r1, r2, r3, r4, hw, h.trace, h.RX, h.same, h.lvl,
    fun k hk => AfterWindow.mem_read (t := .write a d) h fun a' x hi => ?_⟩
  cases hi
  exact hk

end Sys2Proof.Machine
end

section
/-! The transaction phase table row by row (R71, R72, R75), the pairs outside it (log 20), and which transaction a sequencer
state owns (R78). -/

namespace Sys2Proof.Machine

open Sys2Proof

/-! ### Rows without a fault -/

section NoFault

variable {t : Txn} {s : State}

theorem phaseRow_idle_ok (hf : s.faultDue = false) (hp : s.ph = .idle) :
    ∃ u, phaseRow t s = .next u ∧ u.ph = .selected ∧ u.RX = s.RX ∧ u.q = s.q ∧ u.cs.lvl = .low ∧
      u.trace = s.trace ++ [.set .cs .low] := by
  obtain ⟨d, e, h, -⟩ := setLevel_ok hf .cs .low (·.toPh .selected)
  exact ⟨_, (phaseRow_idle hp).trans (congrArg _ h), rfl, rfl, rfl, rfl, rfl⟩

theorem phaseRow_sends_ok {b : Byte} {p : Phase} (hf : s.faultDue = false) (hs : t.sends s.ph = some (b, p)) :
    ∃ u r, phaseRow t s = .next u ∧ u.ph = p ∧ u.RX = s.RX ∧ u.q = s.q ∧ u.cs = s.cs ∧
      u.trace = s.trace ++ [.xfer b r] := by
  obtain ⟨r, d, e, h, -⟩ := xfer_ok hf b (discard p)
  exact ⟨_, r, (phaseRow_sends hs).trans (congrArg _ h), rfl, rfl, rfl, rfl, rfl⟩

theorem phaseRow_receives_ok (hf : s.faultDue = false) (hr : t.receives s.ph) :
    ∃ u r, phaseRow t s = .next u ∧ u.ph = .dataDone ∧ u.RX = r ∧ u.q = s.q ∧ u.cs = s.cs ∧
      u.trace = s.trace ++ [.xfer t.data r] := by
  obtain ⟨r, d, e, h, -⟩ := xfer_ok hf t.data (latchRx .dataDone)
  exact ⟨_, r, (phaseRow_receives hr).trans (congrArg _ h), rfl, rfl, rfl, rfl, rfl⟩

theorem phaseRow_closes_ok (hf : s.faultDue = false) (hc : t.closes s.ph) :
    ∃ u, phaseRow t s = .next u ∧ u.ph = .deselected ∧ u.RX = s.RX ∧ u.q = s.q ∧ u.cs.lvl = .high ∧
      u.trace = s.trace ++ [.set .cs .high] := by
  obtain ⟨d, e, h, -⟩ := setLevel_ok hf .cs .high (·.toPh .deselected)
  exact ⟨_, (phaseRow_closes hc).trans (congrArg _ h), rfl, rfl, rfl, rfl, rfl⟩

end NoFault

/-! ### Rows with a fault -/

/-- The rows of the table: chip-select LOW, a byte sent, a byte kept, chip-select HIGH, the silent row (R75). -/
theorem Txn.row_cases {t : Txn} {p : Phase} (h : t.kind.allows p = true) :
    p = .idle ∨ (∃ b p', t.sends p = some (b, p')) ∨ t.receives p ∨ t.closes p ∨ p = .deselected := by
  obtain ⟨k, a, x⟩ := t
  cases p <;> cases k <;> simp [TxnKind.allows, Txn.sends, Txn.receives, Txn.closes] at h ⊢

/-- Every row but the silent one is a primitive, on which a BusFault can fall (R151). -/
theorem phaseRow_fault {t : Txn} {s : State} (ha : t.kind.allows s.ph = true) (hf : s.faultDue = true)
    (hp : s.ph ≠ .deselected) : phaseRow t s = .next (takeBusFault s.popFault) := by
  rcases Txn.row_cases ha with h | ⟨b, p, h⟩ | h | h | h
  · rw [phaseRow_idle h, setLevel, primitive_fault hf]
  · rw [phaseRow_sends h, xfer, primitive_fault hf]
  · rw [phaseRow_receives h, xfer, primitive_fault hf]
  · rw [phaseRow_closes h, setLevel, primitive_fault hf]
  · exact absurd h hp

/-- Settles O24: each row is the primitive that the equations of `phaseRow` name, and each primitive has one law without a
fault and one with it. -/
theorem phaseTableRows : Obligations.PhaseTableRows := by
  refine ⟨fun t s hf => ⟨phaseRow_idle_ok hf, fun hp => ?_, fun hp hk => ?_, fun hp hk => ?_, fun hp hk => ?_,
    fun hp hk => ?_, fun hp hk => ?_, fun hp hk => ?_, fun hp hk => ?_, fun hp hwren hwrdi => ?_,
    phaseRow_deselected⟩, fun t s u hf hp h => ?_, fun s t ho hk => ?_⟩
  · exact phaseRow_sends_ok hf (by rw [hp]; rfl)
  · exact phaseRow_closes_ok hf (.inl ⟨hk, hp⟩)
  · exact phaseRow_sends_ok hf (by rcases hk with hk | hk <;> simp [Txn.sends, hp, hk])
  · exact phaseRow_receives_ok hf (.inl ⟨hk, hp⟩)
  · exact phaseRow_sends_ok hf (by simp [Txn.sends, hp, hk])
  · exact phaseRow_sends_ok hf (by rcases hk with hk | hk <;> simp [Txn.sends, hp, hk])
  · exact phaseRow_receives_ok hf (.inr ⟨hk, hp⟩)
  · exact phaseRow_sends_ok hf (by simp [Txn.sends, hp, hk])
  · exact phaseRow_closes_ok hf (.inr ⟨hwren, hwrdi, hp⟩)
  · obtain ⟨ha, -⟩ := phaseRow_cases h
    rw [phaseRow_fault ha hf hp] at h
    cases h
    exact ⟨rfl, rfl⟩
  · rcases hk with hk | hk
    · exact owned_data (p := .opcodeSent) ho (.inl ⟨hk, rfl⟩)
    · exact owned_data (p := .addrSent) ho (.inr ⟨hk, rfl⟩)

/-! ### What is in no table -/

/-- A completed READ of an operation that is no read has no completion move (log 20). -/
theorem completeRead_foreign {s : State} (h : SeqState.rdRead.allows s.op = false) :
    completeRead s = .fault .sequencerNotInTable := by
  unfold completeRead
  cases ho : s.op with
  | readWord | readByte => simp [ho, SeqState.allows] at h
  | init | writeWord | readStatus | writeStatus | writeByte => rfl

/-- Settles O25: a pair outside the table has no row, and an operation that is no read no completion of a READ. -/
theorem phaseOutsideTheTableAndForeignReadStop : Obligations.PhaseOutsideTheTableAndForeignReadStop := by
  refine ⟨fun t s h => phaseRow_not_allowed h, fun s hq hp ho => ?_⟩
  have hown : s.owned = some (.read s.byteAddr s.par.dummy) := by simp [State.owned, hq]
  rw [blockStep_deselected hown hp]
  simp only [complete, State.toPh_q, hq]
  exact completeRead_foreign (by simpa [hq] using ho)

/-! ### The owned transaction -/

theorem hiByte_toNat (v : Half) : (hiByte v).toNat = v.toNat / 256 := by
  have := v.isLt
  simp only [hiByte, BitVec.extractLsb'_toNat, Nat.shiftRight_eq_div_pow]
  omega

theorem loByte_toNat (v : Half) : (loByte v).toNat = v.toNat % 256 := by
  simp [loByte, BitVec.extractLsb'_toNat]

/-- `A +16 bi` wraps at 2^16 (R54, R78). -/
theorem State.byteAddr_toNat (s : State) : s.byteAddr.toNat = (s.A.toNat + s.bi.toNat) % 65536 := by
  have := s.bi.isLt
  simp only [State.byteAddr, BitVec.toNat_add, BitVec.toNat_setWidth]
  omega

/-- Settles O23: the table of `State.owned`, with its address and data as numbers. -/
theorem ownedTransactionTable : Obligations.OwnedTransactionTable := by
  refine fun s => ⟨fun hq => ?_, fun hq => ?_, fun hq => ?_, fun hq => ?_, fun hq => ?_, fun hq => ?_, fun hq => ?_,
    fun hq => ?_⟩
  · exact ⟨.wrsr Config.initStatus, by simp [State.owned, hq], rfl, rfl⟩
  · exact ⟨.read s.byteAddr s.par.dummy, by simp [State.owned, hq], rfl, s.byteAddr_toNat⟩
  · exact ⟨.wren, by simp [State.owned, hq], rfl⟩
  · refine ⟨.write s.byteAddr s.writeData, by simp [State.owned, hq], rfl, s.byteAddr_toNat, fun ho hb => ?_, fun h => ?_⟩
    · rw [Txn.write, State.writeData, if_pos ⟨ho, hb⟩, hiByte_toNat]
    · rw [Txn.write, State.writeData, if_neg h, loByte_toNat]
  · exact ⟨.rdsr s.par.dummy, by simp [State.owned, hq], rfl⟩
  · exact ⟨.rdsr s.par.dummy, by simp [State.owned, hq], rfl⟩
  · exact ⟨.wrsr (loByte s.V), by simp [State.owned, hq], rfl, loByte_toNat s.V⟩
  · unfold State.owned
    cases h : s.q <;> simp [h] at hq ⊢

/-! ### The line primitives -/

/-- Settles O40: the laws of the primitives without a fault and with it, read line by line. -/
theorem linePrimitives : Obligations.LinePrimitives := by
  refine fun s l lvl => ⟨fun hf => ⟨?_, ?_⟩, fun hf k => ?_⟩
  · rw [cfgOut_ok hf]
    refine ⟨?_, by simp, fun hd => ?_, fun k hk => ?_⟩
    · simp [State.mapLine_line, Line.enable]
    · simp [State.mapLine_line, Line.pin, hd]
    · simp [State.mapLine_line, hk]
  · obtain ⟨d, e, h, -⟩ := setLevel_ok hf l lvl id
    rw [h]
    refine ⟨?_, by simp, fun k hk => ?_⟩
    · simp [State.mapLine_line, Line.drive]
    · simp [State.mapLine_line, hk]
  · rw [cfgOut, setLevel, primitive_fault hf, primitive_fault hf]
    simp

end Sys2Proof.Machine
end

section
/-! The block's own steps against the frame's meaning at once (R79, R86; log 1), and the bytes that no latch keeps
(R74). -/

namespace Sys2Proof.Machine

open Sys2Proof

/-! ### The two grains -/

/-- Rows of the table lead to phases of the table, so a run of them answers, also when a fault ends it. -/
theorem runRows_answers {t : Txn} (n : Nat) {s : State} (h : t.kind.allows s.ph = true) :
    ∃ u, runRows t n s = .next u := by
  induction n generalizing s with
  | zero => exact ⟨s, rfl⟩
  | succ n ih =>
    by_cases hq : s.q = .faulted
    · exact ⟨s, by rw [runRows, if_pos hq]⟩
    · obtain ⟨v, hv, hr⟩ := phaseRow_allowed h
      rw [runRows_next hq hv]
      refine ih ?_
      rcases hr.phase with ⟨hp, -⟩ | ⟨hp, -⟩
      · rw [hp]; exact TxnKind.allows_after h
      · rwa [hp]

/-- On a free wire a window answers (R40). -/
theorem window_answers (t : Txn) {s : State} (hp : s.ph = .idle) (hq : s.q ≠ .faulted) : ∃ u, window t s = .next u := by
  rw [window, if_pos ⟨hp, hq⟩]
  exact runRows_answers _ (by rw [hp]; exact t.kind.allows_idle)

/-- The meaning of an owned transaction's frame is that transaction's window (R78, R80 to R85). -/
theorem exec_owned {s : State} {t : Txn} (ho : s.owned = some t) (v : State) : exec t.instr v = window t v := by
  unfold State.owned at ho
  cases hq : s.q <;> simp only [hq, reduceCtorEq, Option.some.injEq] at ho <;> subst ho <;> rfl

/-- Settles O26: the window of the owned transaction answers, and the block's run is that window and the completion
move. -/
theorem blockRunRefinesWindow : Obligations.BlockRunRefinesWindow := by
  intro s t ho hp hw
  obtain ⟨u, hu⟩ := window_answers t hp (q_ne_faulted_of_owned ho)
  exact ⟨u, (exec_owned ho s).trans hu, runFor_window ho hw hu⟩

/-! ### Bytes that reach no latch -/

/-- A row that sends a byte to an open device records the byte received on the trace and nowhere else. -/
theorem blockStep_sends_open {s : State} {t : Txn} {b r : Byte} {p : Phase} {rs : List Byte} (ho : s.owned = some t)
    (hm : s.dev.mode = .open) (hf : s.faultDue = false) (hr : s.env.replies = r :: rs)
    (hs : t.sends s.ph = some (b, p)) :
    blockStep s = .next (((s.withWorld s.dev { s.env with faults := s.env.faults.tail, replies := rs }).emit
      (.xfer b r)).toPh p) := by
  have hp : s.ph ≠ .deselected := fun hp => by simp [hp, Txn.sends] at hs
  rw [blockStep_row ho hp, phaseRow_sends hs, xfer_open hf hm hr]
  rfl

/-- Settles O33: the row that keeps a byte latches it into `RX`; one that does not leaves it on the trace alone. -/
theorem discardedBytesReachNoLatch : Obligations.DiscardedBytesReachNoLatch := by
  refine ⟨fun s t r rs ho hm hf hr hrecv => ?_, fun s t r r' rs ho hm hf hr hsend => ?_⟩
  · have hp : s.ph ≠ .deselected := by rcases hrecv with ⟨-, hp⟩ | ⟨-, hp⟩ <;> simp [hp]
    rw [blockStep_row ho hp, phaseRow_receives hrecv, xfer_open hf hm hr]
    exact ⟨_, t.data, rfl, rfl, rfl⟩
  · obtain ⟨b, p, hs⟩ : ∃ b p, t.sends s.ph = some (b, p) := by
      rcases hsend with hp | ⟨hp, hk | hk | hk⟩ | ⟨hp, hk | hk⟩ | ⟨hp, hk⟩ <;> simp [Txn.sends, *]
    exact ⟨_, b, blockStep_sends_open ho hm hf hr hs, rfl,
      blockStep_sends_open (s := { s with env := { s.env with replies := r' :: rs } }) ho hm hf rfl hs⟩

end Sys2Proof.Machine
end

section
/-! INIT (R100 to R103): the six line actions, the only ones that touch hold and write-protect, and the whole run with
the status write at its end. -/

namespace Sys2Proof.Machine

open Sys2Proof

/-! ### Hold and write-protect -/

/-- The line actions of hold and write-protect belong to four states of INIT (R100, R102). -/
theorem SeqState.lineAction_not_cs {q q' : SeqState} {d : Bool} {l : LineId} (h : q.lineAction = some (d, l, q'))
    (hl : l ≠ .cs) : q = .initCfgHold ∨ q = .initCfgWp ∨ q = .initSetHold ∨ q = .initSetWp := by
  cases q <;> simp [SeqState.lineAction] at h ⊢ <;> exact hl h.2.1.symm

/-- A row of a transaction touches neither hold nor write-protect (R73). -/
theorem WireKeeps.line {s u : State} (h : WireKeeps s u) {l : LineId} (hl : l ≠ .cs) : u.line l = s.line l := by
  cases l with
  | cs => exact absurd rfl hl
  | hold => exact h.hold
  | wp => exact h.wp

/-- A step of the block that changes hold or write-protect is a line action of INIT on that line. -/
theorem BlockMove.line_changed {s u : State} (h : BlockMove s u) {l : LineId} (hl : l ≠ .cs)
    (hne : u.line l ≠ s.line l) :
    (∃ d q', s.q.lineAction = some (d, l, q')) ∧
      (u.trace = s.trace ++ [.cfg l] ∨ u.trace = s.trace ++ [.set l .high]) := by
  cases h with
  | row t _ _ _ hr => exact absurd (hr.keeps.line hl) hne
  | complete t _ _ _ hc =>
    obtain ⟨-, -, -, -, -, -, hcs, hhold, hwp, -⟩ := hc.keeps
    exact absurd (by cases l <;> simp [State.line, hcs, hhold, hwp]) hne
  | lineFault | rest => simp at hne
  | cfg k q' ha =>
    obtain rfl : l = k := by by_contra hk; simp [State.mapLine_line, hk] at hne
    exact ⟨⟨_, q', ha⟩, .inl (by simp)⟩
  | drive k q' d e ha =>
    obtain rfl : l = k := by by_contra hk; simp [State.mapLine_line, hk] at hne
    exact ⟨⟨_, q', ha⟩, .inr (by simp)⟩

/-- Settles O39: of the steps that are no reset only a line action of INIT changes one of these lines. -/
theorem holdAndWriteProtectOnlyInInit : Obligations.HoldAndWriteProtectOnlyInInit := by
  intro s t l hl h hn hne
  rcases (step_cases h).noReset_cases hn with ⟨o, a, v, ms, -, rfl⟩ | ⟨_, _, _, -, -, hw⟩ | ⟨d, ms, rfl⟩ | ⟨ms, hb⟩
  · exact absurd (by cases l <;> rfl) hne
  · obtain ⟨k, -⟩ := window_keeps hw
    exact absurd ((k.line hl).trans (by simp)) hne
  · exact absurd (by cases l <;> rfl) hne
  · obtain ⟨⟨d, q', ha⟩, htr⟩ := hb.line_changed hl (by simpa using hne)
    have hq := SeqState.lineAction_not_cs ha hl
    rcases htr with htr | htr
    · exact ⟨.cfg l, hq, htr, .inl rfl⟩
    · exact ⟨.set l .high, hq, htr, .inr rfl⟩

/-! ### The line actions -/

/-- No fault scheduled, the host waits, and the device has heard nothing since chip-select last rose: what a line action
needs to go well and to leave the device alone. -/
structure Undisturbed (s : State) : Prop where
  quiet : Quiet s
  waits : Waits s
  frame : s.dev.frame = []

/-- The state after a line action of INIT: line `l` driven HIGH or configured, and the move to `q'` (R100). -/
def State.lineActed (s : State) (drive : Bool) (l : LineId) (q' : SeqState) : State :=
  match drive with
  | false => ((s.popFault.mapLine Line.enable l).emit (.cfg l)).toQ q'
  | true => ((s.popFault.mapLine (Line.drive .high) l).emit (.set l .high)).toQ q'

/-- A device that has heard nothing is left as it was when a line is driven HIGH: there is no command to act on
(R104; log 33). -/
theorem deviceSees_high_unheard {s : State} (h : s.dev.frame = []) (l : LineId) : deviceSees l .high s = s := by
  cases l with
  | hold | wp => rfl
  | cs =>
    have hact : deviceAct s = s := by rw [deviceAct, h]; rfl
    have hclear : clearFrame s = s := by rw [clearFrame, ← h]
    rw [deviceSees, deviceDeselect, hact, hclear, ite_self]

/-- A step in a state of INIT's line actions is that action (R100). -/
theorem Undisturbed.step_lineAction {s : State} {d : Bool} {l : LineId} {q' : SeqState} (h : Undisturbed s)
    (ha : s.q.lineAction = some (d, l, q')) : step s = .next (s.lineActed d l q') := by
  have hidle : s.q ≠ .idle := fun hq => by simp [hq, SeqState.lineAction] at ha
  have hf := faultDue_of_quiet h.quiet
  have hstep : blockStep s = .next (if d then setLevel l .high (·.toQ q') s else cfgOut l (·.toQ q') s) := by
    simp only [blockStep, owned_none_of_lineAction ha, initLineStep]
    cases hq : s.q <;> simp only [hq, SeqState.lineAction, reduceCtorEq, Option.some.injEq, Prod.mk.injEq] at ha <;>
      obtain ⟨rfl, rfl, rfl⟩ := ha <;> rfl
  rw [step_waits h.waits hidle, hstep]
  cases d with
  | false => rw [if_neg (by nofun), cfgOut_ok hf]; rfl
  | true => rw [if_pos rfl, setLevel, primitive_ok hf, deviceSees_high_unheard (by simpa using h.frame)]; rfl

@[simp] theorem State.lineActed_q (s : State) (d : Bool) (l : LineId) (q' : SeqState) :
    (s.lineActed d l q').q = q' := by cases d <;> rfl

@[simp] theorem State.lineActed_dev (s : State) (d : Bool) (l : LineId) (q' : SeqState) :
    (s.lineActed d l q').dev = s.dev := by cases d <;> simp [State.lineActed]

@[simp] theorem State.lineActed_env (s : State) (d : Bool) (l : LineId) (q' : SeqState) :
    (s.lineActed d l q').env = s.popFault.env := by cases d <;> simp [State.lineActed]

@[simp] theorem State.lineActed_trace (s : State) (d : Bool) (l : LineId) (q' : SeqState) :
    (s.lineActed d l q').trace = s.trace ++ [if d then .set l .high else .cfg l] := by
  cases d <;> simp [State.lineActed]

/-- What every line action keeps of the block. -/
structure LineKeeps (s u : State) : Prop where
  sameOp : SameOp s u
  RX : u.RX = s.RX
  HI : u.HI = s.HI
  R : u.R = s.R
  np : u.np = s.np
  ph : u.ph = s.ph

theorem LineKeeps.trans {s u v : State} (h1 : LineKeeps s u) (h2 : LineKeeps u v) : LineKeeps s v :=
  ⟨h1.sameOp.trans h2.sameOp, h2.RX.trans h1.RX, h2.HI.trans h1.HI, h2.R.trans h1.R, h2.np.trans h1.np,
    h2.ph.trans h1.ph⟩

theorem State.lineActed_keeps (s : State) (d : Bool) (l : LineId) (q' : SeqState) :
    LineKeeps s (s.lineActed d l q') := by
  have hop : SameOp s (s.lineActed d l q') := by cases d <;> constructor <;> simp [State.lineActed]
  cases d <;> exact ⟨hop, by simp [State.lineActed], by simp [State.lineActed], by simp [State.lineActed],
    by simp [State.lineActed], by simp [State.lineActed]⟩

theorem Undisturbed.lineActed {s : State} (h : Undisturbed s) (d : Bool) (l : LineId) (q' : SeqState) :
    Undisturbed (s.lineActed d l q') := by
  obtain ⟨hop, -⟩ := s.lineActed_keeps d l q'
  refine ⟨?_, h.waits.congr hop.moves hop.bench, by rw [State.lineActed_dev, h.frame]⟩
  rw [Quiet, State.lineActed_env]
  exact fun b hb => h.quiet b (List.mem_of_mem_tail hb)

/-- `u` is `s` after the six line actions of INIT, the status write being next: the lines are ready, the device is the
same, and so is what no line action touches. -/
structure LinesUp (s u : State) : Prop where
  undisturbed : Undisturbed u
  lines : u.linesReady = true
  trace : u.trace = s.trace ++
    [.cfg .cs, .cfg .hold, .cfg .wp, .set .cs .high, .set .hold .high, .set .wp .high]
  q : u.q = .initWrsr
  keeps : LineKeeps s u
  dev : u.dev = s.dev
  nSr : u.env.nSr = s.env.nSr

/-- INIT makes its six line actions one after another, in the order of R101. -/
theorem Undisturbed.runFor_lineActions {s : State} (h : Undisturbed s) (hq : s.q = .initCfgCs) :
    ∃ u, runFor 6 s = .next u ∧ LinesUp s u := by
  have h1 := h.lineActed false .cs .initCfgHold
  have h2 := h1.lineActed false .hold .initCfgWp
  have h3 := h2.lineActed false .wp .initSetCs
  have h4 := h3.lineActed true .cs .initSetHold
  have h5 := h4.lineActed true .hold .initSetWp
  have h6 := h5.lineActed true .wp .initWrsr
  refine ⟨_, ?_, h6, rfl, by simp, by simp, ?_, by simp, by simp⟩
  · rw [runFor_succ (h.step_lineAction (by rw [hq]; rfl)), runFor_succ (h1.step_lineAction rfl),
      runFor_succ (h2.step_lineAction rfl), runFor_succ (h3.step_lineAction rfl),
      runFor_succ (h4.step_lineAction rfl), runFor_succ (h5.step_lineAction rfl), runFor_zero]
  · iterate 5 refine .trans ?_ (State.lineActed_keeps ..)
    exact State.lineActed_keeps ..

/-! ### The status write -/

/-- A WRSR window with the lines ready, with what the reference device makes of it (R47, R83). -/
theorem window_wrsr_ready {s : State} (hp : s.ph = .idle) (hq : s.q ≠ .faulted) (hquiet : Quiet s)
    (hlines : s.linesReady = true) (x : Byte) :
    ∃ u r1 r2 n, window (.wrsr x) s = .next u ∧ AfterWindow s (Txn.wrsr x).bytes [r1, r2] s.RX u ∧
      (∀ m ns, s.env.nSr = m :: ns → n = m) ∧
      (s.dev.mode = .reference → u.dev = if s.wrsrAble = true then
        { s.dev with
          hi6 := x.extractLsb' 2 6, busyLeft := n, wel := if n = 0 then false else s.dev.wel, frame := [] }
        else { s.dev with frame := [] }) := by
  obtain ⟨u, r1, r2, hw, ha⟩ := window_wrsr (t := .wrsr x) rfl hp hq hquiet
  by_cases hm : s.dev.mode = .reference
  · obtain ⟨u', n, hw', hn, hdev⟩ := window_wrsr_reference ⟨hp, hq, hquiet, hlines, by rw [hm]; nofun⟩ hm x
    cases hw.symm.trans hw'
    exact ⟨u, r1, r2, n, hw, ha, hn, fun _ => hdev⟩
  · exact ⟨u, r1, r2, s.takeNSr.1, hw, ha, fun _ _ => takeNSr_of_cons, fun h => absurd h hm⟩

/-- After a status write of 0 the status byte is 0 exactly when no poll is left to wait for, if the device accepted the
write, and as it was otherwise (R47, R49 (b)). -/
theorem Device.status_statusWritten {d d' : Device} {n : Nat} {p : Prop} [Decidable p]
    (h : d' = if p then { d with hi6 := 0, busyLeft := n, wel := if n = 0 then false else d.wel } else d) :
    d'.status = 0x00 ↔ if p then n = 0 else d.status = 0x00 := by
  subst h
  split
  · constructor
    · intro h
      have hwip := congrArg Machine.wip h
      rw [Device.status, wip_statusByte] at hwip
      exact Nat.eq_zero_of_not_pos (of_decide_eq_false (hwip.trans rfl))
    · rintro rfl
      exact (by decide : statusByte 0 false 0 = 0x00)
  · rfl

/-! ### The whole run -/

/-- INIT after its line actions, in five steps: the window of the status write and the completion move (R100). -/
theorem LinesUp.runFor_statusWrite {s u : State} (h : LinesUp s u) (hp : s.ph = .idle) :
    ∃ v r1 r2 n, runFor 5 u = .next (finish .ok v) ∧
      AfterWindow u (Txn.wrsr Config.initStatus).bytes [r1, r2] s.RX v ∧
      (∀ m ns, s.env.nSr = m :: ns → n = m) ∧
      (s.dev.mode = .reference → v.dev =
        if s.dev.busyLeft = 0 ∧ (s.dev.wel = true ∨ s.par.wrsrRequiresWel = false) then
          { s.dev with hi6 := 0, busyLeft := n, wel := if n = 0 then false else s.dev.wel }
        else s.dev) := by
  obtain ⟨v, r1, r2, n, hw, ha, hn, hdev⟩ := window_wrsr_ready (h.keeps.ph.trans hp) (by rw [h.q]; nofun)
    h.undisturbed.quiet h.lines Config.initStatus
  have hvq : v.q = .initWrsr := ha.q.trans h.q
  have hframe : s.dev.frame = [] := h.dev ▸ h.undisturbed.frame
  refine ⟨v, r1, r2, n, ?_, h.keeps.RX ▸ ha, h.nSr ▸ hn, fun hm => ?_⟩
  · have hrun := runFor_window (t := .wrsr Config.initStatus) (by simp only [State.owned, h.q]) h.undisturbed.waits hw
    rw [if_neg (by rw [hvq]; nofun)] at hrun
    exact hrun.trans (by simp only [complete, hvq, completeInit])
  · -- The device held no byte of a frame, so that to clear its frame changes nothing.
    have hd := hdev (by rwa [h.dev])
    simp only [State.wrsrAble_iff, h.dev, h.keeps.sameOp.par, ← hframe] at hd
    exact hd

/-- Settles O50: the start, the six line actions, and the window of the status write with its completion move. -/
theorem initRun : Obligations.InitRun := by
  intro s w ws hi hquiet hinv hc hw
  have hframe : s.dev.frame = [] := hinv (.inr (by rw [hi.2]; rfl))
  have h0 : Undisturbed (s.startedCall .init w ws) := ⟨hquiet, Calls.waits (ws := ws) ⟨rfl, rfl⟩, hframe⟩
  obtain ⟨u, hact, hu⟩ := h0.runFor_lineActions rfl
  obtain ⟨v, r1, r2, n, hwrite, ha, hn, hdev⟩ := hu.runFor_statusWrite hi.2
  obtain ⟨-, -, -, hHI, hR, hnp, -⟩ := ha.same
  have hop := hu.keeps.sameOp.trans ha.sameOp
  refine ⟨finish .ok v, r1, r2, n, ?_, ⟨rfl, ha.ph.trans (hu.keeps.ph.trans hi.2)⟩, ha.linesReady hu.lines, rfl,
    hop.par, hop.A, hop.V, ⟨hop.moves, hop.bench⟩, ?_, hR.trans hu.keeps.R, hHI.trans hu.keeps.HI, ha.RX,
    hnp.trans hu.keeps.np, fun a => ?_, hn, hdev, fun hm => Device.status_statusWritten (hdev hm)⟩
  · rw [runFor_succ (step_startedCall (o := .init) hc hi.1 hw), runFor_add hact 5, hwrite]
  · rw [finish_trace, ha.trace, hu.trace, show v.op = .init from hop.op]
    simp [initEvents, State.startedCall, Txn.bytes, Txn.wrsr, TxnKind.opcode]
  · rw [finish_dev, ha.mem_read (t := .wrsr Config.initStatus) nofun, hu.dev]
    rfl

end Sys2Proof.Machine
end

section
/-! READ_BYTE and READ_WORD as whole runs (R110 to R113): the start, the READ windows of `Q_RD_READ`, and the completion
move after each. Lines not ready: log 9; latches no rule writes: log 28. -/

namespace Sys2Proof.Machine

open Sys2Proof

/-! ### Between the windows of an operation, whatever the device -/

/-- `u` is between windows of the operation that the word `w` started from `s`, no fault scheduled and the words `ws` still
to come: its operands are those of `w` (R62), and everything else an operation is not to touch is as in `s`. -/
structure Serving (s : State) (w : HostWord) (ws : List HostWord) (u : State) : Prop where
  ph : u.ph = .idle
  quiet : Quiet u
  par : u.par = s.par
  A : u.A = hopAddr w
  V : u.V = hopData w
  oe : u.cs.oe = s.cs.oe
  hold : u.hold = s.hold
  wp : u.wp = s.wp
  calls : Calls u ws

section Serving

variable {s u v : State} {w : HostWord} {ws : List HostWord}

theorem Serving.startedCall (hp : s.ph = .idle) (hquiet : Quiet s) (o : HostOp) :
    Serving s w ws (s.startedCall o w ws) := ⟨hp, hquiet, rfl, rfl, rfl, rfl, rfl, rfl, rfl, rfl⟩

theorem Serving.window_kept {bs rx : List Byte} {d : Byte} (h : Serving s w ws u) (ha : AfterWindow u bs rx d v) :
    Serving s w ws v := by
  obtain ⟨hpar, hA, hV, -, -, -, -, -, -, hph, -, hoe, hhold, hwp, hmoves, hbench⟩ := ha.same
  obtain ⟨hcalls, hnone⟩ := h.calls
  exact ⟨hph.trans h.ph, ha.quiet h.quiet, hpar.trans h.par, hA.trans h.A, hV.trans h.V, hoe.trans h.oe,
    hhold.trans h.hold, hwp.trans h.wp, hmoves.trans hcalls, hbench.trans hnone⟩

theorem Serving.complete_kept (h : Serving s w ws u) (hc : CompleteMove u v) : Serving s w ws v := by
  obtain ⟨hpar, hA, hV, -, -, hph, hcs, hhold, hwp, -, henv, hmoves, hbench, -⟩ := hc.keeps
  obtain ⟨hcalls, hnone⟩ := h.calls
  exact ⟨hph.trans h.ph, by rw [Quiet, henv]; exact h.quiet, hpar.trans h.par, hA.trans h.A, hV.trans h.V,
    by rw [hcs, h.oe], hhold.trans h.hold, hwp.trans h.wp, hmoves.trans hcalls, hbench.trans hnone⟩

theorem Serving.opFrame (h : Serving s w ws u) (hl : u.cs.lvl = .high) : OpFrame s w ws u :=
  ⟨h.par, h.A, h.V, h.oe, hl, h.hold, h.wp, h.calls⟩

/-- A transaction of the operation, run by the block, is its window and the completion move (R79). -/
theorem Serving.run {t : Txn} {bs rx : List Byte} {d : Byte} (h : Serving s w ws u) (ho : u.owned = some t)
    (hw : window t u = .next v) (ha : AfterWindow u bs rx d v) : runFor t.kind.steps u = complete v := by
  rw [runFor_window ho h.calls.waits hw, if_neg (by rw [ha.q]; exact q_ne_faulted_of_owned ho)]

/-! ### One READ window of the block -/

/-- In `Q_RD_READ` the block sends one READ frame at its byte address, in seven steps, the last one making the completion
move too (R78, R84). -/
theorem Serving.readWindow (h : Serving s w ws u) (hq : u.q = .rdRead) {a : Half} (ha : u.byteAddr = a) :
    ∃ v r1 r2 r3 d, runFor 7 u = complete v ∧ AfterWindow u (Txn.read a s.par.dummy).bytes [r1, r2, r3, d] d v := by
  have ho : u.owned = some (.read a s.par.dummy) := by simp only [State.owned, hq, ha, h.par]
  obtain ⟨v, r1, r2, r3, d, hw, hv⟩ := window_read (t := .read a s.par.dummy) rfl h.ph (q_ne_faulted_of_owned ho) h.quiet
  exact ⟨v, r1, r2, r3, d, h.run ho hw hv, hv⟩

end Serving

theorem complete_byte {s : State} (hq : s.q = .rdRead) (ho : s.op = .readByte) :
    complete s = .next (finishValue (zext16 s.RX) s) := by simp only [complete, hq, completeRead, ho]

/-! ### The whole runs -/

/-- Settles O51: the start, one READ window at the address, and the completion move that extends its byte. -/
theorem readByteRun : Obligations.ReadByteRun := by
  intro s w ws hi hquiet hc hw
  have h0 : Serving s w ws (s.startedCall .readByte w ws) := .startedCall hi.2 hquiet .readByte
  obtain ⟨u, r1, r2, r3, d, hrun, ha⟩ := h0.readWindow rfl (State.byteAddr_first rfl)
  have hq : u.q = .rdRead := ha.q
  have ho : u.op = .readByte := ha.sameOp.op
  have hu := (h0.window_kept ha).complete_kept (.byte (.inl ⟨hq, ho⟩))
  rw [complete_byte hq ho] at hrun
  rw [ha.RX] at hu hrun
  refine ⟨finishValue (zext16 d) u, r1, r2, r3, d, ?_, ⟨rfl, hu.ph⟩, rfl, rfl, ha.RX, ?_, ha.HI, ha.np,
    hu.opFrame ha.lvl, fun a => AfterWindow.mem_read (t := .read _ _) ha nofun⟩
  · rw [runFor_succ (step_startedCall (o := .readByte) hc hi.1 hw), hrun]
  · rw [finishValue, finish_trace, ha.trace, ho]
    rfl

/-- Settles O52: the start, and two READ windows: the completion move of the first keeps the high byte and goes on to the
address plus one, that of the second joins the bytes. -/
theorem readWordRun : Obligations.ReadWordRun := by
  intro s w ws hi hquiet hc hw
  have h0 : Serving s w ws (s.startedCall .readWord w ws) := .startedCall hi.2 hquiet .readWord
  obtain ⟨u, r1, r2, r3, x, hrun, ha⟩ := h0.readWindow rfl (State.byteAddr_first rfl)
  have hq : u.q = .rdRead := ha.q
  have ho : u.op = .readWord := ha.sameOp.op
  have hb : u.bi = 0 := ha.sameOp.bi
  have hu := (h0.window_kept ha).complete_kept (.highByte hq ho hb)
  rw [complete_highByte hq ho hb] at hrun
  obtain ⟨v, r5, r6, r7, y, hrun', ha'⟩ := hu.readWindow hq (State.byteAddr_second rfl)
  have hq' : v.q = .rdRead := ha'.q.trans hq
  have ho' : v.op = .readWord := ha'.sameOp.op.trans ho
  have hHI : v.HI = x := ha'.HI.trans ha.RX
  have hb' : v.bi = 1 := ha'.sameOp.bi
  have hv := (hu.window_kept ha').complete_kept (.word hq' ho' hb')
  rw [complete_word hq' ho' hb'] at hrun'
  rw [hHI, ha'.RX] at hv hrun'
  refine ⟨finishValue (joinBytes x y) v, r1, r2, r3, x, r5, r6, r7, y, ?_, ⟨rfl, hv.ph⟩, rfl, rfl, hHI, ha'.RX, ?_,
    ha'.np.trans ha.np, hv.opFrame ha'.lvl, fun a => ?_⟩
  · rw [runFor_succ (step_startedCall (o := .readWord) hc hi.1 hw), runFor_add hrun 7, hrun']
  · have hA : u.A = hopAddr w := hu.A
    rw [finishValue, finish_trace, ha'.trace, ha.trace, ho', hA]
    rfl
  · exact (AfterWindow.mem_read (t := .read _ _) ha' nofun).trans (AfterWindow.mem_read (t := .read _ _) ha nofun)

end Sys2Proof.Machine
end

section
/-! The write-enable logic (R123) and the status-polling FSM (R124) as single steps: what leads into `Q_WB_WRITE`, what
leaves `Q_WB_WREN`, and the completion move of the poll row by row. -/

namespace Sys2Proof.Machine

open Sys2Proof

/-! ### WREN and then WRITE -/

/-- A line action leads from a state of INIT to a state of INIT, and none of them belongs to a write (R17, R100). -/
theorem SeqState.lineAction_init {q q' : SeqState} {d : Bool} {l : LineId} (h : q.lineAction = some (d, l, q')) :
    q.allows .writeWord = false ∧ q'.allows .writeWord = false := by
  cases q <;> simp [SeqState.lineAction] at h <;> obtain ⟨-, -, rfl⟩ := h <;> exact ⟨rfl, rfl⟩

/-- The one move of the block into `Q_WB_WRITE` is the completion of a WREN transaction, which is silent (R123). -/
theorem BlockMove.into_wbWrite {s u : State} (h : BlockMove s u) (hs : s.q ≠ .wbWrite) (hu : u.q = .wbWrite) :
    s.q = .wbWren ∧ s.ph = .deselected ∧ u.ph = .idle ∧ u.trace = s.trace := by
  cases h with
  | row t _ _ _ hr =>
    rcases hr.keeps.outcome with ⟨hq, -⟩ | ⟨hq, -⟩
    · exact absurd (hq.symm.trans hu) hs
    · simp [hq] at hu
  | complete t _ _ hp hc =>
    cases hc with
    | wren hq => exact ⟨hq, hp, rfl, rfl⟩
    | highByte | pollAgain => exact absurd hu hs
    | word | byte | status | write | pollLowByte | pollOk | pollTimeout => cases hu
  | lineFault => cases hu
  | cfg l q' ha | drive l q' d e ha =>
    obtain ⟨-, hq'⟩ := SeqState.lineAction_init ha
    rw [show q' = .wbWrite from hu] at hq'
    cases hq'
  | rest => exact absurd hu hs

/-- Of the steps of the machine only the block's own leads into `Q_WB_WRITE`. -/
theorem StepMove.into_wbWrite {s u : State} (h : StepMove s u) (hs : s.q ≠ .wbWrite) (hu : u.q = .wbWrite) :
    s.q = .wbWren ∧ s.ph = .deselected ∧ u.ph = .idle ∧ u.trace = s.trace := by
  cases h with
  | started o => cases o <;> cases hu
  | window t f fs _ _ _ hw =>
    obtain ⟨k, -⟩ := window_keeps hw
    rcases k.outcome with ⟨hq, -⟩ | ⟨hq, -⟩
    · exact absurd (hq.symm.trans hu) hs
    · simp [hq] at hu
  | reset => cases hu
  | device ms =>
    obtain ⟨d, hd, -⟩ := deviceComplete_changes (s.withInputs ms s.bench)
    rw [hd] at hu
    exact absurd hu hs
  | block ms _ _ hb => exact hb.into_wbWrite hs hu

/-- From `Q_WB_WREN` the block stays in its window, faults in it, or goes on to `Q_WB_WRITE` (R123). -/
theorem BlockMove.from_wbWren {s u : State} (h : BlockMove s u) (hs : s.q = .wbWren) :
    u.q = .wbWren ∨ u.q = .wbWrite ∨ u.q = .faulted := by
  cases h with
  | row t _ _ _ hr =>
    rcases hr.keeps.outcome with ⟨hq, -⟩ | ⟨hq, -⟩
    · exact .inl (hq.trans hs)
    · exact .inr (.inr hq)
  | complete t _ _ _ hc =>
    -- Every other completion move belongs to another sequencer state.
    have hs' : (s.toPh .idle).q = .wbWren := hs
    cases hc with
    | wren => exact .inr (.inl rfl)
    | _ => simp_all
  | lineFault => exact .inr (.inr rfl)
  | cfg l q' ha | drive l q' d e ha => simp [hs, SeqState.lineAction] at ha
  | rest => exact .inl hs

/-- Settles O35: the one way into `Q_WB_WRITE`, and the three ways on from `Q_WB_WREN`. -/
theorem writeFollowsItsWren : Obligations.WriteFollowsItsWren := by
  refine ⟨fun s t h hs ht => (step_cases h).into_wbWrite hs ht, fun s t h hn hq => ?_⟩
  rcases (step_cases h).noReset_cases hn with ⟨_, _, _, _, hidle, -⟩ | ⟨_, _, _, hidle, -⟩ | ⟨d, ms, rfl⟩ | ⟨ms, hb⟩
  · simp [hq] at hidle
  · simp [hq] at hidle
  · exact .inl hq
  · exact hb.from_wbWren hq

/-! ### The completion move of the poll -/

theorem pollLimitReached_iff {limit : Option Nat} {n : Nat} :
    pollLimitReached limit n = true ↔ ∃ l, limit = some l ∧ l ≤ n := by
  cases limit <;> simp [pollLimitReached]

theorem completePoll_timeout {s : State} (hw : wip s.RX = true)
    (hl : pollLimitReached s.par.pollLimit (s.np + 1) = true) :
    completePoll s = finish .errDeviceTimeout { s with np := s.np + 1 } := by simp [completePoll, hw, hl]

/-- In `Q_WB_POLL` the step that ends a transaction is the completion move of R124. -/
theorem blockStep_poll {s : State} (hq : s.q = .wbPoll) (hp : s.ph = .deselected) :
    blockStep s = .next (completePoll (s.toPh .idle)) := by
  rw [blockStep_deselected (t := .rdsr s.par.dummy) (by simp only [State.owned, hq]) hp,
    complete_poll (s := s.toPh .idle) hq]

/-- Settles O28: the completion of WRITE, the transaction of the poll, and its completion move in R124's four rows. -/
theorem pollCompletionTable : Obligations.PollCompletionTable := by
  refine ⟨fun s hq hp => ?_, fun s hq => by simp only [State.owned, hq], fun s hq hp => ?_⟩
  · rw [blockStep_deselected (t := .write s.byteAddr s.writeData) (by simp only [State.owned, hq]) hp]
    exact ⟨completeWrite (s.toPh .idle), by simp only [complete, State.toPh_q, hq], rfl, rfl, rfl⟩
  · rw [blockStep_poll hq hp]
    refine ⟨fun hw ho hb => ?_, fun hw hlast => ?_, fun hw hl => ?_, fun hw hl => ?_⟩
    · rw [completePoll_lowByte (s := s.toPh .idle) hw ho hb]
      rfl
    · rw [completePoll_ok (s := s.toPh .idle) hw hlast]
      rfl
    · rw [completePoll_timeout (s := s.toPh .idle) hw (pollLimitReached_iff.2 hl)]
      rfl
    · rw [completePoll_again (s := s.toPh .idle) hw
        (Bool.eq_false_of_not_eq_true fun h => hl (pollLimitReached_iff.1 h))]
      rfl

end Sys2Proof.Machine
end

section
/-! The block at an open device (R44 (a)): the bytes received are the environment's coming choices in order, the device
stays as it is, and so do the latches that no window writes. The poll (R124), and one byte written (R122, R123). -/

namespace Sys2Proof.Machine

open Sys2Proof

/-! ### The bytes received -/

/-- The bytes received in a stretch of the trace, in order. -/
def receivedBytes (es : List Event) : List Byte := es.filterMap Event.received

theorem receivedBytes_append (es fs : List Event) :
    receivedBytes (es ++ fs) = receivedBytes es ++ receivedBytes fs := List.filterMap_append

theorem receivedBytes_xferEvents : ∀ {bs rx : List Byte}, bs.length = rx.length →
    receivedBytes (xferEvents bs rx) = rx
  | [], [], _ => rfl
  | _ :: _, r :: _, h => congrArg (r :: ·) (receivedBytes_xferEvents (Nat.succ.inj h))

theorem receivedBytes_windowEvents {bs rx : List Byte} (h : bs.length = rx.length) :
    receivedBytes (windowEvents bs rx) = rx := by
  have hx := receivedBytes_xferEvents h
  rw [windowEvents, ← List.singleton_append, receivedBytes_append, receivedBytes_append, hx]
  exact List.append_nil rx

/-- `u` comes after `s`, no fault being scheduled, at an open device, which is as it was; the bytes received on the way
are the environment's choices, as far as they go. -/
structure HeardOpen (s u : State) : Prop where
  dev : u.dev = s.dev
  quiet : Quiet u
  replies : ∃ es, u.trace = s.trace ++ es ∧
    ((receivedBytes es).length ≤ s.env.replies.length → s.env.replies = receivedBytes es ++ u.env.replies)

theorem HeardOpen.refl {s : State} (h : Quiet s) : HeardOpen s s := ⟨rfl, h, [], by simp, fun _ => rfl⟩

theorem HeardOpen.trans {s u v : State} (h1 : HeardOpen s u) (h2 : HeardOpen u v) : HeardOpen s v := by
  obtain ⟨es, ht, hr⟩ := h1.replies
  obtain ⟨fs, ht', hr'⟩ := h2.replies
  refine ⟨h2.dev.trans h1.dev, h2.quiet, es ++ fs, by rw [ht', ht, List.append_assoc], fun hl => ?_⟩
  rw [receivedBytes_append, List.length_append] at hl
  have hs := hr (by omega)
  rw [receivedBytes_append, List.append_assoc, ← hr' ?_, ← hs]
  rw [hs, List.length_append] at hl
  omega

/-- The device and the environment's choices are all that counts, and the trace. -/
theorem HeardOpen.congr {s u v : State} (h : HeardOpen s u) (hd : v.dev = u.dev) (he : v.env = u.env)
    (ht : v.trace = u.trace) : HeardOpen s v :=
  ⟨hd.trans h.dev, by rw [Quiet, he]; exact h.quiet, by rw [he, ht]; exact h.replies⟩

theorem quiet_popFault {s : State} (h : Quiet s) : Quiet s.popFault := fun b hb => h b (List.mem_of_mem_tail hb)

theorem setLevel_heardOpen {s : State} (hm : s.dev.mode = .open) (hquiet : Quiet s) (l : LineId) (lvl : Level)
    (p : Phase) : HeardOpen s (setLevel l lvl (·.toPh p) s) := by
  rw [setLevel_open (faultDue_of_quiet hquiet) hm]
  exact ⟨rfl, quiet_popFault hquiet, [.set l lvl], by simp, fun _ => rfl⟩

/-- A transfer receives the next of the environment's choices. -/
theorem xfer_heardOpen {s : State} (hm : s.dev.mode = .open) (hquiet : Quiet s) (b : Byte) {k : Byte → State → State}
    (hk : ∀ r v, (k r v).dev = v.dev ∧ (k r v).env = v.env ∧ (k r v).trace = v.trace) :
    HeardOpen s (xfer b k s) := by
  obtain ⟨e, he, hfaults⟩ := freeReply_changes s.popFault
  have hreply : deviceReply b s.popFault = s.popFault.freeReply := by rw [deviceReply, if_pos (by simpa using hm)]
  rw [xfer, primitive_ok (faultDue_of_quiet hquiet), hreply]
  obtain ⟨hd, henv, htr⟩ := hk s.popFault.freeReply.1 (s.popFault.freeReply.2.emit (.xfer b s.popFault.freeReply.1))
  refine HeardOpen.congr ⟨by simp [freeReply_dev], ?_, [.xfer b s.popFault.freeReply.1], ?_, fun hl => ?_⟩ hd henv htr
  · rw [Quiet, State.emit_env, he]
    exact fun x hx => quiet_popFault hquiet x (by rwa [← hfaults])
  · rw [State.emit_trace, he]
    rfl
  · cases hr : s.env.replies with
    | nil => simp [receivedBytes, Event.received, hr] at hl
    | cons r rs =>
      have hfirst : s.popFault.freeReply.1 = r := freeReply_of_cons hr
      simp [receivedBytes, Event.received, hfirst, freeReply_replies, hr]

theorem phaseRow_heardOpen {t : Txn} {s u : State} (hm : s.dev.mode = .open) (hquiet : Quiet s)
    (h : phaseRow t s = .next u) : HeardOpen s u := by
  obtain ⟨-, hr⟩ := phaseRow_cases h
  cases hr with
  | fault hf => simp [faultDue_of_quiet hquiet] at hf
  | select d e hp =>
    rw [phaseRow_idle hp, Host.Outcome.next.injEq] at h
    exact h ▸ setLevel_heardOpen hm hquiet .cs .low .selected
  | send b r p d e hp =>
    rw [phaseRow_sends hp, Host.Outcome.next.injEq] at h
    exact h ▸ xfer_heardOpen hm hquiet b fun _ _ => ⟨rfl, rfl, rfl⟩
  | receive r d e hp =>
    rw [phaseRow_receives hp, Host.Outcome.next.injEq] at h
    exact h ▸ xfer_heardOpen hm hquiet t.data fun _ _ => ⟨rfl, rfl, rfl⟩
  | deselect d e hp =>
    rw [phaseRow_closes hp, Host.Outcome.next.injEq] at h
    exact h ▸ setLevel_heardOpen hm hquiet .cs .high .deselected
  | close => exact (HeardOpen.refl hquiet).congr rfl rfl rfl

theorem runRows_heardOpen {t : Txn} : ∀ {n : Nat} {s u : State}, s.dev.mode = .open → Quiet s →
    runRows t n s = .next u → HeardOpen s u
  | 0, s, u, _, hquiet, h => by cases h; exact .refl hquiet
  | n + 1, s, u, hm, hquiet, h => by
    unfold runRows at h
    split at h
    · cases h; exact .refl hquiet
    · split at h
      · next v hv =>
        have hrow := phaseRow_heardOpen hm hquiet hv
        exact hrow.trans (runRows_heardOpen (by rw [hrow.dev, hm]) hrow.quiet h)
      · cases h
      · cases h

/-! ### A window -/

/-- A whole window without a fault, whatever the transaction: as many bytes are received as sent, and a query keeps the
last of them (R13, R73, R75). -/
theorem window_quiet (t : Txn) {s : State} (hp : s.ph = .idle) (hq : s.q ≠ .faulted) (hquiet : Quiet s) :
    ∃ u rx d, window t s = .next u ∧ AfterWindow s t.bytes rx d u ∧ rx.length = t.bytes.length ∧
      (t.instr.receives = true → rx.getLast? = some d) := by
  obtain ⟨k, a, x⟩ := t
  cases k with
  | wren =>
    obtain ⟨u, r, hw, h⟩ := window_short (t := ⟨.wren, a, x⟩) (.inl rfl) hp hq hquiet
    exact ⟨u, [r], s.RX, hw, h, rfl, nofun⟩
  | wrdi =>
    obtain ⟨u, r, hw, h⟩ := window_short (t := ⟨.wrdi, a, x⟩) (.inr rfl) hp hq hquiet
    exact ⟨u, [r], s.RX, hw, h, rfl, nofun⟩
  | wrsr =>
    obtain ⟨u, r1, r2, hw, h⟩ := window_wrsr (t := ⟨.wrsr, a, x⟩) rfl hp hq hquiet
    exact ⟨u, [r1, r2], s.RX, hw, h, rfl, nofun⟩
  | rdsr =>
    obtain ⟨u, r, d, hw, h⟩ := window_rdsr (t := ⟨.rdsr, a, x⟩) rfl hp hq hquiet
    exact ⟨u, [r, d], d, hw, h, rfl, fun _ => rfl⟩
  | read =>
    obtain ⟨u, r1, r2, r3, d, hw, h⟩ := window_read (t := ⟨.read, a, x⟩) rfl hp hq hquiet
    exact ⟨u, [r1, r2, r3, d], d, hw, h, rfl, fun _ => rfl⟩
  | write =>
    obtain ⟨u, r1, r2, r3, r4, hw, h⟩ := window_write (t := ⟨.write, a, x⟩) rfl hp hq hquiet
    exact ⟨u, [r1, r2, r3, r4], s.RX, hw, h, rfl, nofun⟩

/-- A window at an open device that has `bytes` to return for it receives them. -/
theorem window_open {t : Txn} {s : State} {bytes rest : List Byte} (hp : s.ph = .idle) (hq : s.q ≠ .faulted)
    (hquiet : Quiet s) (hm : s.dev.mode = .open) (hr : s.env.replies = bytes ++ rest)
    (hl : bytes.length = t.bytes.length) :
    ∃ u d, window t s = .next u ∧ AfterWindow s t.bytes bytes d u ∧ u.dev = s.dev ∧ u.env.replies = rest ∧
      (t.instr.receives = true → bytes.getLast? = some d) := by
  obtain ⟨u, rx, d, hw, ha, hlen, hlast⟩ := window_quiet t hp hq hquiet
  obtain ⟨-, -, hrows⟩ := window_cases hw
  obtain ⟨hdev, -, es, htrace, hheard⟩ := runRows_heardOpen hm hquiet hrows
  obtain rfl : windowEvents t.bytes rx = es := List.append_cancel_left (ha.trace.symm.trans htrace)
  rw [receivedBytes_windowEvents hlen.symm, hr] at hheard
  obtain ⟨rfl, hrest⟩ := List.append_inj (hheard (by rw [List.length_append]; omega)) (hl.trans hlen.symm)
  exact ⟨u, d, hw, ha, hdev, hrest.symm, hlast⟩

/-! ### A transaction of the block -/

/-- Between windows, no fault scheduled, at an open device; the host waits. -/
structure OnOpen (s : State) : Prop where
  ph : s.ph = .idle
  quiet : Quiet s
  mode : s.dev.mode = .open
  waits : Waits s

/-- `u` is `s` after windows at an open device with the events `es`, the bytes `rest` still to be returned: the
operation is the same, and so is every latch and line that they do not write. -/
structure OpenRun (s : State) (es : List Event) (rest : List Byte) (u : State) : Prop where
  onOpen : OnOpen u
  sameOp : SameOp s u
  HI : u.HI = s.HI
  R : u.R = s.R
  oe : u.cs.oe = s.cs.oe
  hold : u.hold = s.hold
  wp : u.wp = s.wp
  dev : u.dev = s.dev
  trace : u.trace = s.trace ++ es
  replies : u.env.replies = rest

theorem OpenRun.trans {s u v : State} {es fs : List Event} {rest rest' : List Byte} (h1 : OpenRun s es rest u)
    (h2 : OpenRun u fs rest' v) : OpenRun s (es ++ fs) rest' v :=
  ⟨h2.onOpen, h1.sameOp.trans h2.sameOp, h2.HI.trans h1.HI, h2.R.trans h1.R, h2.oe.trans h1.oe, h2.hold.trans h1.hold,
    h2.wp.trans h1.wp, h2.dev.trans h1.dev, by rw [h2.trace, h1.trace, List.append_assoc], h2.replies⟩

/-- The poll counter and the sequencer state are no part of the operation. -/
theorem OpenRun.withCounter {s u : State} {es : List Event} {rest : List Byte} (h : OpenRun s es rest u) (n : Nat)
    (q : SeqState) : OpenRun s es rest { u with np := n, q := q } :=
  ⟨⟨h.onOpen.ph, h.onOpen.quiet, h.onOpen.mode, h.onOpen.waits⟩, h.sameOp.withCounter n q, h.HI, h.R, h.oe, h.hold,
    h.wp, h.dev, h.trace, h.replies⟩

/-- A transaction of the block at an open device that has `bytes` to return for it: its window and the completion
move. -/
theorem OnOpen.run {t : Txn} {s : State} {bytes rest : List Byte} (h : OnOpen s) (ho : s.owned = some t)
    (hr : s.env.replies = bytes ++ rest) (hl : bytes.length = t.bytes.length) :
    ∃ u, runFor t.kind.steps s = complete u ∧ OpenRun s (windowEvents t.bytes bytes) rest u ∧ u.q = s.q ∧
      u.np = s.np ∧ u.cs.lvl = .high ∧ (t.instr.receives = true → bytes.getLast? = some u.RX) := by
  have hq := q_ne_faulted_of_owned ho
  obtain ⟨u, d, hw, ha, hdev, hrest, hlast⟩ := window_open h.ph hq h.quiet h.mode hr hl
  obtain ⟨-, -, -, hHI, hR, -, -, -, -, -, -, hoe, hhold, hwp, -⟩ := ha.same
  have hop := ha.sameOp
  have hon : OnOpen u :=
    ⟨ha.ph.trans h.ph, ha.quiet h.quiet, by rw [hdev, h.mode], h.waits.congr hop.moves hop.bench⟩
  refine ⟨u, ?_, ⟨hon, hop, hHI, hR, hoe, hhold, hwp, hdev, ha.trace, hrest⟩, ha.q, ha.np, ha.lvl, by rwa [ha.RX]⟩
  rw [runFor_window ho h.waits hw, if_neg (by rwa [ha.q])]

/-! ### The poll (R124) -/

theorem pollEvents_append (dummy : Byte) (xs ys : List (Byte × Byte)) :
    pollEvents dummy (xs ++ ys) = pollEvents dummy xs ++ pollEvents dummy ys := by
  induction xs with
  | nil => rfl
  | cons x xs ih => simp only [List.cons_append, pollEvents, ih, List.append_assoc]

theorem pollEvents_singleton (dummy j st : Byte) :
    pollEvents dummy [(j, st)] = windowEvents [Config.opRDSR, dummy] [j, st] := List.append_nil _

theorem pollReplies_append (xs ys : List (Byte × Byte)) :
    pollReplies (xs ++ ys) = pollReplies xs ++ pollReplies ys := by
  induction xs with
  | nil => rfl
  | cons x xs ih => simp only [List.cons_append, pollReplies, ih]

/-- `u` is `s` after windows with the events `es`, the last of them a status read that returned `st`, with `n` reads
counted before it; its completion move is still to come. -/
structure OpenPolled (s : State) (es : List Event) (rest : List Byte) (n : Nat) (st : Byte) (u : State) : Prop where
  run : OpenRun s es rest u
  q : u.q = .wbPoll
  np : u.np = n
  RX : u.RX = st
  lvl : u.cs.lvl = .high

/-- One status read of the poll. -/
theorem OnOpen.status_read {s : State} {j st : Byte} {rest : List Byte} (h : OnOpen s) (hq : s.q = .wbPoll)
    (hr : s.env.replies = j :: st :: rest) :
    ∃ u, runFor 5 s = .next (completePoll u) ∧
      OpenPolled s (windowEvents [Config.opRDSR, s.par.dummy] [j, st]) rest s.np st u := by
  obtain ⟨u, hrun, hopen, huq, hnp, hlvl, hrx⟩ :=
    h.run (t := .rdsr s.par.dummy) (bytes := [j, st]) (by simp only [State.owned, hq]) hr rfl
  exact ⟨u, hrun.trans (complete_poll (huq.trans hq)), hopen, huq.trans hq, hnp, (Option.some.inj (hrx rfl)).symm, hlvl⟩

/-- Status reads that find a write in progress, below `POLL_LIMIT`, leave the block in the poll and are counted. -/
theorem OnOpen.poll_busy {polls : List (Byte × Byte)} : ∀ {s : State} {rest : List Byte}, OnOpen s → s.q = .wbPoll →
    s.env.replies = pollReplies polls ++ rest → (∀ x ∈ polls, wip x.2 = true) →
    (∀ l, s.par.pollLimit = some l → s.np + polls.length < l) →
    ∃ u, runFor (5 * polls.length) s = .next u ∧ OpenRun s (pollEvents s.par.dummy polls) rest u ∧ u.q = .wbPoll ∧
      u.np = s.np + polls.length := by
  induction polls with
  | nil =>
    intro s rest h hq hr _ _
    exact ⟨s, rfl, ⟨h, ⟨rfl, rfl, rfl, rfl, rfl, rfl, rfl⟩, rfl, rfl, rfl, rfl, rfl, rfl, (List.append_nil _).symm, hr⟩,
      hq, rfl⟩
  | cons x polls ih =>
    obtain ⟨j, st⟩ := x
    intro s rest h hq hr hwip hlim
    obtain ⟨u, hrun, hu⟩ := h.status_read hq hr
    have hbusy : wip u.RX = true := hu.RX ▸ hwip (j, st) (List.mem_cons_self ..)
    have hpar := hu.run.sameOp.par
    rw [List.length_cons] at hlim ⊢
    have hlimit : pollLimitReached u.par.pollLimit (u.np + 1) = false :=
      pollLimitReached_false fun l hl => by have := hlim l (hpar ▸ hl); rw [hu.np]; omega
    rw [completePoll_again hbusy hlimit] at hrun
    have hopen := hu.run.withCounter (u.np + 1) u.q
    obtain ⟨v, hrun', hopen', hvq, hvnp⟩ := ih hopen.onOpen hu.q hopen.replies
      (fun y hy => hwip y (List.mem_cons_of_mem _ hy))
      (fun l hl => by have := hlim l (hpar ▸ hl); simp only [hu.np]; omega)
    refine ⟨v, ?_, ?_, hvq, by rw [hvnp]; simp only [hu.np]; omega⟩
    · rw [show 5 * (polls.length + 1) = 5 + 5 * polls.length by omega, runFor_add hrun, hrun']
    · have := hopen.trans hopen'
      rwa [hopen.sameOp.par] at this

/-- Busy answers below `POLL_LIMIT` and one answer more, its completion move still to come. -/
theorem OnOpen.poll {s : State} {busy : List (Byte × Byte)} {last : Byte × Byte} {rest : List Byte} (h : OnOpen s)
    (hq : s.q = .wbPoll) (hr : s.env.replies = pollReplies (busy ++ [last]) ++ rest)
    (hwip : ∀ x ∈ busy, wip x.2 = true) (hlim : ∀ l, s.par.pollLimit = some l → s.np + busy.length < l) :
    ∃ u, runFor (5 * (busy.length + 1)) s = .next (completePoll u) ∧
      OpenPolled s (pollEvents s.par.dummy (busy ++ [last])) rest (s.np + busy.length) last.2 u := by
  obtain ⟨j, st⟩ := last
  rw [pollReplies_append, List.append_assoc] at hr
  obtain ⟨u, hrun, hu, huq, hnp⟩ := h.poll_busy hq hr hwip hlim
  obtain ⟨v, hrun', hv⟩ := hu.onOpen.status_read (rest := rest) huq hu.replies
  refine ⟨v, ?_, ?_, hv.q, hv.np.trans hnp, hv.RX, hv.lvl⟩
  · rw [show 5 * (busy.length + 1) = 5 * busy.length + 5 by omega, runFor_add hrun, hrun']
  · have hopen := hu.trans hv.run
    rwa [hu.sameOp.par, ← pollEvents_singleton, ← pollEvents_append] at hopen

end Sys2Proof.Machine
end

section
/-! WRITE_BYTE and WRITE_WORD as whole runs at an open device (R120, R122, R126 to R128), and the poll that times out
(R125, R152). Lines not ready: log 9; latches no rule writes: log 28. -/

namespace Sys2Proof.Machine

open Sys2Proof

/-! ### The end of a poll -/

/-- `t` is `s` after windows with the events `es`, the last of them a status read that returned `st`, and the `Done`
with the result `r` that follows it; `n` reads are counted. -/
structure OpenDone (s : State) (es : List Event) (rest : List Byte) (n : Nat) (st : Byte) (r : Result) (t : State) :
    Prop where
  run : OpenRun s (es ++ [.done s.op r]) rest t
  q : t.q = .idle
  err : t.err = r.code
  np : t.np = n
  RX : t.RX = st
  lvl : t.cs.lvl = .high

theorem OpenDone.idle {s t : State} {es : List Event} {rest : List Byte} {n : Nat} {st : Byte} {r : Result}
    (h : OpenDone s es rest n st r t) : Idle t := ⟨h.q, h.run.onOpen.ph⟩

/-- The completion move that ends the operation counts the last status read (R124). -/
theorem OpenPolled.done {s u : State} {es : List Event} {rest : List Byte} {n : Nat} {st : Byte}
    (h : OpenPolled s es rest n st u) (r : Result) :
    OpenDone s es rest (n + 1) st r (finish r { u with np := u.np + 1 }) := by
  obtain ⟨⟨hp, hquiet, hm, hw⟩, hop, hHI, hR, hoe, hhold, hwp, hdev, htrace, hrest⟩ := h.run
  refine ⟨⟨⟨hp, hquiet, hm, hw⟩, ⟨hop.par, hop.A, hop.V, hop.op, hop.bi, hop.moves, hop.bench⟩, hHI, hR, hoe, hhold,
    hwp, hdev, ?_, hrest⟩, rfl, rfl, congrArg (· + 1) h.np, h.RX, h.lvl⟩
  rw [finish_trace, htrace, hop.op, List.append_assoc]

/-! ### One byte written (R122) -/

/-- What an open device returns while one byte is written: a byte in the WREN window, four in the WRITE window, and the
two bytes of each status read, those that find a write in progress and the last. -/
structure ByteAnswers where
  wren : Byte
  write1 : Byte
  write2 : Byte
  write3 : Byte
  write4 : Byte
  busy : List (Byte × Byte)
  last : Byte × Byte

/-- The bytes returned, in order. -/
def ByteAnswers.replies (x : ByteAnswers) : List Byte :=
  [x.wren, x.write1, x.write2, x.write3, x.write4] ++ pollReplies (x.busy ++ [x.last])

/-- The windows of the byte `b` written at the address `a`. -/
def ByteAnswers.events (x : ByteAnswers) (dummy : Byte) (a : Half) (b : Byte) : List Event :=
  windowEvents [Config.opWREN] [x.wren] ++
    windowEvents [Config.opWRITE, hiByte a, loByte a, b] [x.write1, x.write2, x.write3, x.write4] ++
    pollEvents dummy (x.busy ++ [x.last])

/-- The write is over at the last status read and not before, within `POLL_LIMIT`. -/
structure ByteAnswers.Completes (x : ByteAnswers) (limit : Option Nat) : Prop where
  busy : ∀ p ∈ x.busy, wip p.2 = true
  last : wip x.last.2 = false
  limit : ∀ l, limit = some l → x.busy.length < l

/-- The WREN window and its completion move: the WRITE window is next (R123). -/
theorem OnOpen.wren {s : State} {r : Byte} {rest : List Byte} (h : OnOpen s) (hq : s.q = .wbWren)
    (hr : s.env.replies = r :: rest) :
    ∃ u, runFor 4 s = .next u ∧ OpenRun s (windowEvents [Config.opWREN] [r]) rest u ∧ u.q = .wbWrite := by
  obtain ⟨u, hrun, hopen, huq, -⟩ := h.run (t := .wren) (bytes := [r]) (by simp only [State.owned, hq]) hr rfl
  replace huq : u.q = .wbWren := huq.trans hq
  exact ⟨u.toQ .wbWrite, hrun.trans (by simp only [complete, huq, completeWren]), hopen.withCounter u.np .wbWrite, rfl⟩

/-- The WRITE window and its completion move: the poll is next, with nothing counted yet (R124). -/
theorem OnOpen.write {s : State} {r1 r2 r3 r4 : Byte} {rest : List Byte} (h : OnOpen s) (hq : s.q = .wbWrite)
    (hr : s.env.replies = r1 :: r2 :: r3 :: r4 :: rest) :
    ∃ u, runFor 7 s = .next u ∧
      OpenRun s (windowEvents (Txn.write s.byteAddr s.writeData).bytes [r1, r2, r3, r4]) rest u ∧ u.q = .wbPoll ∧
      u.np = 0 := by
  obtain ⟨u, hrun, hopen, huq, -⟩ := h.run (t := .write s.byteAddr s.writeData) (bytes := [r1, r2, r3, r4])
    (by simp only [State.owned, hq]) hr rfl
  replace huq : u.q = .wbWrite := huq.trans hq
  exact ⟨completeWrite u, hrun.trans (by simp only [complete, huq]), hopen.withCounter 0 .wbPoll, rfl, rfl⟩

/-- The windows of one byte, the completion move of the poll still to come. -/
theorem OnOpen.byteWritten {s : State} {x : ByteAnswers} {rest : List Byte} (h : OnOpen s) (hq : s.q = .wbWren)
    (hx : x.Completes s.par.pollLimit) (hr : s.env.replies = x.replies ++ rest) :
    ∃ u, runFor (11 + 5 * (x.busy.length + 1)) s = .next (completePoll u) ∧
      OpenPolled s (x.events s.par.dummy s.byteAddr s.writeData) rest x.busy.length x.last.2 u := by
  obtain ⟨s1, hrun1, h1, hq1⟩ := h.wren hq hr
  obtain ⟨s2, hrun2, h2, hq2, hnp2⟩ := h1.onOpen.write hq1 h1.replies
  have h12 := h1.trans h2
  obtain ⟨u, hrun, hu⟩ := h2.onOpen.poll hq2 h2.replies hx.busy
    (fun l hl => by rw [hnp2, Nat.zero_add]; exact hx.limit l (h12.sameOp.par ▸ hl))
  refine ⟨u, ?_, ?_, hu.q, by rw [hu.np, hnp2, Nat.zero_add], hu.RX, hu.lvl⟩
  · rw [show 11 + 5 * (x.busy.length + 1) = 4 + (7 + 5 * (x.busy.length + 1)) by omega, runFor_add hrun1,
      runFor_add hrun2, hrun]
  · have hrun := h12.trans hu.run
    rwa [h1.sameOp.byteAddr, h1.sameOp.writeData, h12.sameOp.par] at hrun

/-- The last byte of a write: its windows and `Done`. -/
theorem OnOpen.lastByte {s : State} {x : ByteAnswers} {rest : List Byte} (h : OnOpen s) (hq : s.q = .wbWren)
    (ho : ¬(s.op = .writeWord ∧ s.bi = 0)) (hx : x.Completes s.par.pollLimit) (hr : s.env.replies = x.replies ++ rest) :
    ∃ t, runFor (11 + 5 * (x.busy.length + 1)) s = .next t ∧
      OpenDone s (x.events s.par.dummy s.byteAddr (loByte s.V)) rest (x.busy.length + 1) x.last.2 .ok t := by
  obtain ⟨u, hrun, hu⟩ := h.byteWritten hq hx hr
  have hop := hu.run.sameOp
  rw [completePoll_ok (by rw [hu.RX, hx.last]) (by rwa [hop.op, hop.bi])] at hrun
  rw [State.writeData_low ho] at hu
  exact ⟨_, hrun, hu.done .ok⟩

/-- The first byte of a word: its windows, and on to the second (R124). -/
theorem OnOpen.firstByte {s : State} {x : ByteAnswers} {rest : List Byte} (h : OnOpen s) (hq : s.q = .wbWren)
    (ho : s.op = .writeWord) (hb : s.bi = 0) (hx : x.Completes s.par.pollLimit)
    (hr : s.env.replies = x.replies ++ rest) :
    ∃ u, runFor (11 + 5 * (x.busy.length + 1)) s = .next u ∧
      OpenRun { s with bi := 1 } (x.events s.par.dummy s.A (hiByte s.V)) rest u ∧ u.q = .wbWren := by
  obtain ⟨u, hrun, hu⟩ := h.byteWritten hq hx hr
  rw [State.writeData_high ho hb, State.byteAddr_first hb] at hu
  obtain ⟨⟨hp, hquiet, hm, hw⟩, hop, hHI, hR, hoe, hhold, hwp, hdev, htrace, hrest⟩ := hu.run
  rw [completePoll_lowByte (by rw [hu.RX, hx.last]) (hop.op.trans ho) (hop.bi.trans hb)] at hrun
  exact ⟨_, hrun, ⟨⟨hp, hquiet, hm, hw⟩, ⟨hop.par, hop.A, hop.V, hop.op, rfl, hop.moves, hop.bench⟩, hHI, hR, hoe,
    hhold, hwp, hdev, htrace, hrest⟩, rfl⟩

/-! ### The whole runs -/

theorem OnOpen.startedCall {s : State} {w : HostWord} {ws : List HostWord} (hi : Idle s) (hquiet : Quiet s)
    (hm : s.dev.mode = .open) (o : HostOp) : OnOpen (s.startedCall o w ws) :=
  ⟨hi.2, hquiet, hm, Calls.waits (ws := ws) ⟨rfl, rfl⟩⟩

/-- What a run leaves of the operation that a word started, at either byte of it. -/
theorem OpenRun.opFrame {s u : State} {o : HostOp} {w : HostWord} {ws : List HostWord} {b : BitVec 1} {es : List Event}
    {rest : List Byte} (h : OpenRun { s.startedCall o w ws with bi := b } es rest u) (hl : u.cs.lvl = .high) :
    OpFrame s w ws u :=
  ⟨h.sameOp.par, h.sameOp.A, h.sameOp.V, h.oe, hl, h.hold, h.wp, h.sameOp.moves, h.sameOp.bench⟩

/-- Settles O55: the start of the operation and its one byte. -/
theorem writeByteRun : Obligations.WriteByteRun := by
  intro s w ws r0 r1 r2 r3 r4 busy j st rest hi hquiet hc hw hm hr hbusy hlast hlim
  obtain ⟨t, hrun, ht⟩ := (OnOpen.startedCall (w := w) (ws := ws) hi hquiet hm .writeByte).lastByte
    (x := ⟨r0, r1, r2, r3, r4, busy, (j, st)⟩) rfl nofun ⟨hbusy, hlast, hlim⟩ hr
  refine ⟨t, ?_, ht.idle, ht.err, ht.np, ?_, ht.run.R, ht.run.HI, ht.RX,
    OpenRun.opFrame (o := .writeByte) (b := 0) ht.run ht.lvl, ht.run.replies⟩
  · rw [show 12 + 5 * (busy.length + 1) = 11 + 5 * (busy.length + 1) + 1 by omega,
      runFor_succ (step_startedCall (o := .writeByte) hc hi.1 hw), hrun]
  · rw [ht.run.trace, State.byteAddr_first rfl]
    simp [ByteAnswers.events, State.startedCall]

/-- Settles O56: the start of the operation, the high byte with its whole poll, and then the low byte with its own. -/
theorem writeWordRun : Obligations.WriteWordRun := by
  intro s w ws r0 r1 r2 r3 r4 busy j st q0 q1 q2 q3 q4 busy' j' st' rest hi hquiet hc hw hm hr hbusy hlast hbusy' hlast'
    hlim
  obtain ⟨u, hrun, hu, hq⟩ := (OnOpen.startedCall (w := w) (ws := ws) hi hquiet hm .writeWord).firstByte
    (x := ⟨r0, r1, r2, r3, r4, busy, (j, st)⟩) rfl rfl rfl ⟨hbusy, hlast, fun l hl => (hlim l hl).1⟩ hr
  have hop := hu.sameOp
  obtain ⟨t, hrun', ht⟩ := hu.onOpen.lastByte (x := ⟨q0, q1, q2, q3, q4, busy', (j', st')⟩) hq (by rw [hop.bi]; nofun)
    ⟨hbusy', hlast', fun l hl => (hlim l (hop.par ▸ hl)).2⟩ hu.replies
  have hall := hu.trans ht.run
  refine ⟨t, ?_, ht.idle, ht.err, ht.np, ?_, hall.R, hall.HI, ht.RX, OpenRun.opFrame hall ht.lvl, hall.replies⟩
  · rw [show 12 + 5 * (busy.length + 1) + (11 + 5 * (busy'.length + 1)) =
        11 + 5 * (busy.length + 1) + (11 + 5 * (busy'.length + 1)) + 1 by omega,
      runFor_succ (step_startedCall (o := .writeWord) hc hi.1 hw), runFor_add hrun, hrun']
  · rw [hall.trace, State.byteAddr_second hop.bi, hop.A, hop.V, hop.op, hop.par]
    simp [ByteAnswers.events, State.startedCall]

/-! ### The poll that times out -/

/-- A `Done` is emitted by a completion move and by nothing else (R150). -/
theorem StepMove.done_complete {s u : State} {o : HostOp} {r : Result} (h : StepMove s u)
    (ht : u.trace = s.trace ++ [.done o r]) :
    ∃ ms, s.ph = .deselected ∧ CompleteMove ((s.withInputs ms s.bench).toPh .idle) u := by
  cases h with
  | started => simp at ht
  | window t f fs _ _ _ hw =>
    obtain ⟨-, l, hl, hwire⟩ := window_keeps hw
    obtain rfl : l = [.done o r] := List.append_cancel_left (hl.symm.trans ht)
    cases hwire _ (List.mem_singleton_self _)
  | reset => simp at ht
  | device ms =>
    obtain ⟨d, hd, -⟩ := deviceComplete_changes (s.withInputs ms s.bench)
    simp [hd] at ht
  | block ms _ _ hb =>
    cases hb with
    | row t _ _ hp hr =>
      rcases hr.trace with ⟨-, hp'⟩ | ⟨e, he, hwire⟩
      · exact absurd hp' hp
      · obtain rfl : e = .done o r := by simpa using he.symm.trans ht
        cases hwire
    | complete t _ _ hp hc => exact ⟨ms, hp, hc⟩
    | lineFault | cfg | drive | rest => simp at ht

/-- An operation ends with DeviceTimeout only at the `POLL_LIMIT` (R125). -/
theorem CompleteMove.timeout_limit {s u : State} {o : HostOp} (h : CompleteMove s u)
    (ht : u.trace = s.trace ++ [.done o .errDeviceTimeout]) : pollLimitReached s.par.pollLimit (s.np + 1) = true := by
  cases h with
  | pollTimeout _ _ hl => exact hl
  | _ => simp [finishValue] at ht

/-- Busy answers up to `POLL_LIMIT` end the operation (R125). -/
theorem OnOpen.poll_timeout {s : State} {busy : List (Byte × Byte)} {last : Byte × Byte} {rest : List Byte}
    (h : OnOpen s) (hq : s.q = .wbPoll) (hr : s.env.replies = pollReplies (busy ++ [last]) ++ rest)
    (hwip : ∀ x ∈ busy ++ [last], wip x.2 = true) (hlim : s.par.pollLimit = some (s.np + (busy.length + 1))) :
    ∃ t, runFor (5 * (busy.length + 1)) s = .next t ∧
      OpenDone s (pollEvents s.par.dummy (busy ++ [last])) rest (s.np + busy.length + 1) last.2 .errDeviceTimeout
        t := by
  obtain ⟨u, hrun, hu⟩ := h.poll hq hr (fun x hx => hwip x (List.mem_append_left _ hx))
    (fun l hl => by cases hlim.symm.trans hl; omega)
  have hlimit : pollLimitReached u.par.pollLimit (u.np + 1) = true :=
    pollLimitReached_iff.2 ⟨_, hu.run.sameOp.par ▸ hlim, by rw [hu.np]; omega⟩
  rw [completePoll_timeout (by rw [hu.RX]; exact hwip last (by simp)) hlimit] at hrun
  exact ⟨_, hrun, hu.done .errDeviceTimeout⟩

/-- Settles O57: a DeviceTimeout needs a limit that is reached, and a poll with as many busy answers as the limit ends
with one. -/
theorem boundedPollTimesOut : Obligations.BoundedPollTimesOut := by
  refine ⟨fun s t o hnone h ht => ?_, fun s polls rest hq hp hnp hw hquiet hm hlim hpos hwip hr => ?_⟩
  · obtain ⟨ms, -, hc⟩ := (step_cases h).done_complete ht
    have hl := hc.timeout_limit ht
    simp [hnone, pollLimitReached] at hl
  · obtain ⟨busy, last, rfl⟩ := (List.eq_nil_or_concat' polls).resolve_left (List.ne_nil_of_length_pos hpos)
    rw [List.length_append, List.length_singleton] at hlim ⊢
    obtain ⟨t, hrun, ht⟩ := OnOpen.poll_timeout ⟨hp, hquiet, hm, hw⟩ hq hr hwip (by rw [hnp, Nat.zero_add, hlim])
    have hop := ht.run.sameOp
    refine ⟨t, hrun, ht.idle, ht.err, by rw [ht.np, hnp, Nat.zero_add], ht.lvl, by rw [ht.run.trace, List.append_assoc],
      hop.op, hop.bi, hop.A, hop.V, ht.run.R, ht.run.HI, ht.run.dev, ht.run.replies, fun a v => ⟨_, if_pos ht.q⟩⟩

end Sys2Proof.Machine
end

section
/-! READ_STATUS and WRITE_STATUS as whole runs (R140, R142, R143): the start, one window, and the completion move. Lines
not ready: log 9; latches no rule writes: log 28. -/

namespace Sys2Proof.Machine

open Sys2Proof

/-! ### A status read at the device -/

/-- A window at an open device leaves the device as it was (R44 (a)). -/
theorem window_dev_open {t : Txn} {s u : State} (hm : s.dev.mode = .open) (hquiet : Quiet s)
    (hw : window t s = .next u) : u.dev = s.dev := by
  obtain ⟨-, -, hrows⟩ := window_cases hw
  exact (runRows_heardOpen hm hquiet hrows).dev

/-- An RDSR window at a contract device with its lines ready leaves the device with no byte of a frame and otherwise as
it was (R44, R82). -/
theorem window_rdsr_dev_contract {s u : State} {x : Byte} (hp : s.ph = .idle) (hq : s.q ≠ .faulted) (hquiet : Quiet s)
    (hm : s.dev.mode = .contract) (hlines : s.linesReady = true) (hw : window (.rdsr x) s = .next u) :
    u.dev = { s.dev with frame := [] } := by
  obtain ⟨v, hv, hdev, -⟩ := window_rdsr_contract ⟨hp, hq, hquiet, hlines, by rw [hm]; nofun⟩ hm x
  cases hw.symm.trans hv
  exact hdev

/-! ### The one window of each operation -/

section Serving

variable {s u : State} {w : HostWord} {ws : List HostWord}

/-- In `Q_RS_RDSR` the block sends one RDSR frame, in five steps, the last one making the completion move too (R78,
R140). An open device, and a contract device with its lines ready, are not moved by the read (R37, log 14). -/
theorem Serving.readStatusWindow (h : Serving s w ws u) (hq : u.q = .rsRdsr) :
    ∃ v r d, runFor 5 u = .next (finishValue (zext16 d) v) ∧
      AfterWindow u (Txn.rdsr s.par.dummy).bytes [r, d] d v ∧ (u.dev.mode = .open → v.dev = u.dev) ∧
      (u.dev.mode = .contract → u.linesReady = true → v.dev = { u.dev with frame := [] }) := by
  have ho : u.owned = some (.rdsr s.par.dummy) := by simp only [State.owned, hq, h.par]
  have hne := q_ne_faulted_of_owned ho
  obtain ⟨v, r, d, hw, hv⟩ := window_rdsr (t := .rdsr s.par.dummy) rfl h.ph hne h.quiet
  refine ⟨v, r, d, (h.run ho hw hv).trans ?_, hv, fun hm => window_dev_open hm h.quiet hw,
    fun hm hlines => window_rdsr_dev_contract h.ph hne h.quiet hm hlines hw⟩
  simp only [complete, hv.q.trans hq, completeReadStatus, hv.RX]

/-- In `Q_WS_WRSR` the block sends one WRSR frame with the low byte of `V`, in five steps, the last one making the
completion move too (R78, R142). -/
theorem Serving.writeStatusWindow (h : Serving s w ws u) (hq : u.q = .wsWrsr) :
    ∃ v r1 r2, runFor 5 u = .next (finish .ok v) ∧
      AfterWindow u (Txn.wrsr (loByte (hopData w))).bytes [r1, r2] u.RX v := by
  have ho : u.owned = some (.wrsr (loByte (hopData w))) := by simp only [State.owned, hq, h.V]
  obtain ⟨v, r1, r2, hw, hv⟩ :=
    window_wrsr (t := .wrsr (loByte (hopData w))) rfl h.ph (q_ne_faulted_of_owned ho) h.quiet
  refine ⟨v, r1, r2, (h.run ho hw hv).trans ?_, hv⟩
  simp only [complete, hv.q.trans hq, completeWriteStatus]

end Serving

/-! ### The whole runs -/

/-- Settles O53: the start, one RDSR window, and the completion move that extends its byte; what the window does to the
device is what the run does. -/
theorem readStatusRun : Obligations.ReadStatusRun := by
  intro s w ws hi hquiet hc hw
  have h0 : Serving s w ws (s.startedCall .readStatus w ws) := .startedCall hi.2 hquiet .readStatus
  obtain ⟨u, r, d, hrun, ha, hopen, hcontract⟩ := h0.readStatusWindow rfl
  have ho : u.op = .readStatus := ha.sameOp.op
  have hu := (h0.window_kept ha).complete_kept (.byte (.inr ha.q))
  rw [ha.RX] at hu
  refine ⟨finishValue (zext16 d) u, r, d, ?_, ⟨rfl, hu.ph⟩, rfl, rfl, ha.RX, ?_, ha.HI, ha.np, hu.opFrame ha.lvl,
    fun a => AfterWindow.mem_read (t := .rdsr _) ha nofun, hopen, hcontract⟩
  · rw [runFor_succ (step_startedCall (o := .readStatus) hc hi.1 hw), hrun]
  · rw [finishValue, finish_trace, ha.trace, ho]
    rfl

/-- Settles O54: the start, one WRSR window with the low byte of the data, and the completion move, which ends the
operation with no poll. -/
theorem writeStatusRun : Obligations.WriteStatusRun := by
  intro s w ws hi hquiet hc hw
  have h0 : Serving s w ws (s.startedCall .writeStatus w ws) := .startedCall hi.2 hquiet .writeStatus
  obtain ⟨u, r1, r2, hrun, ha⟩ := h0.writeStatusWindow rfl
  obtain ⟨-, -, -, -, hR, -⟩ := ha.same
  have ho : u.op = .writeStatus := ha.sameOp.op
  have hu := (h0.window_kept ha).complete_kept (.status (.inr ha.q))
  refine ⟨finish .ok u, r1, r2, ?_, ⟨rfl, hu.ph⟩, rfl, hR, ha.RX, ?_, ha.HI, ha.np, hu.opFrame ha.lvl,
    fun a => AfterWindow.mem_read (t := .wrsr _) ha nofun⟩
  · rw [runFor_succ (step_startedCall (o := .writeStatus) hc hi.1 hw), hrun]
  · rw [finish_trace, ha.trace, ho]
    rfl

end Sys2Proof.Machine
end

section
/-! The block and its host (R150, R154 to R156): a word that comes too early, the step that ends an operation, and the
poll without a limit. -/

namespace Sys2Proof.Machine

open Sys2Proof

/-! ### A busy block's own step -/

theorem step_of_pick_block {s u : State} (h : s.pick = .block u) : step s = blockStep u := by
  unfold step
  rw [h]

/-- A word held back lets a busy block step (R65). -/
theorem pick_call_busy {s : State} {w : HostWord} {ms : List Move} (hq : s.q ≠ .idle) (hm : s.moves = .call w :: ms) :
    s.pick = .block s := by
  rcases pick_cases s with ⟨_, _, -, hidle, -⟩ | ⟨-, h⟩
  · exact absurd hidle hq
  · simpa [hm, hq] using h

/-- Settles O10: a word presented at once is run, and every operation but the reserved one is refused by a block that is
not idle; a word held back is not taken up. -/
theorem hostWaitsForIdle : Obligations.HostWaitsForIdle := by
  refine fun s w ms hq => ⟨fun hm hw => ?_, fun hm => step_of_pick_block (pick_call_busy hq hm)⟩
  rw [step_force_head (.inr hq) hm]
  exact exec_host_busy (decodeHop_isHost w) (decodeHop_wellFormed hw) hq

/-! ### The end of an operation -/

/-- A completion move that emits `Done` ends the operation in progress, with the result's code and its value (R150). -/
theorem CompleteMove.done {s u : State} {o : HostOp} {r : Result} (h : CompleteMove s u)
    (ht : u.trace = s.trace ++ [.done o r]) :
    o = s.op ∧ u.q = .idle ∧ u.err = r.code ∧ ∀ v, r = .okValue v → u.R = v := by
  cases h with
  | highByte | wren | write | pollLowByte | pollAgain => simp at ht
  | word | byte =>
    obtain ⟨rfl, rfl⟩ : s.op = o ∧ _ = r := by simpa [finishValue] using ht
    exact ⟨rfl, rfl, rfl, fun v hv => Result.okValue.inj hv⟩
  | status | pollOk | pollTimeout =>
    obtain ⟨rfl, rfl⟩ : s.op = o ∧ _ = r := by simpa using ht
    exact ⟨rfl, rfl, rfl, nofun⟩

/-- In `Q_IDLE` the block waits (R170). -/
theorem blockStep_idle {s : State} (h : s.q = .idle) : blockStep s = .next s := by
  simp only [blockStep, owned_none_of_idle h, initLineStep, h]

/-- Settles O15: only a completion move emits `Done`; it is made with the window closed, and the idle block it leaves
accepts a `Start` and, left alone, stays as it is. -/
theorem doneLeavesTheBlockIdle : Obligations.DoneLeavesTheBlockIdle := by
  intro s t o res _ h ht
  obtain ⟨ms, hp, hc⟩ := (step_cases h).done_complete ht
  obtain ⟨ho, hq, herr, hR⟩ := hc.done ht
  obtain ⟨-, -, -, -, -, hph, -⟩ := hc.keeps
  refine ⟨ho, hp, ⟨hq, hph⟩, by simp [State.busy, hq], herr, hR, fun a v => ⟨_, if_pos hq⟩, hDone_of_done ht,
    fun ha => ⟨?_, hDone_of_silent rfl⟩⟩
  rw [step_alone ha, blockStep_idle hq]

/-! ### The poll without a limit -/

/-- Settles O58: without a limit every busy answer leaves the block in the poll, and there it accepts no `Start`. -/
theorem unboundedPollNeverEnds : Obligations.UnboundedPollNeverEnds := by
  intro s polls rest hq hp hw hquiet hm hnone hwip hr
  obtain ⟨t, hrun, ht, htq, hnp⟩ :=
    OnOpen.poll_busy ⟨hp, hquiet, hm, hw⟩ hq hr hwip (fun l hl => by simp [hnone] at hl)
  exact ⟨t, hrun, htq, ht.onOpen.ph, by simp [State.busy, htq], hnp, ht.trace,
    fun i hh hwf => exec_host_busy hh hwf (by simp [htq])⟩

end Sys2Proof.Machine
end

section
/-! BusFault on any primitive (R151): of the block, and of a wire frame run as one instruction (log 1), where the
primitives before it have happened and it and the later ones have not. -/

namespace Sys2Proof.Machine

open Sys2Proof

/-! ### On a primitive of the block -/

/-- The coming step of a busy block is its own, whether a `pass` or a word held back is at the head (R65). -/
theorem step_blockTurn {s : State} (h : BlockTurn s) (hq : s.q ≠ .idle) :
    ∃ ms, step s = blockStep (s.withInputs ms s.bench) := by
  rcases pick_cases s with ⟨_, _, -, hidle, -⟩ | ⟨-, ⟨ms, hm, -⟩ | ⟨ms, hm, -⟩ | ⟨ms, -, hp⟩ | ⟨w, ms, hm, -⟩ |
    ⟨w, ms, -, hidle, -⟩ | ⟨w, ms, -, -, hp⟩ | ⟨-, hp⟩⟩
  · exact absurd hidle hq
  · simpa using h _ _ hm
  · simpa using h _ _ hm
  · exact ⟨ms, step_of_pick_block hp⟩
  · simpa using h _ _ hm
  · exact absurd hidle hq
  · exact ⟨s.moves, step_of_pick_block (u := s) hp⟩
  · exact ⟨s.moves, step_of_pick_block (u := s) hp⟩

/-- Every line action of INIT is a primitive (R100, R151). -/
theorem initLineStep_fault {s : State} {x : Bool × LineId × SeqState} (ha : s.q.lineAction = some x)
    (hf : s.faultDue = true) : initLineStep s = takeBusFault s.popFault := by
  unfold initLineStep
  cases hq : s.q <;> simp only [hq, SeqState.lineAction, reduceCtorEq] at ha ⊢
  case initCfgCs | initCfgHold | initCfgWp => rw [cfgOut, primitive_fault hf]
  case initSetCs | initSetHold | initSetWp => rw [setLevel, primitive_fault hf]

/-- Every step of a running operation but the silent one is a primitive, on which a BusFault can fall (R151). -/
theorem blockStep_fault {s : State} (h : SequencerInv s) (hf : s.faultDue = true) (hi : s.q ≠ .idle)
    (hq : s.q ≠ .faulted) (hp : s.ph ≠ .deselected) : blockStep s = .next (takeBusFault s.popFault) := by
  cases ho : s.owned with
  | some t =>
    obtain ⟨hph, -⟩ := h
    rw [blockStep_row ho hp, phaseRow_fault (State.phaseOk_of_owned ho ▸ hph hq) hf hp]
  | none =>
    obtain ⟨x, hx⟩ := ((owned_none ho).resolve_left hi).resolve_left hq
    simp only [blockStep, ho, initLineStep_fault hx hf]

/-! ### On a primitive of a frame -/

/-- An instruction that is encoded as a frame is one transaction's window (R51, R80 to R85). -/
theorem exec_of_encode_frame {i : Instr} {tx : List Byte} (h : encode i = .frame tx) :
    ∃ t : Txn, t.instr = i ∧ t.bytes = tx ∧ ∀ s, exec i s = window t s := by
  cases i with
  | wren => cases h; exact ⟨.wren, rfl, rfl, fun _ => rfl⟩
  | wrdi => cases h; exact ⟨.wrdi, rfl, rfl, fun _ => rfl⟩
  | rdsr x => cases h; exact ⟨.rdsr x, rfl, rfl, fun _ => rfl⟩
  | wrsr x => cases h; exact ⟨.wrsr x, rfl, rfl, fun _ => rfl⟩
  | read a x => cases h; exact ⟨.read a x, rfl, rfl, fun _ => rfl⟩
  | write a x => cases h; exact ⟨.write a x, rfl, rfl, fun _ => rfl⟩
  | init | readWord | writeWord | readStatus | writeStatus | writeByte | readByte | reservedOp7 => cases h

/-- From chip-select LOW until chip-select HIGH the phase is one of the window, and one of the table (R75, R77 (a)). -/
theorem TxnKind.after_inWindow (k : TxnKind) : ∀ j < k.steps - 2,
    (k.after^[j + 1] .idle).inWindow = true ∧ k.allows (k.after^[j + 1] .idle) = true := by
  cases k <;> decide

/-- A byte of a frame is sent without keeping the reply, or it is the last one of a query (R13, R75). -/
theorem Txn.transfer_cases (t : Txn) {i : Nat} (h : i < t.bytes.length) :
    (∃ b, t.bytes[i]? = some b ∧ t.sends (t.kind.after^[i + 1] .idle) = some (b, t.kind.after^[i + 2] .idle) ∧
        ¬(t.instr.receives = true ∧ i + 1 = t.bytes.length)) ∨
      (t.bytes[i]? = some t.data ∧ t.receives (t.kind.after^[i + 1] .idle) ∧ t.kind.after^[i + 2] .idle = .dataDone ∧
        t.instr.receives = true ∧ i + 1 = t.bytes.length) := by
  rcases Nat.lt_or_eq_of_le (Nat.succ_le_of_lt h) with hi | hi
  · obtain ⟨b, _, hb, hs, -⟩ := t.sends_beforeLast hi
    exact .inl ⟨b, hb, hs, fun hl => hi.ne hl.2⟩
  · obtain ⟨k, a, x⟩ := t
    cases k with
    | wren | wrdi | wrsr | write => obtain rfl := Nat.succ.inj hi; exact .inl ⟨_, rfl, rfl, nofun⟩
    | rdsr => obtain rfl := Nat.succ.inj hi; exact .inr ⟨rfl, .inl ⟨rfl, rfl⟩, rfl, rfl, rfl⟩
    | read => obtain rfl := Nat.succ.inj hi; exact .inr ⟨rfl, .inr ⟨rfl, rfl⟩, rfl, rfl, rfl⟩

/-- Past the end of the schedule no fault is due (log 5). -/
theorem faultDue_eq_headD (s : State) : s.faultDue = s.env.faults.headD false := by
  unfold State.faultDue
  cases s.env.faults <;> rfl

/-- `u` is `s` after chip-select LOW and the first `j` transfers of `t`, no fault raised so far; the window goes on
from it, and `RX` is written only by the last transfer of a query. -/
structure SentUpTo (t : Txn) (s : State) (j : Nat) (u : State) : Prop where
  inside : ∃ rx d, InWindow s (t.bytes.take j) rx d (t.kind.after^[j + 1] .idle) u ∧
    if t.instr.receives = true ∧ j = t.bytes.length then rx.getLast? = some d else d = s.RX
  run : ∀ m, runRows t (j + 1 + m) s = runRows t m u

theorem SentUpTo.opens (t : Txn) {s : State} (hp : s.ph = .idle) (hq : s.q ≠ .faulted) (hf : s.faultDue = false) :
    ∃ u, SentUpTo t s 0 u := by
  obtain ⟨u, hrow, hin⟩ := window_opens (t := t) hp hf
  refine ⟨u, ⟨[], s.RX, hin, ?_⟩, fun m => by rw [Nat.zero_add, Nat.add_comm, runRows_next hq hrow]⟩
  rw [if_neg fun h => t.bytes_length_pos.ne h.2]

/-- The schedule says whether a fault falls on the primitive after these transfers. -/
theorem SentUpTo.faultDue {t : Txn} {s u : State} {j : Nat} (h : SentUpTo t s j u) (hj : j ≤ t.bytes.length) :
    u.faultDue = (s.env.faults.drop (j + 1)).headD false := by
  obtain ⟨rx, d, hin, -⟩ := h.inside
  rw [faultDue_eq_headD, hin.faults, List.length_take, Nat.min_eq_left hj]

/-- One more transfer without a fault. -/
theorem SentUpTo.transfer {t : Txn} {s u : State} {j : Nat} (h : SentUpTo t s j u) (hq : s.q ≠ .faulted)
    (hj : j < t.bytes.length) (hf : u.faultDue = false) : ∃ v, SentUpTo t s (j + 1) v := by
  obtain ⟨⟨rx, d, hin, hd⟩, hrun⟩ := h
  rw [if_neg fun hl => hj.ne hl.2] at hd
  subst hd
  have hnext : ∀ {v}, phaseRow t u = .next v → ∀ m, runRows t (j + 1 + 1 + m) s = runRows t m v := fun hrow m => by
    rw [Nat.add_assoc (j + 1) 1 m, hrun, Nat.add_comm 1 m, runRows_next (by rwa [hin.q]) hrow]
  have htake : ∀ {b}, t.bytes[j]? = some b → t.bytes.take (j + 1) = t.bytes.take j ++ [b] := fun hb => by
    rw [List.take_add_one, hb]; rfl
  rcases t.transfer_cases hj with ⟨b, hb, hs, hkeep⟩ | ⟨hb, hs, hph, hlast⟩
  · obtain ⟨r, v, hrow, hv⟩ := window_sends hq hin hf hs
    exact ⟨v, ⟨_, _, htake hb ▸ hv, by rw [if_neg hkeep]⟩, hnext hrow⟩
  · obtain ⟨r, v, hrow, hv⟩ := window_receives hq hin hf hs
    exact ⟨v, ⟨_, r, by rw [htake hb, hph]; exact hv, by rw [if_pos hlast]; simp⟩, hnext hrow⟩

theorem SentUpTo.upTo (t : Txn) {s : State} (hp : s.ph = .idle) (hq : s.q ≠ .faulted) :
    ∀ j ≤ t.bytes.length, (∀ n ≤ j, (s.env.faults.drop n).headD false = false) → ∃ u, SentUpTo t s j u
  | 0, _, hf => SentUpTo.opens t hp hq ((faultDue_eq_headD s).trans (hf 0 le_rfl))
  | j + 1, hj, hf => by
    obtain ⟨u, hu⟩ := SentUpTo.upTo t hp hq j (by omega) fun n hn => hf n (by omega)
    exact hu.transfer hq hj ((hu.faultDue (by omega)).trans (hf (j + 1) le_rfl))

/-- A fault on chip-select LOW: nothing has happened (R151). -/
theorem cutFrame_zero {s : State} (hp : s.ph = .idle) (keeps : Bool) (tx : List Byte) :
    CutFrame s keeps tx 0 (takeBusFault s.popFault) := by
  refine ⟨rfl, rfl, rfl, rfl, rfl, rfl, rfl, rfl, rfl, rfl, rfl, rfl, rfl, rfl, rfl, by simp [hp, Phase.inWindow],
    List.replicate tx.length 0, by simp, by simp, ?_⟩
  rw [if_neg (by simp)]
  rfl

/-- A fault on primitive number `k` of a whole window cuts it there (R151). -/
theorem window_cut (t : Txn) {s : State} {k : Nat} {rest : List Bool} (hp : s.ph = .idle) (hq : s.q ≠ .faulted)
    (hs : s.env.faults = List.replicate k false ++ true :: rest) (hk : k ≤ t.bytes.length + 1) :
    ∃ u, window t s = .next u ∧ CutFrame s t.instr.receives t.bytes k u ∧ u.env.faults = rest := by
  rw [window, if_pos ⟨hp, hq⟩, t.steps_eq]
  cases k with
  | zero =>
    have hf : s.faultDue = true := by rw [faultDue_eq_headD, hs]; rfl
    exact ⟨_, runRows_fault _ hq (by rw [hp]; exact t.kind.allows_idle) (by simp [hp]) hf, cutFrame_zero hp _ _,
      by simp [hs]⟩
  | succ j =>
    obtain ⟨u, hu⟩ := SentUpTo.upTo t hp hq j (by omega) fun n hn => by
      simp [hs, List.getElem?_append_left, show n < j + 1 by omega]
    have hf : u.faultDue = true := by rw [hu.faultDue (by omega), hs]; simp
    obtain ⟨⟨rx, d, hin, hd⟩, hrun⟩ := hu
    obtain ⟨hwin, hallows⟩ := t.kind.after_inWindow j (by rw [t.steps_eq]; omega)
    have hlen : (t.bytes.take j).length = j := List.length_take_of_le (by omega)
    refine ⟨takeBusFault u.popFault, ?_, hin.cutFrame (by omega) hwin hd, by simp [hin.faults, hlen, hs]⟩
    rw [show t.bytes.length + 3 = j + 1 + (t.bytes.length + 1 - j + 1) by omega, hrun,
      runRows_fault _ (by rwa [hin.q]) (by rwa [hin.ph]) (by rw [hin.ph]; intro h; simp [h, Phase.inWindow] at hwin) hf]

/-- Settles O13: every step of a running operation but the silent one is a primitive, which the fault takes the place of;
and in a whole window the fault takes the place of the primitive it falls on. -/
theorem busFaultTakesNothingElse : Obligations.BusFaultTakesNothingElse := by
  refine ⟨fun s hinv hturn hf hi hq hp => ?_, fun s i tx k rest henc hp hq hs hk => ?_⟩
  · obtain ⟨ms, hstep⟩ := step_blockTurn hturn hi
    refine ⟨_, hstep.trans (blockStep_fault (hinv.withInputs ms s.bench) hf hi hq hp), rfl, rfl, rfl,
      by simp [SameLatches], rfl, blockStep_faulted rfl, fun i hh hw => exec_host_busy hh hw nofun⟩
  · obtain ⟨t, rfl, rfl, hexec⟩ := exec_of_encode_frame henc
    rw [hexec]
    exact window_cut t hp hq hs hk

end Sys2Proof.Machine
end

section
/-! Reset (R170), and the device after a reset or a BusFault: kept outside a window, unknown after one that was cut
(R171, U8, log 15). -/

namespace Sys2Proof.Machine

open Sys2Proof

/-! ### The reset input -/

/-- Nothing but a bench frame at an idle block comes before the reset input (log 2). -/
theorem step_reset_head {s : State} {ms : List Move} (hb : s.bench = [] ∨ s.q ≠ .idle) (hm : s.moves = .reset :: ms) :
    step s = .next (resetBlock (s.withInputs ms s.bench)) := by
  have hp : s.pick = .reset (s.withInputs ms s.bench) := by
    rcases pick_cases s with ⟨f, fs, hb', hq, -⟩ | ⟨-, h⟩
    · exact (hb.elim (by simp [hb']) (· hq)).elim
    · simpa [hm] using h
  rw [step, hp]

/-- Settles O2: the step is the block's reset, which gives every latch its value and leaves the rest alone; the block it
leaves is idle, and waits. -/
theorem resetFromAnyState : Obligations.ResetFromAnyState :=
  fun _ _ hb hm => ⟨_, step_reset_head hb hm, rfl, rfl, rfl, rfl, rfl, rfl, rfl, rfl, rfl, rfl, blockStep_idle rfl⟩

/-! ### The device after a cut -/

/-- What reset and BusFault do to the device (`resetBlock_dev`, `takeBusFault_dev`) keeps the array, keeps the whole device
outside a window, and inside one leaves it open. -/
theorem dev_of_cut {s t : State} (h : t.dev = if s.ph.inWindow then s.dev.lost else s.dev) :
    t.dev.mem = s.dev.mem ∧ (s.ph.inWindow = false → t.dev = s.dev) ∧
      (s.ph.inWindow = true → t.dev.mode = .open) := by
  rw [h]
  cases s.ph.inWindow <;> simp

/-- A fault due after chip-select LOW and `j` transfers is taken there, inside the window (R151). -/
theorem SentUpTo.cut {t : Txn} {s u : State} {j : Nat} (h : SentUpTo t s j u) (hp : s.ph = .idle) (hq : s.q ≠ .faulted)
    (hj : j ≤ t.bytes.length) (hf : u.faultDue = true) :
    window t s = .next (takeBusFault u.popFault) ∧ u.ph.inWindow = true ∧ u.dev.mem = s.dev.mem := by
  obtain ⟨⟨rx, d, hin, -⟩, hrun⟩ := h
  obtain ⟨hwin, hallows⟩ := t.kind.after_inWindow j (by rw [t.steps_eq]; omega)
  rw [← hin.ph] at hwin hallows
  have hopen : u.ph ≠ .deselected := fun hd => by simp [hd, Phase.inWindow] at hwin
  refine ⟨?_, hwin, hin.mem⟩
  rw [window, if_pos ⟨hp, hq⟩, t.steps_eq, show t.bytes.length + 3 = j + 1 + (t.bytes.length + 1 - j + 1) by omega, hrun,
    runRows_fault _ (by rwa [hin.q]) hallows hopen hf]

/-- The fault on primitive number `k` of a whole window is taken from a state that has the array as it was: at `k = 0` the
state before the window, and after that one inside it. -/
theorem window_cut_from (t : Txn) {s : State} {k : Nat} {rest : List Bool} (hp : s.ph = .idle) (hq : s.q ≠ .faulted)
    (hs : s.env.faults = List.replicate k false ++ true :: rest) (hk : k ≤ t.bytes.length + 1) :
    ∃ u, window t s = .next (takeBusFault u.popFault) ∧ u.dev.mem = s.dev.mem ∧ (k = 0 → u = s) ∧
      (0 < k → u.ph.inWindow = true) := by
  cases k with
  | zero =>
    have hf : s.faultDue = true := by rw [faultDue_eq_headD, hs]; rfl
    refine ⟨s, ?_, rfl, fun _ => rfl, nofun⟩
    rw [window, if_pos ⟨hp, hq⟩, t.steps_eq]
    exact runRows_fault _ hq (by rw [hp]; exact t.kind.allows_idle) (by simp [hp]) hf
  | succ j =>
    obtain ⟨u, hu⟩ := SentUpTo.upTo t hp hq j (by omega) fun n hn => by
      simp [hs, List.getElem?_append_left, show n < j + 1 by omega]
    have hf : u.faultDue = true := by rw [hu.faultDue (by omega), hs]; simp
    obtain ⟨hw, hwin, hmem⟩ := hu.cut hp hq (by omega) hf
    exact ⟨u, hw, hmem, nofun, fun _ => hwin⟩

/-- Settles O14: a step that resets or takes a fault does to the device what the phase says, and so does the fault that
cuts a whole window, which is taken outside it only on its first primitive. -/
theorem deviceAfterCutWindow : Obligations.DeviceAfterCutWindow := by
  refine ⟨fun s t hinv hb hstep hcut => dev_of_cut ?_, fun s u i tx k rest henc hp hq hs hk hexec => ?_⟩
  · rcases hcut with hr | ⟨hturn, hf, hi, hq, hp⟩
    · obtain ⟨ms, hm⟩ := List.head?_eq_some_iff.mp hr
      rw [step_reset_head hb hm] at hstep
      cases hstep
      rfl
    · obtain ⟨ms, hblock⟩ := step_blockTurn hturn hi
      rw [hblock, blockStep_fault (hinv.withInputs ms s.bench) hf hi hq hp] at hstep
      cases hstep
      rfl
  · obtain ⟨t, -, rfl, hwindow⟩ := exec_of_encode_frame henc
    obtain ⟨v, hv, hmem, hzero, hinside⟩ := window_cut_from t hp hq hs hk
    rw [hwindow, hv] at hexec
    cases hexec
    obtain ⟨hkept, hsame, hopen⟩ := dev_of_cut (takeBusFault_dev v.popFault)
    exact ⟨hkept.trans hmem, fun hk0 => by obtain rfl := hzero hk0; exact hsame (by simp [hp, Phase.inWindow]),
      fun hk0 => hopen (hinside hk0)⟩

end Sys2Proof.Machine
end
